-- ==== Sys2Proof/Word.lean ====
section
/-! DEFINITION. The word types of the BPE (spec/00_scope.md R8: all values unsigned, bit 7 of a byte most significant). -/

namespace Sys2Proof

/-- `u8`: a byte of a stream, a buffer or an 8-bit register. -/
abbrev Byte := BitVec 8

/-- One half of a control byte (R65): an operation code or a device id. -/
abbrev Nibble := BitVec 4

/-- `u16`: the counters, lengths and `timeout_ms`. -/
abbrev Half := BitVec 16

/-- `u32`: a FujiBus field (R71). -/
abbrev Field := BitVec 32

/-- A word of a port, F-OP (R74) or F-EV (R75): 12 bits. -/
abbrev PortWord := BitVec 12

end Sys2Proof
end

