-- ==== Sys2Proof/Config.lean ====
section
/-! DEFINITION. The parameters of an engine (spec/00_scope.md R7, spec/10_state.md R28). They are plain data held in
the machine's state as registers written before reset is released and read-only afterwards. What is computed from them (profile constants, default
tables, the validity check of R294) stands in Machine/Profile.lean. -/

namespace Sys2Proof

/-- FREE VALUE: what the 16-bit `ENVCNT` (R20) holds after it has counted past 65535, which the spec does not state. One value for
each time it happens, by a counter that the state holds (log entry 17). -/
opaque Config.envCntPastEnd : Nat → Half

/-- `BUS`: the five profiles (R7, R28). -/
inductive Bus where
  | sio | iec | smartport | adamnet | fujibus
  deriving DecidableEq, Repr

/-- `CS_KIND`: the three generator kinds (R90). -/
inductive CsKind where
  | add8 | xor8 | crc8
  deriving DecidableEq, Repr

/-- `CHECK_ORDER`: which of device presence and header checksum is tested first (R140). -/
inductive CheckOrder where
  | devFirst | csumFirst
  deriving DecidableEq, Repr

/-- The order of the bytes of a multi-byte quantity on the wire (R45). -/
inductive ByteOrder where
  | bigEndian | littleEndian
  deriving DecidableEq, Repr

/-- `FRAME.direction` (R22): `Read` means the device sends data to the host, `Write` the reverse. -/
inductive Direction where
  | noData | read | write
  deriving DecidableEq, Repr

/-- One entry of `CMD_TABLE[BUS]` (R7). -/
structure CmdEntry where
  direction : Direction
  expectedLength : Half
  timeoutMs : Half
  deriving DecidableEq, Repr

/-- `CMD_TABLE[BUS]` as plain data: the first entry of a command counts. -/
abbrev CmdTable := List (Byte × CmdEntry)

/-- The parameters of R7. The three phase timeouts have no value in the spec and are not held (R27). -/
structure Config where
  bus : Bus
  csKind : CsKind
  crcPoly : Byte
  crcInit : Byte
  crcXorOut : Byte
  fbEnd : Byte
  fbEsc : Byte
  fbEscEnd : Byte
  fbEscEsc : Byte
  sioAck : Byte
  sioNak : Byte
  sioComplete : Byte
  sioError : Byte
  mnReset : Nibble
  mnStatus : Nibble
  mnAck : Nibble
  mnClr : Nibble
  mnReceive : Nibble
  mnCancel : Nibble
  mnSend : Nibble
  mnNack : Nibble
  mnReady : Nibble
  nmStatus : Nibble
  nmAck : Nibble
  nmCancel : Nibble
  nmSend : Nibble
  nmNack : Nibble
  /-- `MAX_PAYLOAD[BUS]`; R294 bounds it by 65535, the width of a length. -/
  maxPayload : Half
  /-- `N_SLOTS`, open in the spec (R7); no rule reads it (log entry 18). -/
  nSlots : Nat
  /-- `SLOT_PRESENT`: the device ids bound to a populated slot. -/
  slots : List Byte
  /-- `CMD_TABLE[BUS]`; `none` where the environment supplies none and the default of R191 or R226 counts. -/
  cmdTable : Option CmdTable
  /-- The `timeout_ms` of the default tables, which R191 leaves to the environment (log entry 15). -/
  defaultTimeoutMs : Half
  checkOrder : CheckOrder
  stInternal : Byte
  spStBadcmd : Byte
  fbStUnsupported : Field
  fbStInvalid : Field
  lenPrefixOrder : ByteOrder
  fbFieldOrder : ByteOrder
  deriving DecidableEq, Repr

/-- `CS_KIND[BUS]` at its default (R7, R103). -/
def Bus.csKind : Bus → CsKind
  | .sio => .add8
  | .iec => .crc8
  | .smartport => .xor8
  | .adamnet => .xor8
  | .fujibus => .add8

/-- `MAX_PAYLOAD[BUS]` at its default (R7). -/
def Bus.maxPayload : Bus → Half
  | .sio => 256
  | .iec => 256
  | .smartport => 512
  | .adamnet => 512
  | .fujibus => 512

/-- Every parameter at the default of R7 and R66, no device present and no table supplied. `nSlots` and
`defaultTimeoutMs` have no default in the spec (DESIGN CHOICE, unsafe: log entries 15, 18). -/
def Config.ofBus (b : Bus) : Config where
  bus := b
  csKind := b.csKind
  crcPoly := 0x07
  crcInit := 0x00
  crcXorOut := 0x00
  fbEnd := 0xC0
  fbEsc := 0xDB
  fbEscEnd := 0xDC
  fbEscEsc := 0xDD
  sioAck := 0x41
  sioNak := 0x4E
  sioComplete := 0x43
  sioError := 0x45
  mnReset := 0x0
  mnStatus := 0x1
  mnAck := 0x2
  mnClr := 0x3
  mnReceive := 0x4
  mnCancel := 0x5
  mnSend := 0x6
  mnNack := 0x7
  mnReady := 0xD
  nmStatus := 0x8
  nmAck := 0x9
  nmCancel := 0xA
  nmSend := 0xB
  nmNack := 0xC
  maxPayload := b.maxPayload
  nSlots := 8
  slots := []
  cmdTable := none
  defaultTimeoutMs := 0
  checkOrder := .devFirst
  stInternal := 0xFF
  spStBadcmd := 0x01
  fbStUnsupported := 1
  fbStInvalid := 2
  lenPrefixOrder := .bigEndian
  fbFieldOrder := .littleEndian

end Sys2Proof
end

