-- ==== Sys2Proof/Machine/Profile.lean ====
section
/-! DEFINITION. The profile constants of an engine (spec/10_state.md R28), the two tables it queries (R133), their
defaults (R191, R226) and the validity of a configuration (R294). -/

namespace Sys2Proof.Machine

/-- `DETECT`: what starts a frame (R28). -/
inductive Detect where
  | line | controlByte | delimiter
  deriving DecidableEq, Repr

/-- `HDR`: the header shape (R28). -/
inductive HdrShape where
  | fiveByte | controlByte | envelope
  deriving DecidableEq, Repr

/-- `LEN_MODE`: where a payload length comes from (R28). -/
inductive LenMode where
  | table | prefixed | delimited
  deriving DecidableEq, Repr

/-- The output lines (R26). -/
inductive OutLine where
  | ackl
  deriving DecidableEq, Repr

/-- The input lines (R25). -/
inductive InLine where
  | cmd | req
  deriving DecidableEq, Repr

/-- `DETECT` of the profile (R28). -/
def detect (c : Config) : Detect :=
  match c.bus with
  | .sio | .smartport => .line
  | .iec | .adamnet => .controlByte
  | .fujibus => .delimiter

/-- `HDR` of the profile (R28). -/
def hdrShape (c : Config) : HdrShape :=
  match c.bus with
  | .sio | .smartport => .fiveByte
  | .iec | .adamnet => .controlByte
  | .fujibus => .envelope

/-- `LEN_MODE` of the profile (R28). -/
def lenMode (c : Config) : LenMode :=
  match c.bus with
  | .sio | .iec | .smartport => .table
  | .adamnet => .prefixed
  | .fujibus => .delimited

/-- The profile's input line (R25, R28). -/
def inLine (c : Config) : Option InLine :=
  match c.bus with
  | .sio => some .cmd
  | .smartport => some .req
  | .iec | .adamnet | .fujibus => none

/-- The profile's output line (R26, R28). -/
def outLine (c : Config) : Option OutLine :=
  match c.bus with
  | .iec | .smartport => some .ackl
  | .sio | .adamnet | .fujibus => none

/-- The size of `HDRBUF` (R18). -/
def hdrMax : Nat := 5

/-- The size of `RXBUF` (R19). -/
def rxMax (c : Config) : Nat := c.maxPayload.toNat

/-- `ENV_MAX`, the size of `ENVBUF` (R20). -/
def envMax (c : Config) : Nat := 4 + 4 * 255 + c.maxPayload.toNat + 1

/-- `DETECT_OPS` (R66). -/
def detectOps (c : Config) : List Nibble :=
  [c.mnStatus, c.mnClr, c.mnReceive, c.mnSend, c.mnReady]

/-- The host-to-device codes of R66. -/
def hostCodes (c : Config) : List Nibble :=
  [c.mnReset, c.mnStatus, c.mnAck, c.mnClr, c.mnReceive, c.mnCancel, c.mnSend, c.mnNack, c.mnReady]

/-- The device-to-host codes of R66. -/
def deviceCodes (c : Config) : List Nibble :=
  [c.nmStatus, c.nmAck, c.nmCancel, c.nmSend, c.nmNack]

/-- The device-to-host codes that R66 marks as sent: all but CANCEL. -/
def sentCodes (c : Config) : List Nibble := [c.nmStatus, c.nmAck, c.nmSend, c.nmNack]

/-- The four SIO symbols (R63). -/
def sioSymbols (c : Config) : List Byte := [c.sioAck, c.sioNak, c.sioComplete, c.sioError]

/-- The four framing bytes (R70). -/
def framingBytes (c : Config) : List Byte := [c.fbEnd, c.fbEsc, c.fbEscEnd, c.fbEscEsc]

/-- The SIO command bytes 'R', 'W', 'S' that the source names (R64). They are keys into `CMD_TABLE[SIO]`. -/
def sioCmdRByte : Byte := 0x52
/-- See `sioCmdRByte`. -/
def sioCmdWByte : Byte := 0x57
/-- See `sioCmdRByte`. -/
def sioCmdSByte : Byte := 0x53

/-- `SLOT_PRESENT(id)` (R133). -/
def slotPresent (c : Config) (id : Byte) : Bool := c.slots.contains id

/-- The table used when the environment supplies none: R191 on IEC, R226 on AdamNet, no entry elsewhere. The rules print the keys
as numbers beside the operation's name; where the `MN_*` parameters have other values the rules do not say which counts, and
the model follows the name: a row's key is its parameter (DESIGN CHOICE, unsafe: log entry 28). -/
def defaultCmdTable (c : Config) : CmdTable :=
  let row (op : Nibble) (d : Direction) (n : Half) : Byte × CmdEntry :=
    (op.zeroExtend 8, { direction := d, expectedLength := n, timeoutMs := c.defaultTimeoutMs })
  match c.bus with
  | .iec =>
    [row c.mnStatus .read 2, row c.mnClr .read 4, row c.mnReceive .noData 0, row c.mnSend .write 3,
     row c.mnReady .noData 0]
  | .adamnet =>
    [row c.mnStatus .read 4, row c.mnClr .read c.maxPayload, row c.mnReceive .noData 0,
     row c.mnSend .write c.maxPayload, row c.mnReady .noData 0]
  | .sio | .smartport | .fujibus => []

/-- `CMD_TABLE[BUS](command)` (R133). -/
def cmdEntry (c : Config) (command : Byte) : Option CmdEntry :=
  (c.cmdTable.getD (defaultCmdTable c)).lookup command

/-- The most payload a `PREFIX` or `DELIMITED` bus accepts for a command: `min(expected_length, MAX_PAYLOAD[BUS])`
(R143, R149, R248). -/
def payloadCeiling (c : Config) (expectedLength : Half) : Nat :=
  min expectedLength.toNat c.maxPayload.toNat

/-- A configuration the spec allows: the conditions of R294, with the nibble codes "pairwise distinct within a direction" that
92_eei_decisions.md D15 asks for. "A configuration that breaks one of these is outside the spec; a model should refuse to build
it" (R294, and I3 of 93_implementation_defined.md). -/
def configValid (c : Config) : Bool :=
  decide (framingBytes c).Nodup
    && decide (1 ≤ c.maxPayload.toNat)
    && decide (sioSymbols c).Nodup
    && decide (hostCodes c).Nodup
    && decide (deviceCodes c).Nodup
    && (detect c != .controlByte || c.slots.all (fun id => decide (id.toNat < 16)))

end Sys2Proof.Machine
end

