-- ==== Sys2Proof/Syntax.lean ====
section
/-! DEFINITION. The instructions, one constructor per row of spec/opcode_table.json, the inputs that carry them
(unit operation words, event words, wire bytes), and the names by which the decoder rejects. -/

namespace Sys2Proof

/-- The unit port an F-OP word is sent to (R74). -/
inductive UnitPort where
  | cs | fr
  deriving DecidableEq, Repr

/-- The direction of a control byte or a stuffed frame on the wire (R65, R70). -/
inductive Way where
  | toDevice | toHost
  deriving DecidableEq, Repr

/-- The direction of an F-DATA block (R60, R62). The trailing byte of a received block is whatever the host sent;
that of a sent block is the checksum of its data. -/
inductive DataWay where
  | received (k : Byte)
  | sent
  deriving DecidableEq, Repr

/-- The head of an F-LPKT packet (R67): `MN_SEND` inbound with the trailing byte the host sent, `NM_STATUS` or
`NM_SEND` outbound. -/
inductive LpktHead where
  | hostSend (k : Byte)
  | devStatus
  | devSend
  deriving DecidableEq, Repr

/-- The rows of the opcode table. `u` is the port of an F-OP word; `x` holds the bits a row ignores, so that no bit
of a word is lost; `dev` is a device id. -/
inductive Instr where
  -- F-OP (R74)
  | nop (u : UnitPort) (x : Byte)
  | csClr (u : UnitPort) (x : Byte)
  | csAbs (u : UnitPort) (b : Byte)
  | csRd (u : UnitPort) (x : Byte)
  | csChk (u : UnitPort) (b : Byte)
  | encBegin (u : UnitPort) (x : Byte)
  | encByte (u : UnitPort) (b : Byte)
  | encEnd (u : UnitPort) (x : Byte)
  | decByte (u : UnitPort) (b : Byte)
  | decRst (u : UnitPort) (x : Byte)
  | reservedOp5 (u : UnitPort) (x : Byte)
  | reservedOp6 (u : UnitPort) (x : Byte)
  | reservedOp7 (u : UnitPort) (x : Byte)
  | reservedOpB (u : UnitPort) (x : Byte)
  | reservedOpE (u : UnitPort) (x : Byte)
  | reservedOpF (u : UnitPort) (x : Byte)
  -- F-EV (R75)
  | evNone (x : BitVec 9)
  | evReset (x : BitVec 9)
  | evLine (v : Bool) (x : Nibble) (l : Nibble)
  | evRx (x : Bool) (b : Byte)
  | evTimeout (x : BitVec 9)
  | evDispatchDone (status : Byte) (data : List Byte)
  | evDispatchNodevice (x : Byte)
  | evPoll (x : BitVec 9)
  | reservedEv7 (x : BitVec 9)
  -- F-SYM (R63) and the SIO command bytes (R64)
  | sioAck
  | sioNak
  | sioComplete
  | sioError
  | sioCmdR
  | sioCmdW
  | sioCmdS
  -- F-CTL, operation codes (R66)
  | mnReset (dev : Nibble)
  | mnStatus (dev : Nibble)
  | mnAck (dev : Nibble)
  | mnClr (dev : Nibble)
  | mnReceive (dev : Nibble)
  | mnCancel (dev : Nibble)
  | mnSend (dev : Nibble)
  | mnNack (dev : Nibble)
  | mnReady (dev : Nibble)
  | nmStatus (dev : Nibble)
  | nmAck (dev : Nibble)
  | nmCancel (dev : Nibble)
  | nmSend (dev : Nibble)
  | nmNack (dev : Nibble)
  | ctlUnassignedE (dev : Nibble)
  | ctlUnassignedF (dev : Nibble)
  -- framing bytes (R70)
  | fbEnd
  | fbEsc
  | fbEscEnd
  | fbEscEsc
  -- wire formats (R61 to R72)
  | fHdr5 (deviceId command aux1 aux2 k : Byte)
  | fData (w : DataWay) (data : List Byte)
  | fCtl (w : Way) (op dev : Nibble)
  | fLpkt (h : LpktHead) (dev : Nibble) (data : List Byte)
  | fIecd (dev : Nibble) (data : List Byte)
  | fIecs (dev : Nibble) (status : Byte)
  | fSpr (status : Byte) (data : List Byte)
  | fStuff (w : Way) (body : List Byte)
  | fEnv (seq command deviceId : Byte) (fields : List Field) (payload : List Byte) (k : Byte)
  | fEnvResp (seq command deviceId : Byte) (status : Field) (data : List Byte)
  deriving DecidableEq, Repr

/-- The wire forms, by the opcode table's format and direction. A byte alone does not say its form (0x41 is `SIO_ACK`
on one bus and `MN_RECEIVE` on another), so the input that carries it does. -/
inductive WireForm where
  | sym | cmdByte | ctlHost | ctlDev | stuffByte
  | hdr5 | dataIn | dataOut | ctlIn | ctlOut | lpktIn | lpktOut
  | iecd | iecs | spr | stuffIn | stuffOut | env | envResp
  deriving DecidableEq, Repr

/-- One input of the machine. -/
inductive Stimulus where
  /-- an F-OP word at a unit port (R74) -/
  | op (u : UnitPort) (w : PortWord)
  /-- an F-EV word at the engine port with the data list that travels beside it (R75) -/
  | ev (w : PortWord) (beside : List Byte)
  /-- the bytes of one wire symbol or format (R60) -/
  | wire (f : WireForm) (bytes : List Byte)
  /-- the environment replaces `SLOT_PRESENT` and `CMD_TABLE` (R52); no instruction -/
  | tables (slots : List Byte) (table : Option CmdTable)
  deriving DecidableEq, Repr

/-- Why the decoder rejects the bytes of a wire form. None of these is raised on a port word: every 12-bit word has
its row. Safe: the machine stops. -/
inductive Reject where
  /-- the number of bytes fits no word of the form -/
  | badLength
  /-- a byte that is none of the form's symbols -/
  | unknownSymbol
  /-- the control byte of the form carries another operation code -/
  | badHead
  /-- a form the engine sends, with a trailing byte that is not the checksum (R62, R67 to R69, R72) -/
  | badChecksum
  /-- a stuffed frame without its delimiters, or with a malformed escape (R70, R119) -/
  | badStuffing
  /-- `decodeEscape` of a list that holds the delimiter, which R119 leaves undefined -/
  | containsDelimiter
  /-- a change of the tables is no instruction -/
  | notAnInstruction
  deriving DecidableEq, Repr

end Sys2Proof
end

