-- ==== Sys2Proof/Machine/Flags.lean ====
section
/-! DEFINITION. The checksum unit and the framer unit as functions of their own registers: every generator step, the
flag `CS_MATCH`, the decoder with its flags `DEC_ERR` and `DEC_NE`, and the composite functions of
spec/30_encoding.md R79 (spec/40_checksum.md, spec/41_framer.md). -/

namespace Sys2Proof.Machine

/-- The registers of a checksum unit: `CS_ACC` (R11) and `CS_MATCH` (R12). -/
structure CsUnit where
  acc : Byte
  matched : Bool
  deriving DecidableEq, Repr

/-- `DEC_ST` (R13); the fourth code is never produced. -/
inductive DecSt where
  | hunt | data | esc
  deriving DecidableEq, Repr

/-- The registers of a framer unit's decoder: `DEC_ST` (R13), `DEC_ERR` (R14), `DEC_NE` (R15). -/
structure FrUnit where
  st : DecSt
  err : Bool
  ne : Bool
  deriving DecidableEq, Repr

/-- A decoder output (R110). -/
inductive DecOut where
  | nothing
  | frameStart
  | data (d : Byte)
  | frameEnd (ok : Bool)
  deriving DecidableEq, Repr

/-- A checksum unit right after reset (R292). -/
def csReset : CsUnit := { acc := 0x00, matched := false }

/-- The numeric code of `DEC_ST` (R13). -/
def decStCode (d : DecSt) : BitVec 2 :=
  match d with
  | .hunt => 0
  | .data => 1
  | .esc => 2

/-! ### Checksum unit -/

/-- `init(CS_KIND)` (R91). -/
def csInit (c : Config) : Byte :=
  match c.csKind with
  | .add8 => 0x00
  | .xor8 => 0x00
  | .crc8 => c.crcInit

/-- `CS_CLR` (R91). -/
def csClear (c : Config) : CsUnit := { acc := csInit c, matched := false }

/-- The `ADD8` absorb step (R92): a 9-bit sum, its carry added to the low byte. -/
def add8Step (acc b : Byte) : Byte :=
  let t : BitVec 9 := acc.zeroExtend 9 + b.zeroExtend 9
  ((t >>> 8) + (t &&& 0xFF)).setWidth 8

/-- One shift of the `CRC8` register (R94). -/
def crcShift (poly r : Byte) : Byte :=
  if r.getLsbD 7 then (r <<< 1) ^^^ poly else r <<< 1

/-- `n` shifts of the `CRC8` register (R94). -/
def crcShifts (poly : Byte) : Nat → Byte → Byte
  | 0, r => r
  | n + 1, r => crcShifts poly n (crcShift poly r)

/-- The absorb step of `CS_KIND` on the accumulator (R92, R93, R94). -/
def absorbStep (c : Config) (acc b : Byte) : Byte :=
  match c.csKind with
  | .add8 => add8Step acc b
  | .xor8 => acc ^^^ b
  | .crc8 => crcShifts c.crcPoly 8 (acc ^^^ b)

/-- `CS_ABS b` (R95): `CS_MATCH` keeps its value. -/
def csAbsorb (c : Config) (u : CsUnit) (b : Byte) : CsUnit := { u with acc := absorbStep c u.acc b }

/-- The value `CS_RD` returns (R96). -/
def csResult (c : Config) (u : CsUnit) : Byte :=
  match c.csKind with
  | .add8 => u.acc
  | .xor8 => u.acc
  | .crc8 => u.acc ^^^ c.crcXorOut

/-- `CS_CHK b` (R97): the byte checked is not absorbed. -/
def csCheck (c : Config) (u : CsUnit) (b : Byte) : CsUnit := { u with matched := csResult c u == b }

/-- `CS_ABS` of each byte of a list in order. -/
def csAbsorbAll (c : Config) (u : CsUnit) (bytes : List Byte) : CsUnit := bytes.foldl (csAbsorb c) u

/-- `cs(L)`, the checksum of the bus at hand (R101). -/
def checksum (c : Config) (bytes : List Byte) : Byte := csResult c (csAbsorbAll c (csClear c) bytes)

/-- `checksum_K(L)` (R101). -/
def checksumOf (k : CsKind) (c : Config) (bytes : List Byte) : Byte := checksum { c with csKind := k } bytes

/-- `validate(B, k)` (R79, R101): `CS_CLR`, `CS_ABS` of each byte, `CS_CHK`. -/
def validate (c : Config) (bytes : List Byte) (k : Byte) : Bool :=
  (csCheck c (csAbsorbAll c (csClear c) bytes) k).matched

/-- `sio_checksum(buf, len)` (R102, R177). -/
def sioChecksum (c : Config) (buf : List Byte) (len : Nat) : Byte := checksumOf .add8 c (buf.take len)

/-! ### Framer unit, encoder half -/

/-- `ENC_BEGIN` (R111). -/
def encBegin (c : Config) : List Byte := [c.fbEnd]

/-- `ENC_BYTE b` (R112). -/
def encByte (c : Config) (b : Byte) : List Byte :=
  if b = c.fbEnd then [c.fbEsc, c.fbEscEnd]
  else if b = c.fbEsc then [c.fbEsc, c.fbEscEsc]
  else [b]

/-- `ENC_END` (R113). -/
def encEnd (c : Config) : List Byte := [c.fbEnd]

/-- `encodeEscape(P)` (R114). -/
def encodeEscape (c : Config) (p : List Byte) : List Byte := p.flatMap (encByte c)

/-- `frame(P)` (R114). -/
def frameBytes (c : Config) (p : List Byte) : List Byte := encBegin c ++ encodeEscape c p ++ encEnd c

/-! ### Framer unit, decoder half -/

/-- `DEC_RST` (R118); also the decoder right after reset (R292). -/
def decReset : FrUnit := { st := .hunt, err := false, ne := false }

/-- `DEC_BYTE b` in `D_HUNT` (R115). -/
def decHunt (c : Config) (u : FrUnit) (b : Byte) : FrUnit × DecOut :=
  if b = c.fbEnd then ({ st := .data, err := false, ne := false }, .frameStart)
  else (u, .nothing)

/-- `DEC_BYTE b` in `D_DATA` (R116). -/
def decData (c : Config) (u : FrUnit) (b : Byte) : FrUnit × DecOut :=
  if b = c.fbEnd then
    if u.ne = false ∧ u.err = false then (u, .nothing)
    else ({ u with st := .hunt }, .frameEnd (!u.err))
  else if b = c.fbEsc then ({ u with st := .esc }, .nothing)
  else ({ u with ne := true }, .data b)

/-- `DEC_BYTE b` in `D_ESC` (R117). -/
def decEsc (c : Config) (u : FrUnit) (b : Byte) : FrUnit × DecOut :=
  if b = c.fbEscEnd then ({ u with st := .data, ne := true }, .data c.fbEnd)
  else if b = c.fbEscEsc then ({ u with st := .data, ne := true }, .data c.fbEsc)
  else if b = c.fbEnd then ({ u with st := .hunt, err := true }, .frameEnd false)
  else ({ u with st := .data, err := true }, .nothing)

/-- `DEC_BYTE b` by `DEC_ST` (R115, R116, R117). -/
def decStep (c : Config) (u : FrUnit) (b : Byte) : FrUnit × DecOut :=
  match u.st with
  | .hunt => decHunt c u b
  | .data => decData c u b
  | .esc => decEsc c u b

/-- `DEC_BYTE` of each byte of a list in order: the decoder after it, and what each byte returned. -/
def decRun (c : Config) : FrUnit → List Byte → FrUnit × List DecOut
  | u, [] => (u, [])
  | u, b :: rest =>
    let r := decRun c (decStep c u b).1 rest
    (r.1, (decStep c u b).2 :: r.2)

/-- The byte of a `Data(d)` output. -/
def outData? (o : DecOut) : Option Byte :=
  match o with
  | .data d => some d
  | .nothing => none
  | .frameStart => none
  | .frameEnd _ => none

/-- The decoder inside a frame that has delivered nothing yet, where R119 starts. -/
def decInside : FrUnit := { st := .data, err := false, ne := false }

/-- `decodeEscape(S)` (R119). On a list that holds `FB_END` the rule leaves it undefined and the model rejects by name
(log entry 23). -/
def decodeEscape (c : Config) (s : List Byte) : Except Reject (List Byte) :=
  if s.contains c.fbEnd then .error .containsDelimiter
  else
    let r := decRun c decInside s
    if r.1.st = .data ∧ r.1.err = false then .ok (r.2.filterMap outData?)
    else .error .badStuffing

end Sys2Proof.Machine
end

