-- ==== Sys2Proof/Machine/Operands.lean ====
section
/-! DEFINITION. Operand assembly (spec/30_encoding.md R73) and the byte layout of every wire format (R61 to R72). The
engine's responses and the encoder of Decode.lean are written with the same functions. -/

namespace Sys2Proof.Machine

/-! ### Operand assembly (R73) -/

/-- `b[7:4]`. -/
def hiNibble (b : Byte) : Nibble := b.extractLsb' 4 4

/-- `b[3:0]`. -/
def loNibble (b : Byte) : Nibble := b.extractLsb' 0 4

/-- A control byte: `(code << 4) or dev` (R65). -/
def ctlByte (code dev : Nibble) : Byte := code ++ dev

/-- A 16-bit quantity from its two wire bytes, the first one first. -/
def join16 (o : ByteOrder) (b0 b1 : Byte) : Half :=
  match o with
  | .bigEndian => b0 ++ b1
  | .littleEndian => b1 ++ b0

/-- The two wire bytes of a 16-bit quantity. -/
def split16 (o : ByteOrder) (n : Half) : List Byte :=
  match o with
  | .bigEndian => [n.extractLsb' 8 8, n.extractLsb' 0 8]
  | .littleEndian => [n.extractLsb' 0 8, n.extractLsb' 8 8]

/-- A FujiBus field from its four wire bytes, the first one first. -/
def join32 (o : ByteOrder) (b0 b1 b2 b3 : Byte) : Field :=
  match o with
  | .bigEndian => ((b0 ++ b1) ++ b2) ++ b3
  | .littleEndian => ((b3 ++ b2) ++ b1) ++ b0

/-- The four wire bytes of a FujiBus field. -/
def split32 (o : ByteOrder) (f : Field) : List Byte :=
  match o with
  | .bigEndian => [f.extractLsb' 24 8, f.extractLsb' 16 8, f.extractLsb' 8 8, f.extractLsb' 0 8]
  | .littleEndian => [f.extractLsb' 0 8, f.extractLsb' 8 8, f.extractLsb' 16 8, f.extractLsb' 24 8]

/-- The first `n` fields of a byte list, four bytes each (R71, R249). -/
def takeFields (o : ByteOrder) : Nat → List Byte → List Field
  | n + 1, b0 :: b1 :: b2 :: b3 :: rest => join32 o b0 b1 b2 b3 :: takeFields o n rest
  | _, _ => []

/-- The wire bytes of a field list. -/
def fieldBytes (o : ByteOrder) (fields : List Field) : List Byte := fields.flatMap (split32 o)

/-- `field[i][7:0]`, 0 where there is no such field (R71, R248). -/
def fieldLow (fields : List Field) (i : Nat) : Byte :=
  match fields[i]? with
  | some f => f.extractLsb' 0 8
  | none => 0

/-! ### Formats -/

/-- `F-HDR5` (R61). -/
def hdr5Bytes (deviceId command aux1 aux2 k : Byte) : List Byte := [deviceId, command, aux1, aux2, k]

/-- `F-DATA` as the engine sends it: no byte at all for an empty block (R62). -/
def dataBlock (c : Config) (data : List Byte) : List Byte :=
  if data = [] then [] else data ++ [checksum c data]

/-- `F-LPKT` with a given trailing byte (R67). -/
def lpktBytes (c : Config) (code dev : Nibble) (data : List Byte) (k : Byte) : List Byte :=
  [ctlByte code dev] ++ split16 c.lenPrefixOrder (BitVec.ofNat 16 data.length) ++ data ++ [k]

/-- `F-LPKT` as the engine sends it (R67). -/
def lpktSent (c : Config) (code dev : Nibble) (data : List Byte) : List Byte :=
  lpktBytes c code dev data (checksum c data)

/-- `F-IECD` (R68). -/
def iecdBytes (c : Config) (dev : Nibble) (data : List Byte) : List Byte :=
  [ctlByte c.nmSend dev] ++ data ++ [checksum c data]

/-- `F-IECS` (R68). -/
def iecsBytes (c : Config) (dev : Nibble) (status : Byte) : List Byte := [ctlByte c.nmStatus dev, status]

/-- `F-SPR` (R69): the checksum covers the status byte as well. -/
def sprBytes (c : Config) (status : Byte) (data : List Byte) : List Byte :=
  ([status] ++ data) ++ [checksum c ([status] ++ data)]

/-- `F-ENV` before stuffing (R71). -/
def envBytes (c : Config) (seq command deviceId : Byte) (fields : List Field) (payload : List Byte) (k : Byte) :
    List Byte :=
  [seq, command, BitVec.ofNat 8 fields.length, deviceId] ++ fieldBytes c.fbFieldOrder fields ++ payload ++ [k]

/-- `F-ENV-RESP` before stuffing and without its checksum (R72). -/
def envRespBody (c : Config) (seq command deviceId : Byte) (status : Field) (data : List Byte) : List Byte :=
  [seq, command, 0x01, deviceId] ++ split32 c.fbFieldOrder status ++ data

/-- `F-ENV-RESP` before stuffing (R72). -/
def envRespBytes (c : Config) (seq command deviceId : Byte) (status : Field) (data : List Byte) : List Byte :=
  envRespBody c seq command deviceId status data ++ [checksum c (envRespBody c seq command deviceId status data)]

end Sys2Proof.Machine
end

