-- ==== Sys2Proof/WellFormed.lean ====
section
/-! DEFINITION. Which instructions have a word: the checks on their operands (spec/30_encoding.md R62, R66, R67, R71).
The configuration counts, since the symbol and nibble values are parameters. -/

namespace Sys2Proof

/-- An instruction that some word of its form encodes. An empty F-DATA block has no byte (R62), a length prefix has 16
bits (R67), a parameter count 8 (R71), the engine sends four of the codes (R66), and 0xE and 0xF are unassigned only where no host code takes them (R66). -/
def wellFormed (c : Config) (i : Instr) : Bool :=
  match i with
  | .nop .. | .csClr .. | .csAbs .. | .csRd .. | .csChk .. | .encBegin .. | .encByte .. | .encEnd .. | .decByte ..
  | .decRst .. | .reservedOp5 .. | .reservedOp6 .. | .reservedOp7 .. | .reservedOpB .. | .reservedOpE ..
  | .reservedOpF .. => true
  | .evNone .. | .evReset .. | .evLine .. | .evRx .. | .evTimeout .. | .evDispatchDone .. | .evDispatchNodevice ..
  | .evPoll .. | .reservedEv7 .. => true
  | .sioAck | .sioNak | .sioComplete | .sioError | .sioCmdR | .sioCmdW | .sioCmdS => true
  | .mnReset .. | .mnStatus .. | .mnAck .. | .mnClr .. | .mnReceive .. | .mnCancel .. | .mnSend .. | .mnNack ..
  | .mnReady .. | .nmStatus .. | .nmAck .. | .nmCancel .. | .nmSend .. | .nmNack .. => true
  | .ctlUnassignedE _ => !(Machine.hostCodes c).contains 0xE
  | .ctlUnassignedF _ => !(Machine.hostCodes c).contains 0xF
  | .fbEnd | .fbEsc | .fbEscEnd | .fbEscEsc => true
  | .fHdr5 .. => true
  | .fData _ data => !data.isEmpty
  | .fCtl .toDevice _ _ => true
  | .fCtl .toHost op _ => (Machine.sentCodes c).contains op
  | .fLpkt _ _ data => decide (data.length < 65536)
  | .fIecd .. | .fIecs .. | .fSpr .. | .fStuff .. => true
  | .fEnv _ _ _ fields _ _ => decide (fields.length < 256)
  | .fEnvResp .. => true

end Sys2Proof
end

