-- ==== Sys2Proof/Decode.lean ====
section
/-! DEFINITION. The decoder, total on every input and rejecting by name, the encoder, and the reading of the opcode
table's words (spec/30_encoding.md R61 to R75, spec/opcode_table.json). -/

namespace Sys2Proof

open Sys2Proof.Machine

/-! ### Port words -/

/-- An F-OP word at a unit port (R74): `op` in bits 11:8, `data` in bits 7:0. -/
def decodeOp (u : UnitPort) (w : PortWord) : Instr :=
  let d : Byte := w.extractLsb' 0 8
  match (w.extractLsb' 8 4).toNat with
  | 0x0 => .nop u d
  | 0x1 => .csClr u d
  | 0x2 => .csAbs u d
  | 0x3 => .csRd u d
  | 0x4 => .csChk u d
  | 0x5 => .reservedOp5 u d
  | 0x6 => .reservedOp6 u d
  | 0x7 => .reservedOp7 u d
  | 0x8 => .encBegin u d
  | 0x9 => .encByte u d
  | 0xA => .encEnd u d
  | 0xB => .reservedOpB u d
  | 0xC => .decByte u d
  | 0xD => .decRst u d
  | 0xE => .reservedOpE u d
  | _ => .reservedOpF u d

/-- An F-EV word at the engine port (R75): `ev` in bits 11:9, `v` in bit 8, `data` in bits 7:0. The list beside the word
counts for `EV_DISPATCH` with `Done` only. -/
def decodeEv (w : PortWord) (beside : List Byte) : Instr :=
  let rest : BitVec 9 := w.extractLsb' 0 9
  let v : Bool := w.getLsbD 8
  let d : Byte := w.extractLsb' 0 8
  match (w.extractLsb' 9 3).toNat with
  | 0 => .evNone rest
  | 1 => .evReset rest
  | 2 => .evLine v (w.extractLsb' 4 4) (w.extractLsb' 0 4)
  | 3 => .evRx v d
  | 4 => .evTimeout rest
  | 5 => if v then .evDispatchNodevice d else .evDispatchDone d beside
  | 6 => .evPoll rest
  | _ => .reservedEv7 rest

/-! ### Wire bytes -/

/-- The symbol `b` among named values: the first that equals it. -/
def pickSymbol {α : Type} [DecidableEq α] (table : List (α × Instr)) (b : α) : Except Reject Instr :=
  match table.lookup b with
  | some i => .ok i
  | none => .error .unknownSymbol

/-- The SIO symbols (R63). -/
def symTable (c : Config) : List (Byte × Instr) :=
  [(c.sioAck, .sioAck), (c.sioNak, .sioNak), (c.sioComplete, .sioComplete), (c.sioError, .sioError)]

/-- The SIO command bytes (R64). -/
def cmdByteTable : List (Byte × Instr) :=
  [(sioCmdRByte, .sioCmdR), (sioCmdWByte, .sioCmdW), (sioCmdSByte, .sioCmdS)]

/-- The framing bytes (R70). -/
def stuffByteTable (c : Config) : List (Byte × Instr) :=
  [(c.fbEnd, .fbEnd), (c.fbEsc, .fbEsc), (c.fbEscEnd, .fbEscEnd), (c.fbEscEsc, .fbEscEsc)]

/-- The host-to-device codes and the two unassigned ones (R66). -/
def ctlHostTable (c : Config) (dev : Nibble) : List (Nibble × Instr) :=
  [(c.mnReset, .mnReset dev), (c.mnStatus, .mnStatus dev), (c.mnAck, .mnAck dev), (c.mnClr, .mnClr dev),
   (c.mnReceive, .mnReceive dev), (c.mnCancel, .mnCancel dev), (c.mnSend, .mnSend dev), (c.mnNack, .mnNack dev),
   (c.mnReady, .mnReady dev), (0xE, .ctlUnassignedE dev), (0xF, .ctlUnassignedF dev)]

/-- The device-to-host codes (R66). -/
def ctlDevTable (c : Config) (dev : Nibble) : List (Nibble × Instr) :=
  [(c.nmStatus, .nmStatus dev), (c.nmAck, .nmAck dev), (c.nmCancel, .nmCancel dev), (c.nmSend, .nmSend dev),
   (c.nmNack, .nmNack dev)]

/-- A form of exactly one byte. -/
def oneByte (bytes : List Byte) (f : Byte → Except Reject Instr) : Except Reject Instr :=
  match bytes with
  | [b] => f b
  | _ => .error .badLength

/-- Splits a list into all but its last byte and its last byte. -/
def splitLast : List Byte → Option (List Byte × Byte)
  | [] => none
  | [k] => some ([], k)
  | b :: rest =>
    match splitLast rest with
    | some (l, k) => some (b :: l, k)
    | none => none

/-- A form that ends in the checksum of `covered data` (R62, R67, R68, R69, R72). -/
def checked (c : Config) (bytes : List Byte) (covered : List Byte → List Byte) (f : List Byte → Instr) :
    Except Reject Instr :=
  match splitLast bytes with
  | none => .error .badLength
  | some (data, k) => if checksum c (covered data) = k then .ok (f data) else .error .badChecksum

/-- `F-DATA` received (R62): at least one data byte and one trailing byte. -/
def decodeDataIn (bytes : List Byte) : Except Reject Instr :=
  match splitLast bytes with
  | none => .error .badLength
  | some (data, k) => if data = [] then .error .badLength else .ok (.fData (.received k) data)

/-- `F-DATA` sent (R62). -/
def decodeDataOut (c : Config) (bytes : List Byte) : Except Reject Instr :=
  if bytes.length < 2 then .error .badLength
  else checked c bytes (fun data => data) (fun data => .fData .sent data)

/-- `F-LPKT` inbound (R67). -/
def decodeLpktIn (c : Config) (bytes : List Byte) : Except Reject Instr :=
  match bytes with
  | ctl :: h :: l :: rest =>
    if hiNibble ctl ≠ c.mnSend then .error .badHead
    else
      match splitLast rest with
      | none => .error .badLength
      | some (data, k) =>
        if data.length = (join16 c.lenPrefixOrder h l).toNat then .ok (.fLpkt (.hostSend k) (loNibble ctl) data)
        else .error .badLength
  | _ => .error .badLength

/-- `F-LPKT` outbound (R67). -/
def decodeLpktOut (c : Config) (bytes : List Byte) : Except Reject Instr :=
  match bytes with
  | ctl :: h :: l :: rest =>
    if rest.length ≠ (join16 c.lenPrefixOrder h l).toNat + 1 then .error .badLength
    else if hiNibble ctl = c.nmStatus then
      checked c rest (fun data => data) (fun data => .fLpkt .devStatus (loNibble ctl) data)
    else if hiNibble ctl = c.nmSend then
      checked c rest (fun data => data) (fun data => .fLpkt .devSend (loNibble ctl) data)
    else .error .badHead
  | _ => .error .badLength

/-- `F-STUFF` (R70): the delimiters stripped, the inside unescaped (R119). -/
def decodeStuff (c : Config) (way : Way) (bytes : List Byte) : Except Reject Instr :=
  match bytes with
  | [] => .error .badLength
  | b :: rest =>
    match splitLast rest with
    | none => .error .badLength
    | some (inside, k) =>
      if b = c.fbEnd ∧ k = c.fbEnd then
        match decodeEscape c inside with
        | .ok body => .ok (.fStuff way body)
        | .error _ => .error .badStuffing
      else .error .badStuffing

/-- `F-ENV` before stuffing (R71): the fields are as many as offset 2 says, the payload is what is left. -/
def decodeEnv (c : Config) (bytes : List Byte) : Except Reject Instr :=
  match bytes with
  | seq :: command :: pc :: deviceId :: rest =>
    match splitLast (rest.drop (4 * pc.toNat)) with
    | none => .error .badLength
    | some (payload, k) =>
      .ok (.fEnv seq command deviceId (takeFields c.fbFieldOrder pc.toNat rest) payload k)
  | _ => .error .badLength

/-- `F-ENV-RESP` before stuffing (R72). -/
def decodeEnvResp (c : Config) (bytes : List Byte) : Except Reject Instr :=
  match bytes with
  | seq :: command :: pc :: deviceId :: t0 :: t1 :: t2 :: t3 :: rest =>
    if pc ≠ 0x01 then .error .badHead
    else
      checked c rest (fun data => [seq, command, pc, deviceId, t0, t1, t2, t3] ++ data)
        (fun data => .fEnvResp seq command deviceId (join32 c.fbFieldOrder t0 t1 t2 t3) data)
  | _ => .error .badLength

/-- The bytes of a wire form. -/
def decodeWire (c : Config) (f : WireForm) (bytes : List Byte) : Except Reject Instr :=
  match f with
  | .sym => oneByte bytes (pickSymbol (symTable c))
  | .cmdByte => oneByte bytes (pickSymbol cmdByteTable)
  | .ctlHost => oneByte bytes (fun b => pickSymbol (ctlHostTable c (loNibble b)) (hiNibble b))
  | .ctlDev => oneByte bytes (fun b => pickSymbol (ctlDevTable c (loNibble b)) (hiNibble b))
  | .stuffByte => oneByte bytes (pickSymbol (stuffByteTable c))
  | .hdr5 =>
    match bytes with
    | [d, cmd, a1, a2, k] => .ok (.fHdr5 d cmd a1 a2 k)
    | _ => .error .badLength
  | .dataIn => decodeDataIn bytes
  | .dataOut => decodeDataOut c bytes
  | .ctlIn => oneByte bytes (fun b => .ok (.fCtl .toDevice (hiNibble b) (loNibble b)))
  | .ctlOut => oneByte bytes (fun b =>
      if (sentCodes c).contains (hiNibble b) then .ok (.fCtl .toHost (hiNibble b) (loNibble b)) else .error .badHead)
  | .lpktIn => decodeLpktIn c bytes
  | .lpktOut => decodeLpktOut c bytes
  | .iecd =>
    match bytes with
    | ctl :: rest =>
      if hiNibble ctl ≠ c.nmSend then .error .badHead
      else checked c rest (fun data => data) (fun data => .fIecd (loNibble ctl) data)
    | [] => .error .badLength
  | .iecs =>
    match bytes with
    | [ctl, s] => if hiNibble ctl = c.nmStatus then .ok (.fIecs (loNibble ctl) s) else .error .badHead
    | _ => .error .badLength
  | .spr =>
    match bytes with
    | s :: rest => checked c rest (fun data => s :: data) (fun data => .fSpr s data)
    | [] => .error .badLength
  | .stuffIn => decodeStuff c .toDevice bytes
  | .stuffOut => decodeStuff c .toHost bytes
  | .env => decodeEnv c bytes
  | .envResp => decodeEnvResp c bytes

/-- The decoder: the instruction of an input, or the name of what is wrong with it. -/
def decode (c : Config) (x : Stimulus) : Except Reject Instr :=
  match x with
  | .op u w => .ok (decodeOp u w)
  | .ev w beside => .ok (decodeEv w beside)
  | .wire f bytes => decodeWire c f bytes
  | .tables _ _ => .error .notAnInstruction

/-! ### Encoder -/

/-- An F-OP word from its `op` and `data` (R74). -/
def opWord (op : Nibble) (d : Byte) : PortWord := op ++ d

/-- An F-EV word from its `ev` and the nine bits below it (R75). -/
def evWord (ev : BitVec 3) (rest : BitVec 9) : PortWord := ev ++ rest

/-- An F-EV word from `ev`, `v` and `data` (R75). -/
def evWordVd (ev : BitVec 3) (v : Bool) (d : Byte) : PortWord := evWord ev (BitVec.ofBool v ++ d)

/-- The input that carries an instruction, from the same encoding tables. -/
def encode (c : Config) (i : Instr) : Stimulus :=
  match i with
  | .nop u x => .op u (opWord 0x0 x)
  | .csClr u x => .op u (opWord 0x1 x)
  | .csAbs u b => .op u (opWord 0x2 b)
  | .csRd u x => .op u (opWord 0x3 x)
  | .csChk u b => .op u (opWord 0x4 b)
  | .reservedOp5 u x => .op u (opWord 0x5 x)
  | .reservedOp6 u x => .op u (opWord 0x6 x)
  | .reservedOp7 u x => .op u (opWord 0x7 x)
  | .encBegin u x => .op u (opWord 0x8 x)
  | .encByte u b => .op u (opWord 0x9 b)
  | .encEnd u x => .op u (opWord 0xA x)
  | .reservedOpB u x => .op u (opWord 0xB x)
  | .decByte u b => .op u (opWord 0xC b)
  | .decRst u x => .op u (opWord 0xD x)
  | .reservedOpE u x => .op u (opWord 0xE x)
  | .reservedOpF u x => .op u (opWord 0xF x)
  | .evNone x => .ev (evWord 0 x) []
  | .evReset x => .ev (evWord 1 x) []
  | .evLine v x l => .ev (evWordVd 2 v (x ++ l)) []
  | .evRx x b => .ev (evWordVd 3 x b) []
  | .evTimeout x => .ev (evWord 4 x) []
  | .evDispatchDone status data => .ev (evWordVd 5 false status) data
  | .evDispatchNodevice x => .ev (evWordVd 5 true x) []
  | .evPoll x => .ev (evWord 6 x) []
  | .reservedEv7 x => .ev (evWord 7 x) []
  | .sioAck => .wire .sym [c.sioAck]
  | .sioNak => .wire .sym [c.sioNak]
  | .sioComplete => .wire .sym [c.sioComplete]
  | .sioError => .wire .sym [c.sioError]
  | .sioCmdR => .wire .cmdByte [sioCmdRByte]
  | .sioCmdW => .wire .cmdByte [sioCmdWByte]
  | .sioCmdS => .wire .cmdByte [sioCmdSByte]
  | .mnReset dev => .wire .ctlHost [ctlByte c.mnReset dev]
  | .mnStatus dev => .wire .ctlHost [ctlByte c.mnStatus dev]
  | .mnAck dev => .wire .ctlHost [ctlByte c.mnAck dev]
  | .mnClr dev => .wire .ctlHost [ctlByte c.mnClr dev]
  | .mnReceive dev => .wire .ctlHost [ctlByte c.mnReceive dev]
  | .mnCancel dev => .wire .ctlHost [ctlByte c.mnCancel dev]
  | .mnSend dev => .wire .ctlHost [ctlByte c.mnSend dev]
  | .mnNack dev => .wire .ctlHost [ctlByte c.mnNack dev]
  | .mnReady dev => .wire .ctlHost [ctlByte c.mnReady dev]
  | .nmStatus dev => .wire .ctlDev [ctlByte c.nmStatus dev]
  | .nmAck dev => .wire .ctlDev [ctlByte c.nmAck dev]
  | .nmCancel dev => .wire .ctlDev [ctlByte c.nmCancel dev]
  | .nmSend dev => .wire .ctlDev [ctlByte c.nmSend dev]
  | .nmNack dev => .wire .ctlDev [ctlByte c.nmNack dev]
  | .ctlUnassignedE dev => .wire .ctlHost [ctlByte 0xE dev]
  | .ctlUnassignedF dev => .wire .ctlHost [ctlByte 0xF dev]
  | .fbEnd => .wire .stuffByte [c.fbEnd]
  | .fbEsc => .wire .stuffByte [c.fbEsc]
  | .fbEscEnd => .wire .stuffByte [c.fbEscEnd]
  | .fbEscEsc => .wire .stuffByte [c.fbEscEsc]
  | .fHdr5 d cmd a1 a2 k => .wire .hdr5 (hdr5Bytes d cmd a1 a2 k)
  | .fData (.received k) data => .wire .dataIn (data ++ [k])
  | .fData .sent data => .wire .dataOut (dataBlock c data)
  | .fCtl .toDevice op dev => .wire .ctlIn [ctlByte op dev]
  | .fCtl .toHost op dev => .wire .ctlOut [ctlByte op dev]
  | .fLpkt (.hostSend k) dev data => .wire .lpktIn (lpktBytes c c.mnSend dev data k)
  | .fLpkt .devStatus dev data => .wire .lpktOut (lpktSent c c.nmStatus dev data)
  | .fLpkt .devSend dev data => .wire .lpktOut (lpktSent c c.nmSend dev data)
  | .fIecd dev data => .wire .iecd (iecdBytes c dev data)
  | .fIecs dev s => .wire .iecs (iecsBytes c dev s)
  | .fSpr s data => .wire .spr (sprBytes c s data)
  | .fStuff .toDevice body => .wire .stuffIn (frameBytes c body)
  | .fStuff .toHost body => .wire .stuffOut (frameBytes c body)
  | .fEnv seq cmd dev fields payload k => .wire .env (envBytes c seq cmd dev fields payload k)
  | .fEnvResp seq cmd dev st data => .wire .envResp (envRespBytes c seq cmd dev st data)

/-! ### The opcode table's words -/

/-- The configuration whose symbol values are the table's. -/
def tableConfig : Config := Config.ofBus .sio

/-- The form under which a byte of the table is read: the rows that fix all eight bits before the nibble-coded rows
(DESIGN CHOICE, log entry 10). -/
def tableByte (b : Byte) : Stimulus :=
  if (sioSymbols tableConfig).contains b then .wire .sym [b]
  else if b = sioCmdRByte ∨ b = sioCmdWByte ∨ b = sioCmdSByte then .wire .cmdByte [b]
  else if (framingBytes tableConfig).contains b then .wire .stuffByte [b]
  else if (deviceCodes tableConfig).contains (hiNibble b) then .wire .ctlDev [b]
  else .wire .ctlHost [b]

/-- The port at which a CS mnemonic, or an FR mnemonic, is at home (R74). -/
def homePort (op : Nat) : UnitPort := if op < 8 then .cs else .fr

/-- The port under which a 12-bit word of the table is read: the two formats share every word, and the word does not say
its port. F-OP, but for `op` 0x6 and 0xB, which F-OP reserves and F-EV assigns (DESIGN CHOICE, log entry 10). -/
def tablePortWord (w : PortWord) : Stimulus :=
  let op := (w.extractLsb' 8 4).toNat
  if op = 0x6 ∨ op = 0xB then .ev w [] else .op (homePort op) w

/-- The input that a word of the table stands for. A format longer than one byte is read with its first byte leftmost,
as the table numbers `F-IECS` and R61 numbers `F-HDR5`. -/
def tableStimulus (nbits w : Nat) : Option Stimulus :=
  if nbits = 8 ∧ w < 2 ^ 8 then some (tableByte (BitVec.ofNat 8 w))
  else if (nbits = 12 ∨ nbits = 16) ∧ w < 2 ^ 12 then some (tablePortWord (BitVec.ofNat 12 w))
  else if nbits = 16 ∧ w < 2 ^ 16 then some (.wire .iecs [BitVec.ofNat 8 (w / 2 ^ 8), BitVec.ofNat 8 w])
  else if nbits = 40 ∧ w < 2 ^ 40 then
    some (.wire .hdr5 [BitVec.ofNat 8 (w / 2 ^ 32), BitVec.ofNat 8 (w / 2 ^ 24), BitVec.ofNat 8 (w / 2 ^ 16),
      BitVec.ofNat 8 (w / 2 ^ 8), BitVec.ofNat 8 w])
  else none

/-- The instruction the decoder reads from a word of the opcode table. -/
def decodeTableWord (nbits w : Nat) : Option Instr :=
  match tableStimulus nbits w with
  | none => none
  | some x =>
    match decode tableConfig x with
    | .ok i => some i
    | .error _ => none

end Sys2Proof
end

