-- ==== Sys2Proof/Machine/State.lean ====
section
/-! DEFINITION. The state of the machine: every register spec/10_state.md gives an engine and its units, the
configuration (R28), the model's own observer fields, the reasons a step stops, and the state after reset (R30, R290). -/

namespace Sys2Proof.Machine

/-- A buffer (R40, R41): (index, byte) pairs, indices strictly rising (`Memory.wf` in Machine/Ops.lean). An index that is
not listed has no value: the spec calls buffer contents unspecified after reset, and a model "must not give the element a
value" (R30; log entry 11). -/
abbrev Memory := List Host.Cell

/-- The CommandFrame register `FRAME` (R22). -/
structure Frame where
  deviceId : Byte
  command : Byte
  aux1 : Byte
  aux2 : Byte
  direction : Direction
  expectedLength : Half
  timeoutMs : Half
  deriving DecidableEq, Repr

/-- The pairs (`ST`, `SUB`) an engine can rest in (R17). The two registers are read off it by `Phase.st` and `Phase.sub`;
a pair that R17 does not list is no value of the type (I7; log entry 13). -/
inductive Phase where
  | idle
  | cmdDetect
  | rxHdr
  | rxLenHi
  | rxLenLo
  | rxPayload
  | rxPcsum
  | rxEnv
  | dispatch
  | waitHostAck
  deriving DecidableEq, Repr

/-- `ERR` (R24). -/
inductive Err where
  | noError
  | csum
  | escape
  | trunc
  | timeout
  | nodev
  | unsup
  | dir
  | len
  | device
  | hostnak
  | overrun
  deriving DecidableEq, Repr

/-- The outputs of an engine (R132). -/
inductive Output where
  | tx (bytes : List Byte)
  | line (l : OutLine) (v : Bool)
  | dispatch (frame : Frame) (fields : List Field) (payload : List Byte)
  | idleTick
  deriving DecidableEq, Repr

/-- What a unit operation returns on its port: `CS_RD` a byte (R96), `CS_CHK` a bit (R97), the encoder a byte list (R111
to R113), the decoder a decoder output (R115 to R118). -/
inductive Returned where
  | byte (b : Byte)
  | bit (v : Bool)
  | bytes (l : List Byte)
  | decoder (o : DecOut)
  deriving DecidableEq, Repr

/-- The registers of an engine (R10). `fr`, `envBuf`, `envCnt`, `fbSeq` and `fbPc` exist on FujiBus only (R20, R23, R110)
and keep their reset values elsewhere; a profile has at most one input and one output line (R25, R26), so one bit holds
each. -/
structure Engine where
  /-- the engine's own checksum unit (R3) -/
  cs : CsUnit
  /-- the engine's own framer unit (R3) -/
  fr : FrUnit
  /-- `ST` and `SUB` (R16, R17) -/
  phase : Phase
  /-- `HDRBUF` (R18) -/
  hdrBuf : Memory
  /-- `HDRCNT` (R18) -/
  hdrCnt : BitVec 3
  /-- `RXBUF` (R19) -/
  rxBuf : Memory
  /-- `RXCNT` (R19) -/
  rxCnt : Half
  /-- `ENVBUF` (R20) -/
  envBuf : Memory
  /-- `ENVCNT` (R20) -/
  envCnt : Half
  /-- `LEN_HI` (R21) -/
  lenHi : Byte
  /-- `PLEN` (R21) -/
  pLen : Half
  /-- `FRAME` (R22) -/
  frame : Frame
  /-- `FB_SEQ` (R23) -/
  fbSeq : Byte
  /-- `FB_PC` (R23) -/
  fbPc : Byte
  /-- `ERR` (R24) -/
  err : Err
  /-- `LINE_PREV` of the profile's input line (R25) -/
  linePrev : Bool
  /-- `LINE_OUT` of the profile's output line (R26) -/
  lineOut : Bool
  deriving DecidableEq, Repr

/-- The state of the machine. -/
structure State where
  /-- the parameters (R7, R28), read-only but for the two tables of R52 -/
  cfg : Config
  /-- the stand-alone checksum unit on the CS port (R74, R292) -/
  cs : CsUnit
  /-- the stand-alone framer unit on the FR port (R74, R292) -/
  fr : FrUnit
  /-- the engine (R10) -/
  eng : Engine
  /-- the model's own field: inputs delivered and not yet taken, next first (log entry 4) -/
  script : List Stimulus
  /-- the model's own field: the output trace (R10, R132), oldest first (log entry 5) -/
  trace : List Output
  /-- the model's own field: what the unit operations returned, oldest first (log entry 5) -/
  returned : List Returned
  /-- the model's own field: how many bytes of the transmit stream (R40, R43) the transport has read (log entry 9) -/
  taken : Nat
  /-- the model's own field: how many free values have been drawn (log entry 17) -/
  draws : Nat
  deriving DecidableEq, Repr

/-- Why the machine stops with a fault. Both are safe, and raised only in states no run from reset reaches. -/
inductive Fault where
  /-- A buffer access at an index the buffer does not have (R40). Raised by the buffer accesses of Machine/Ops.lean. Safe. -/
  | outsideBuffer
  /-- A read of a buffer byte that nothing has written (R30: "no rule reads a buffer element that has not been written").
  Raised by the buffer reads of Machine/Ops.lean. Safe. -/
  | unwrittenByte
  deriving DecidableEq, Repr

/-- Why the machine refuses. All are safe: the run ends. -/
inductive Refusal where
  /-- An instruction without a meaning yet. Raised by no arm of this model. Safe. -/
  | notModelled (mnemonic : String)
  /-- A phase and event for which no rule is given because "No other combination can occur" (R246, R137, I7). Raised by the
  engine rules, only in states no run from reset reaches. Safe. -/
  | noRule
  /-- An input that is no word of its form. Raised by `step`. Safe. -/
  | undecodable (why : Reject)
  /-- A change of the tables (no instruction) that leaves a configuration R294 forbids: "a model should refuse to build it"
  (R294; treatment `refuse` in 93_implementation_defined.md I3). Raised by `step`. Safe. -/
  | invalidConfig
  deriving DecidableEq, Repr

/-- `FRAME` right after reset (R30). -/
def Frame.reset : Frame where
  deviceId := 0
  command := 0
  aux1 := 0
  aux2 := 0
  direction := .noData
  expectedLength := 0
  timeoutMs := 0

/-- The registers of an engine right after reset (R30, R290); the buffers hold no value. -/
def Engine.reset : Engine where
  cs := csReset
  fr := decReset
  phase := .idle
  hdrBuf := []
  hdrCnt := 0
  rxBuf := []
  rxCnt := 0
  envBuf := []
  envCnt := 0
  lenHi := 0
  pLen := 0
  frame := Frame.reset
  fbSeq := 0
  fbPc := 0
  err := .noError
  linePrev := false
  lineOut := false

/-- What reset emits: `Line(l, 0)` for every output line (R290). -/
def resetOutputs (c : Config) : List Output :=
  match outLine c with
  | some l => [.line l false]
  | none => []

/-- The machine right after reset under a configuration (R30, R290, R292, R293). -/
def State.resetOf (c : Config) : State where
  cfg := c
  cs := csReset
  fr := decReset
  eng := Engine.reset
  script := []
  trace := resetOutputs c
  returned := []
  taken := 0
  draws := 0

/-- The machine right after reset. The spec names no bus, no device and no command table for it: the model takes an SIO engine
at the defaults of R7 with no device and no table (DESIGN CHOICE, unsafe: log entry 3). -/
def State.reset : State := State.resetOf (Config.ofBus .sio)

end Sys2Proof.Machine
end

