-- ==== Sys2Proof/Machine/Ops.lean ====
section
/-! DEFINITION. The named operations over buffers and registers that the engine's rules share, among them raising a
failure and returning to `IDLE` (spec/42_engine_common.md R134, spec/60_exceptions.md R266). -/

namespace Sys2Proof.Machine

/-- The outcome of a meaning. -/
abbrev Res := Host.Outcome State Fault Refusal

/-! ### Numeric codes of the registers that hold names -/

/-- The values of `ST` (R16). -/
inductive St where
  | idle | cmdDetect | frameRx | dispatch | respTx
  deriving DecidableEq, Repr

/-- The values of `SUB` (R17). -/
inductive Sub where
  | sNone | sHdr | sLenHi | sLenLo | sPayload | sPcsum | sEnv | sWaitHostAck
  deriving DecidableEq, Repr

/-- `ST` (R17). -/
def Phase.st (p : Phase) : St :=
  match p with
  | .idle => .idle
  | .cmdDetect => .cmdDetect
  | .rxHdr | .rxLenHi | .rxLenLo | .rxPayload | .rxPcsum | .rxEnv => .frameRx
  | .dispatch => .dispatch
  | .waitHostAck => .respTx

/-- `SUB` (R17). -/
def Phase.sub (p : Phase) : Sub :=
  match p with
  | .idle | .cmdDetect | .dispatch => .sNone
  | .rxHdr => .sHdr
  | .rxLenHi => .sLenHi
  | .rxLenLo => .sLenLo
  | .rxPayload => .sPayload
  | .rxPcsum => .sPcsum
  | .rxEnv => .sEnv
  | .waitHostAck => .sWaitHostAck

/-- The code of `ST` (R16). -/
def stCode (v : St) : BitVec 3 :=
  match v with
  | .idle => 0
  | .cmdDetect => 1
  | .frameRx => 2
  | .dispatch => 3
  | .respTx => 4

/-- The code of `SUB` (R17). -/
def subCode (v : Sub) : BitVec 3 :=
  match v with
  | .sNone => 0
  | .sHdr => 1
  | .sLenHi => 2
  | .sLenLo => 3
  | .sPayload => 4
  | .sPcsum => 5
  | .sEnv => 6
  | .sWaitHostAck => 7

/-- The code of `ERR` (R24). -/
def errCode (e : Err) : BitVec 4 :=
  match e with
  | .noError => 0
  | .csum => 1
  | .escape => 2
  | .trunc => 3
  | .timeout => 4
  | .nodev => 5
  | .unsup => 6
  | .dir => 7
  | .len => 8
  | .device => 9
  | .hostnak => 10
  | .overrun => 11

/-- The code of `FRAME.direction` (R22). -/
def directionCode (d : Direction) : BitVec 2 :=
  match d with
  | .noData => 0
  | .read => 1
  | .write => 2

/-- The observable status of an engine (R29): (`ST`, `SUB`, `ERR`, `CS_MATCH`, `LINE_OUT`). -/
def observable (s : State) : BitVec 3 × BitVec 3 × BitVec 4 × Bool × Bool :=
  (stCode s.eng.phase.st, subCode s.eng.phase.sub, errCode s.eng.err, s.eng.cs.matched, s.eng.lineOut)

/-- Whether the phase timer runs, "a function of (`ST`, `SUB`)" that needs no register (R27). -/
def timerRuns (p : Phase) : Bool :=
  match p with
  | .cmdDetect | .rxHdr | .rxLenHi | .rxLenLo | .rxPayload | .rxPcsum | .rxEnv | .waitHostAck => true
  | .idle | .dispatch => false

/-! ### Buffers (R40, R41) -/

/-- Every index of the list is above `lo`, and they rise strictly. -/
def Memory.risingFrom : Nat → Memory → Bool
  | _, [] => true
  | lo, (a, _) :: rest => decide (lo ≤ a) && Memory.risingFrom (a + 1) rest

/-- The canonical form: indices strictly rising. An unlisted index reads as no value, so no entry can equal it. -/
def Memory.wf (m : Memory) : Bool := Memory.risingFrom 0 m

/-- The byte at an index, if one was written. -/
def Memory.read : Memory → Nat → Option Byte
  | [], _ => none
  | (a, b) :: rest, i => if a = i then some b else Memory.read rest i

/-- `BUF[i] <- b`, keeping the canonical form. -/
def Memory.write : Memory → Nat → Byte → Memory
  | [], i, b => [(i, b)]
  | (a, v) :: rest, i, b =>
    if i < a then (i, b) :: (a, v) :: rest
    else if i = a then (i, b) :: rest
    else (a, v) :: Memory.write rest i b

/-- `BUF[i]` of a buffer of `size` bytes. -/
def readByte (size : Nat) (m : Memory) (i : Nat) : Except Fault Byte :=
  if i < size then
    match m.read i with
    | some b => .ok b
    | none => .error .unwrittenByte
  else .error .outsideBuffer

/-- `MemRead(BUF, i, n)` (R8). -/
def readRange (size : Nat) (m : Memory) (i : Nat) : Nat → Except Fault (List Byte)
  | 0 => .ok []
  | n + 1 =>
    match readByte size m i with
    | .error f => .error f
    | .ok b =>
      match readRange size m (i + 1) n with
      | .error f => .error f
      | .ok rest => .ok (b :: rest)

/-- `BUF[i] <- b` of a buffer of `size` bytes. -/
def writeByte (size : Nat) (m : Memory) (i : Nat) (b : Byte) : Except Fault Memory :=
  if i < size then .ok (m.write i b) else .error .outsideBuffer

/-- `MemWrite(BUF, i, n, v)` (R8). -/
def writeRange (size : Nat) (m : Memory) (i : Nat) : List Byte → Except Fault Memory
  | [] => .ok m
  | b :: rest =>
    match writeByte size m i b with
    | .error f => .error f
    | .ok m' => writeRange size m' (i + 1) rest

/-! ### Outputs (R132) -/

/-- The level of the output line after an output (R26). -/
def lineAfter (o : Output) (v : Bool) : Bool :=
  match o with
  | .line _ w => w
  | .tx _ => v
  | .dispatch _ _ _ => v
  | .idleTick => v

/-- `emit o`: append to the output trace; `Line(l, v)` also drives `LINE_OUT[l]` (R26). -/
def emit (o : Output) (s : State) : State :=
  { s with eng := { s.eng with lineOut := lineAfter o s.eng.lineOut }, trace := s.trace ++ [o] }

/-- Emits a list of outputs in order. -/
def emitAll (os : List Output) (s : State) : State := os.foldl (fun t o => emit o t) s

/-- `DRV_EN` at a position of the output trace: 1 exactly while a burst is being sent and 0 otherwise, so 0 past the trace's end,
which is between events. "A function of the output trace and … not a register" (R43); that positions of the trace stand for
times is the model's reading (DEDUCED, log entry 22). -/
def drvEn (outs : List Output) (n : Nat) : Bool :=
  match outs[n]? with
  | some (.tx _) => true
  | some (.line _ _) => false
  | some (.dispatch _ _ _) => false
  | some .idleTick => false
  | none => false

/-- The bytes an output puts on the transmit stream. -/
def txOf (o : Output) : List Byte :=
  match o with
  | .tx bytes => bytes
  | .line _ _ => []
  | .dispatch _ _ _ => []
  | .idleTick => []

/-- The transmit stream: "the engine, one burst per `emit Tx`" writes it (R40, R43). -/
def transmitStream (outs : List Output) : List Byte := outs.flatMap txOf

/-- What the transport has not yet read of the transmit stream (R40). -/
def unread (s : State) : List Byte := (transmitStream s.trace).drop s.taken

/-! ### Phase changes and failures -/

/-- `ST <- …; SUB <- …`. -/
def setPhase (p : Phase) (s : State) : State := { s with eng := { s.eng with phase := p } }

/-- `ERR <- e`. -/
def setErr (e : Err) (s : State) : State := { s with eng := { s.eng with err := e } }

/-- The decoder after the engine's return to `IDLE`: `DEC_RST` on FujiBus (R134). -/
def idleFr (c : Config) (u : FrUnit) : FrUnit := if c.bus = .fujibus then decReset else u

/-- `to_idle()` (R134). There is no other return from a failure (R271). -/
def toIdle (s : State) : State :=
  { s with eng := { s.eng with phase := .idle, fr := idleFr s.cfg s.eng.fr } }

/-- `fail(E)` (R134, R266): raising a failure, the BPE's taking of an exception. What is saved is the code in `ERR`; control
goes to `IDLE`; nothing else changes. The failure's action (a NAK, a response, nothing) is emitted before it. -/
def fail (e : Err) (s : State) : State := toIdle (setErr e s)

/-- A failure with its action: the outputs in order, then `fail(E)` (R266). -/
def failWith (os : List Output) (e : Err) (s : State) : State := fail e (emitAll os s)

/-- `begin_frame()` (R136). -/
def beginFrame (s : State) : State :=
  { s with eng := { s.eng with
      hdrCnt := 0, rxCnt := 0, envCnt := 0, pLen := 0, lenHi := 0, err := .noError,
      cs := csClear s.cfg, phase := .cmdDetect } }

/-- `CS_CLR` on the engine's own unit. -/
def engClear (s : State) : State := { s with eng := { s.eng with cs := csClear s.cfg } }

/-- `CS_ABS b` on the engine's own unit. -/
def engAbsorb (b : Byte) (s : State) : State := { s with eng := { s.eng with cs := csAbsorb s.cfg s.eng.cs b } }

/-- `CS_CHK b` on the engine's own unit. -/
def engCheck (b : Byte) (s : State) : State := { s with eng := { s.eng with cs := csCheck s.cfg s.eng.cs b } }

/-- `FRAME.direction, FRAME.expected_length, FRAME.timeout_ms <- ent` (R140). -/
def loadEntry (e : CmdEntry) (s : State) : State :=
  { s with eng := { s.eng with frame := { s.eng.frame with
      direction := e.direction, expectedLength := e.expectedLength, timeoutMs := e.timeoutMs } } }

/-- `FRAME.device_id, .command, .aux1, .aux2 <- …` (R139). -/
def loadHeader (deviceId command aux1 aux2 : Byte) (s : State) : State :=
  { s with eng := { s.eng with frame := { s.eng.frame with
      deviceId := deviceId, command := command, aux1 := aux1, aux2 := aux2 } } }

/-- `EvReset` (R290). `DEC_ST`, `DEC_ERR`, `DEC_NE` are reset on FujiBus engines only; the buffers hold no value after it. -/
def resetEngine (s : State) : State :=
  { s with eng := { Engine.reset with fr := idleFr s.cfg s.eng.fr }, trace := s.trace ++ resetOutputs s.cfg }

/-- A meaning that continues with another one where it answers a next state. -/
def andThen (r : Res) (f : State → Res) : Res :=
  match r with
  | .next s => f s
  | .fault e => .fault e
  | .refused e => .refused e

end Sys2Proof.Machine
end

