-- ==== Sys2Proof/Machine/UnitOps.lean ====
section
/-! DEFINITION. The meanings of the unit operations, F-OP (spec/30_encoding.md R74): the stand-alone checksum unit on the
CS port and the stand-alone framer unit on the FR port. A mnemonic sent to the port of the other unit, and a reserved code, change
nothing and return nothing (R76; log entries 6, 7). -/

namespace Sys2Proof.Machine

/-- An operation of the unit at port `home`, for a word sent to port `u`: "F-OP with a CS mnemonic sent to an FR port or
the reverse" has no effect (R76). -/
def atPort (u home : UnitPort) (s t : State) : Res := .next (if u = home then t else s)

/-- A unit operation returns a value on its port. -/
def giveBack (r : Returned) (s : State) : State := { s with returned := s.returned ++ [r] }

/-- New registers of the stand-alone checksum unit. -/
def setCs (u : CsUnit) (s : State) : State := { s with cs := u }

/-- New registers of the stand-alone framer unit. -/
def setFr (u : FrUnit) (s : State) : State := { s with fr := u }

/-- `NOP`, at either port (R74). -/
def execNop (_u : UnitPort) (_x : Byte) (s : State) : Res := .next s

/-- `CS_CLR` (R91). -/
def execCsClr (u : UnitPort) (_x : Byte) (s : State) : Res := atPort u .cs s (setCs (csClear s.cfg) s)

/-- `CS_ABS b` (R95). -/
def execCsAbs (u : UnitPort) (b : Byte) (s : State) : Res := atPort u .cs s (setCs (csAbsorb s.cfg s.cs b) s)

/-- `CS_RD` (R96). -/
def execCsRd (u : UnitPort) (_x : Byte) (s : State) : Res := atPort u .cs s (giveBack (.byte (csResult s.cfg s.cs)) s)

/-- `CS_CHK b` (R97): returns the new `CS_MATCH`. -/
def execCsChk (u : UnitPort) (b : Byte) (s : State) : Res :=
  let v := csCheck s.cfg s.cs b
  atPort u .cs s (giveBack (.bit v.matched) (setCs v s))

/-- `ENC_BEGIN` (R111). -/
def execEncBegin (u : UnitPort) (_x : Byte) (s : State) : Res := atPort u .fr s (giveBack (.bytes (encBegin s.cfg)) s)

/-- `ENC_BYTE b` (R112). -/
def execEncByte (u : UnitPort) (b : Byte) (s : State) : Res := atPort u .fr s (giveBack (.bytes (encByte s.cfg b)) s)

/-- `ENC_END` (R113). -/
def execEncEnd (u : UnitPort) (_x : Byte) (s : State) : Res := atPort u .fr s (giveBack (.bytes (encEnd s.cfg)) s)

/-- `DEC_BYTE b` (R115, R116, R117). -/
def execDecByte (u : UnitPort) (b : Byte) (s : State) : Res :=
  let r := decStep s.cfg s.fr b
  atPort u .fr s (giveBack (.decoder r.2) (setFr r.1 s))

/-- `DEC_RST` (R118): returns `Nothing`. -/
def execDecRst (u : UnitPort) (_x : Byte) (s : State) : Res :=
  atPort u .fr s (giveBack (.decoder .nothing) (setFr decReset s))

/-- A reserved F-OP code: no state change, no output (R76). -/
def reservedOp (s : State) : Res := .next s

/-- `op = 0x5` (R76). -/
def execReservedOp5 (_u : UnitPort) (_x : Byte) (s : State) : Res := reservedOp s

/-- `op = 0x6` (R76). -/
def execReservedOp6 (_u : UnitPort) (_x : Byte) (s : State) : Res := reservedOp s

/-- `op = 0x7` (R76). -/
def execReservedOp7 (_u : UnitPort) (_x : Byte) (s : State) : Res := reservedOp s

/-- `op = 0xB` (R76). -/
def execReservedOpB (_u : UnitPort) (_x : Byte) (s : State) : Res := reservedOp s

/-- `op = 0xE` (R76). -/
def execReservedOpE (_u : UnitPort) (_x : Byte) (s : State) : Res := reservedOp s

/-- `op = 0xF` (R76). -/
def execReservedOpF (_u : UnitPort) (_x : Byte) (s : State) : Res := reservedOp s

end Sys2Proof.Machine
end

