-- ==== Sys2Proof/Machine/Responses.lean ====
section
/-! DEFINITION. The five profile functions of spec/42_engine_common.md R134 for each bus (R171, R192, R211, R227, R245,
R250). They emit outputs and write no register. -/

namespace Sys2Proof.Machine

/-- The acknowledgement pulse: `Line(ACKL, 1)`, `Line(ACKL, 0)` (R192, R211). -/
def ackPulse : List Output := [.line .ackl true, .line .ackl false]

/-- `dev = FRAME.device_id[3:0]` (R192, R227). -/
def frameDev (e : Engine) : Nibble := loNibble e.frame.deviceId

/-- `fb_respond(st, d)` (R250). -/
def fbRespond (c : Config) (e : Engine) (st : Field) (data : List Byte) : List Output :=
  [.tx (frameBytes c (envRespBytes c e.fbSeq e.frame.command e.frame.deviceId st data))]

/-- `emit_cmd_ack()`. -/
def cmdAck (c : Config) : List Output :=
  match c.bus with
  | .sio => [.tx [c.sioAck]]
  | .iec => ackPulse
  | .smartport => ackPulse
  | .adamnet => []
  | .fujibus => []

/-- `emit_payload_ack()`. -/
def payloadAck (c : Config) : List Output :=
  match c.bus with
  | .sio => [.tx [c.sioAck]]
  | .iec => ackPulse
  | .smartport => ackPulse
  | .adamnet => []
  | .fujibus => []

/-- `emit_nak()`. -/
def nak (c : Config) (e : Engine) : List Output :=
  match c.bus with
  | .sio => [.tx [c.sioNak]]
  | .iec => []
  | .smartport => []
  | .adamnet => [.tx [ctlByte c.nmNack (frameDev e)]]
  | .fujibus => []

/-- `emit_unsupported()`. -/
def unsupported (c : Config) (e : Engine) : List Output :=
  match c.bus with
  | .sio => [.tx [c.sioNak]]
  | .iec => []
  | .smartport => ackPulse ++ [.tx (sprBytes c c.spStBadcmd [])]
  | .adamnet => [.tx [ctlByte c.nmNack (frameDev e)]]
  | .fujibus => fbRespond c e c.fbStUnsupported []

/-- `emit_response` on SIO (R171). -/
def sioResponse (c : Config) (status : Byte) (data : List Byte) (needData lenOk : Bool) : List Output :=
  let sym := if status = 0x00 then c.sioComplete else c.sioError
  if needData = false then [.tx [sym]]
  else if lenOk then [.tx ([sym] ++ data ++ [checksum c data])]
  else [.tx [c.sioError]]

/-- `emit_response` on IEC (R192). -/
def iecResponse (c : Config) (e : Engine) (status : Byte) (data : List Byte) (needData lenOk : Bool) : List Output :=
  if needData ∧ lenOk ∧ status = 0x00 then [.tx (iecdBytes c (frameDev e) data)]
  else
    let s := if status ≠ 0x00 then status else if needData ∧ lenOk = false then c.stInternal else 0x00
    [.tx (iecsBytes c (frameDev e) s)]

/-- `emit_response` on SmartPort (R211). -/
def smartportResponse (c : Config) (status : Byte) (data : List Byte) (needData lenOk : Bool) : List Output :=
  if status = 0x00 ∧ (needData = false ∨ lenOk) then [.tx (sprBytes c 0x00 (if needData then data else []))]
  else [.tx (sprBytes c (if status ≠ 0x00 then status else c.stInternal) [])]

/-- `emit_response` on AdamNet, with whether the engine then waits for the host's acknowledgement (R227). -/
def adamnetResponse (c : Config) (e : Engine) (status : Byte) (data : List Byte) (needData lenOk : Bool) :
    List Output × Bool :=
  if needData = false then
    ([.tx [ctlByte (if status = 0x00 then c.nmAck else c.nmNack) (frameDev e)]], false)
  else if lenOk ∧ status = 0x00 then
    let nib := if e.frame.command = c.mnStatus.zeroExtend 8 then c.nmStatus else c.nmSend
    ([.tx (lpktSent c nib (frameDev e) data)], nib == c.nmSend)
  else ([.tx [ctlByte c.nmNack (frameDev e)]], false)

/-- `emit_response` on FujiBus (R250). -/
def fujibusResponse (c : Config) (e : Engine) (status : Byte) (data : List Byte) (needData lenOk : Bool) :
    List Output :=
  if status ≠ 0x00 then fbRespond c e (status.zeroExtend 32) []
  else if needData ∧ lenOk = false then fbRespond c e (c.stInternal.zeroExtend 32) []
  else if needData then fbRespond c e 0 data
  else fbRespond c e 0 []

/-- `emit_response(status, data, need_data, len_ok)` with the Boolean it returns (R134). -/
def response (c : Config) (e : Engine) (status : Byte) (data : List Byte) (needData lenOk : Bool) :
    List Output × Bool :=
  match c.bus with
  | .sio => (sioResponse c status data needData lenOk, false)
  | .iec => (iecResponse c e status data needData lenOk, false)
  | .smartport => (smartportResponse c status data needData lenOk, false)
  | .adamnet => adamnetResponse c e status data needData lenOk
  | .fujibus => (fujibusResponse c e status data needData lenOk, false)

end Sys2Proof.Machine
end

