-- ==== Sys2Proof/Machine/Receive.lean ====
section
/-! DEFINITION. Header, payload and dispatch: the rules common to every bus (spec/42_engine_common.md R139 to R150). -/

namespace Sys2Proof.Machine

/-- `do_dispatch()` (R146): the dispatcher is called with a copy of `FRAME`, the field list and `RXBUF[0..RXCNT-1]`. -/
def doDispatch (fields : List Field) (s : State) : Res :=
  match readRange (rxMax s.cfg) s.eng.rxBuf 0 s.eng.rxCnt.toNat with
  | .error f => .fault f
  | .ok payload => .next (emit (.dispatch s.eng.frame fields payload) (setPhase .dispatch s))

/-- `ST <- FRAME_RX ; CS_CLR ; SUB <- S_LEN_HI` (R141). -/
def awaitPrefix (s : State) : State := setPhase .rxLenHi (engClear s)

/-- `CS_CLR ; PLEN <- n ; SUB <- S_PAYLOAD` (R141). -/
def awaitPayload (n : Half) (s : State) : State :=
  let t := engClear s
  setPhase .rxPayload { t with eng := { t.eng with pLen := n } }

/-- `route()` (R141). -/
def route (s : State) : Res :=
  let t := emitAll (cmdAck s.cfg) s
  if s.eng.frame.direction = .write ∧ lenMode s.cfg = .prefixed then .next (awaitPrefix t)
  else if s.eng.frame.direction = .write ∧ 0 < s.eng.frame.expectedLength.toNat then
    .next (awaitPayload s.eng.frame.expectedLength t)
  else doDispatch [] t

/-- Step (1) of R140 and R248: the failure of an absent device, silent on every bus. -/
def presenceFailure (s : State) : Option (List Output × Err) :=
  if slotPresent s.cfg s.eng.frame.deviceId then none else some ([], .nodev)

/-- Step (2) of R140 and R248: the failure of a checksum, with the bus's NAK. -/
def csumFailure (bad : Bool) (nakOut : List Output) : Option (List Output × Err) :=
  if bad then some (nakOut, .csum) else none

/-- Steps (1) and (2) in the order `CHECK_ORDER` says: the first that fails (R140, R270). -/
def firstFailure (bad : Bool) (nakOut : List Output) (s : State) : Option (List Output × Err) :=
  match s.cfg.checkOrder with
  | .devFirst => (presenceFailure s).or (csumFailure bad nakOut)
  | .csumFirst => (csumFailure bad nakOut).or (presenceFailure s)

/-- Steps (3) to (5) of R140 for a command with a table entry: load it, check a table length (R142), route. -/
def acceptEntry (ent : CmdEntry) (s : State) : Res :=
  let t := loadEntry ent s
  if lenMode s.cfg = .table ∧ rxMax s.cfg < ent.expectedLength.toNat then .next (failWith (nak t.cfg t.eng) .len t)
  else route t

/-- `header_complete(has_cs)` (R140). -/
def headerComplete (hasCs : Bool) (s : State) : Res :=
  match firstFailure (hasCs && !s.eng.cs.matched) (nak s.cfg s.eng) s with
  | some (os, e) => .next (failWith os e s)
  | none =>
    match cmdEntry s.cfg s.eng.frame.command with
    | none => .next (failWith (unsupported s.cfg s.eng) .unsup s)
    | some ent => acceptEntry ent s

/-- The fifth header byte (R139): compared, not summed, and the header parsed out of `HDRBUF`. -/
def finishFiveByte (b : Byte) (s : State) : Res :=
  let t := engCheck b s
  match readRange hdrMax t.eng.hdrBuf 0 4 with
  | .ok [d, cmd, a1, a2] => headerComplete true (loadHeader d cmd a1 a2 t)
  | .ok _ => .refused .noRule
  | .error f => .fault f

/-- `HDRBUF[HDRCNT] <- b ; HDRCNT <- HDRCNT + 1` (R139). -/
def storeHeader (m : Memory) (s : State) : State :=
  { s with eng := { s.eng with hdrBuf := m, hdrCnt := s.eng.hdrCnt + 1 } }

/-- `header_byte(b)` (R139). -/
def headerByte (b : Byte) (s : State) : Res :=
  match writeByte hdrMax s.eng.hdrBuf s.eng.hdrCnt.toNat b with
  | .error f => .fault f
  | .ok m =>
    let t := storeHeader m s
    match hdrShape s.cfg with
    | .fiveByte => if t.eng.hdrCnt.toNat ≤ 4 then .next (engAbsorb b t) else finishFiveByte b t
    | .controlByte => headerComplete false (loadHeader ((loNibble b).zeroExtend 8) ((hiNibble b).zeroExtend 8) 0 0 t)
    | .envelope => .refused .noRule

/-- `ST <- FRAME_RX ; SUB <- S_HDR ; header_byte(b)` (R135, R137). -/
def firstHeaderByte (b : Byte) (s : State) : Res := headerByte b (setPhase .rxHdr s)

/-- The high byte of a length prefix (R143). -/
def lenHiByte (b : Byte) (s : State) : State := setPhase .rxLenLo { s with eng := { s.eng with lenHi := b } }

/-- The low byte of a length prefix (R143). -/
def lenLoByte (b : Byte) (s : State) : State :=
  let n := join16 s.cfg.lenPrefixOrder s.eng.lenHi b
  if payloadCeiling s.cfg s.eng.frame.expectedLength < n.toNat then failWith (nak s.cfg s.eng) .len s
  else setPhase (if 0 < n.toNat then .rxPayload else .rxPcsum) { s with eng := { s.eng with pLen := n } }

/-- `RXBUF[RXCNT] <- b ; RXCNT <- RXCNT + 1` (R144). -/
def storePayload (m : Memory) (s : State) : State :=
  { s with eng := { s.eng with rxBuf := m, rxCnt := s.eng.rxCnt + 1 } }

/-- A payload byte (R144). -/
def payloadByte (b : Byte) (s : State) : Res :=
  match writeByte (rxMax s.cfg) s.eng.rxBuf s.eng.rxCnt.toNat b with
  | .error f => .fault f
  | .ok m =>
    let t := engAbsorb b (storePayload m s)
    .next (if t.eng.rxCnt = t.eng.pLen then setPhase .rxPcsum t else t)

/-- The payload checksum (R145). -/
def payloadChecksum (b : Byte) (s : State) : Res :=
  let t := engCheck b s
  if t.eng.cs.matched then doDispatch [] (emitAll (payloadAck s.cfg) t)
  else .next (failWith (nak s.cfg s.eng) .csum t)

/-- A byte while the host's acknowledgement is awaited (R150). -/
def hostAckByte (b : Byte) (s : State) : State :=
  if b = ctlByte s.cfg.mnAck (frameDev s.eng) then toIdle s
  else if b = ctlByte s.cfg.mnNack (frameDev s.eng) then fail .hostnak s
  else s

/-- `need_data` (R149). -/
def needData (e : Engine) : Bool := e.frame.direction = .read ∧ 0 < e.frame.expectedLength.toNat

/-- `len_ok` (R149). -/
def lenOk (c : Config) (e : Engine) (data : List Byte) : Bool :=
  if needData e = false then true
  else if lenMode c = .table then decide (data.length = e.frame.expectedLength.toNat)
  else decide (data.length ≤ payloadCeiling c e.frame.expectedLength)

/-- `EvDispatch(Done(status, data))` in `DISPATCH` (R149): `ST <- RESP_TX` is passed through inside the step (R17). -/
def sendResponse (status : Byte) (data : List Byte) (s : State) : State :=
  let ok := lenOk s.cfg s.eng data
  let r := response s.cfg s.eng status data (needData s.eng) ok
  let t := emitAll r.1 s
  let u := if status ≠ 0x00 ∨ ok = false then setErr .device t else t
  if r.2 then setPhase .waitHostAck u else toIdle u

end Sys2Proof.Machine
end

