-- ==== Sys2Proof/Machine/FujiBus.lean ====
section
/-! DEFINITION. Receiving a FujiBus envelope (spec/47_fujibus.md R246 to R249). -/

namespace Sys2Proof.Machine

/-- `DEC_BYTE b` on the engine's own framer unit. -/
def engDecode (b : Byte) (s : State) : State × DecOut :=
  ({ s with eng := { s.eng with fr := (decStep s.cfg s.eng.fr b).1 } }, (decStep s.cfg s.eng.fr b).2)

/-- `ENVCNT` is at the largest value its 16 bits hold (R20). -/
def envCntFull (s : State) : Bool := s.eng.envCnt == 0xFFFF

/-- `ENVCNT + 1` (R247). Where `ENV_MAX` is above 65535 the sum can fall outside the 16 bits of R20: a free value (log
entry 17). -/
def envCntNext (s : State) : Half :=
  if envCntFull s then Config.envCntPastEnd s.draws else s.eng.envCnt + 1

/-- `ENVBUF[ENVCNT] <- d ; ENVCNT <- ENVCNT + 1` (R247). -/
def storeEnvelope (m : Memory) (s : State) : State :=
  { s with
    draws := if envCntFull s then s.draws + 1 else s.draws
    eng := { s.eng with envBuf := m, envCnt := envCntNext s } }

/-- `env_store(d)` (R247). -/
def envStore (d : Byte) (s : State) : Res :=
  if s.eng.envCnt.toNat = envMax s.cfg then .next (fail .overrun s)
  else
    match writeByte (envMax s.cfg) s.eng.envBuf s.eng.envCnt.toNat d with
    | .error f => .fault f
    | .ok m => .next (storeEnvelope m s)

/-- `CS_CLR ; CS_ABS` of the body `; CS_CHK k` and the four header registers of R248. -/
def loadEnvelope (seq command pc deviceId : Byte) (body : List Byte) (k : Byte) (s : State) : State :=
  { s with eng := { s.eng with
      cs := csCheck s.cfg (csAbsorbAll s.cfg (csClear s.cfg) body) k,
      fbSeq := seq, fbPc := pc,
      frame := { s.eng.frame with command := command, deviceId := deviceId } } }

/-- `FRAME.aux1 <- field[0][7:0] ; FRAME.aux2 <- field[1][7:0]` (R248). -/
def loadAux (fields : List Field) (s : State) : State :=
  { s with eng := { s.eng with frame := { s.eng.frame with
      aux1 := fieldLow fields 0, aux2 := fieldLow fields 1 } } }

/-- R249: the payload moved to `RXBUF`, then `do_dispatch()`. -/
def splitDispatch (fields : List Field) (payload : List Byte) (s : State) : Res :=
  match writeRange (rxMax s.cfg) s.eng.rxBuf 0 payload with
  | .error f => .fault f
  | .ok m =>
    doDispatch fields
      { s with eng := { s.eng with rxBuf := m, rxCnt := BitVec.ofNat 16 payload.length } }

/-- Steps (4) to (7) of R248. -/
def envelopeRoute (fields : List Field) (payload : List Byte) (s : State) : Res :=
  match cmdEntry s.cfg s.eng.frame.command with
  | none => .next (failWith (unsupported s.cfg s.eng) .unsup s)
  | some ent =>
    let t := loadEntry ent s
    if ent.direction ≠ .write ∧ payload ≠ [] then .next (failWith (fbRespond t.cfg t.eng t.cfg.fbStInvalid []) .dir t)
    else if payloadCeiling t.cfg ent.expectedLength < payload.length then .next (fail .len t)
    else splitDispatch fields payload t

/-- Steps (1) to (7) of R248, after the checksum and the header registers: `rest` is the envelope from offset 4 to its
end without the checksum byte, `pc` the parameter count. -/
def envelopeChecks (pc : Nat) (rest : List Byte) (s : State) : Res :=
  match firstFailure (!s.eng.cs.matched) [] s with
  | some (os, e) => .next (failWith os e s)
  | none =>
    if rest.length < 4 * pc then .next (fail .trunc s)
    else
      let fields := takeFields s.cfg.fbFieldOrder pc rest
      envelopeRoute fields (rest.drop (4 * pc)) (loadAux fields s)

/-- `envelope_complete()` on the bytes `ENVBUF[0..ENVCNT-1]` (R248): fewer than five are a truncated envelope. -/
def parseEnvelope (bytes : List Byte) (s : State) : Res :=
  match bytes with
  | seq :: command :: pc :: deviceId :: b4 :: more =>
    let rest := (b4 :: more).dropLast
    let k := (b4 :: more).getLast (List.cons_ne_nil b4 more)
    envelopeChecks pc.toNat rest
      (loadEnvelope seq command pc deviceId ([seq, command, pc, deviceId] ++ rest) k s)
  | _ => .next (fail .trunc s)

/-- `envelope_complete()` (R248). -/
def envelopeComplete (s : State) : Res :=
  match readRange (envMax s.cfg) s.eng.envBuf 0 s.eng.envCnt.toNat with
  | .error f => .fault f
  | .ok bytes => parseEnvelope bytes s

/-- `EvRx(b)` in `IDLE` on FujiBus (R246). -/
def fujiIdleByte (b : Byte) (s : State) : Res :=
  let r := engDecode b s
  match r.2 with
  | .frameStart => .next (beginFrame r.1)
  | .nothing => .next r.1
  | .data _ => .refused .noRule
  | .frameEnd _ => .refused .noRule

/-- `EvRx(b)` in `CMD_DETECT` on FujiBus (R246). -/
def fujiDetectByte (b : Byte) (s : State) : Res :=
  let r := engDecode b s
  match r.2 with
  | .nothing => .next r.1
  | .data d => envStore d (setPhase .rxEnv r.1)
  | .frameEnd ok => if ok then .refused .noRule else .next (fail .escape r.1)
  | .frameStart => .refused .noRule

/-- `EvRx(b)` in `FRAME_RX/S_ENV` (R247). -/
def envelopeByte (b : Byte) (s : State) : Res :=
  let r := engDecode b s
  match r.2 with
  | .nothing => .next r.1
  | .data d => envStore d r.1
  | .frameEnd ok => if ok then envelopeComplete r.1 else .next (fail .escape r.1)
  | .frameStart => .refused .noRule

end Sys2Proof.Machine
end

