-- ==== Sys2Proof/Machine/Events.lean ====
section
/-! DEFINITION. The meanings of the engine events, F-EV (spec/30_encoding.md R75): which rule applies by phase is the
table of spec/42_engine_common.md R156. -/

namespace Sys2Proof.Machine

/-- `EvRx(b)` in `IDLE` (R135). -/
def idleByte (b : Byte) (s : State) : Res :=
  match detect s.cfg with
  | .line => .next s
  | .controlByte => if hiNibble b ∈ detectOps s.cfg then firstHeaderByte b (beginFrame s) else .next s
  | .delimiter => fujiIdleByte b s

/-- `EvRx(b)` in `CMD_DETECT` (R137): "a `CONTROL_BYTE` engine never rests in `CMD_DETECT`". -/
def detectByte (b : Byte) (s : State) : Res :=
  match detect s.cfg with
  | .line => firstHeaderByte b s
  | .controlByte => .refused .noRule
  | .delimiter => fujiDetectByte b s

/-- `EvRx(b)` by phase (R156). -/
def rxByte (b : Byte) (s : State) : Res :=
  match s.eng.phase with
  | .idle => idleByte b s
  | .cmdDetect => detectByte b s
  | .rxHdr => headerByte b s
  | .rxLenHi => .next (lenHiByte b s)
  | .rxLenLo => .next (lenLoByte b s)
  | .rxPayload => payloadByte b s
  | .rxPcsum => payloadChecksum b s
  | .rxEnv => envelopeByte b s
  | .dispatch => .next s
  | .waitHostAck => .next (hostAckByte b s)

/-- `EvRx` of each byte of a list in order (R42). -/
def rxBytes : List Byte → State → Res
  | [], s => .next s
  | b :: rest, s => andThen (rxByte b s) (rxBytes rest)

/-- `LINE_PREV[l] <- v` (R152). -/
def setLinePrev (v : Bool) (s : State) : State := { s with eng := { s.eng with linePrev := v } }

/-- `EvLine(l, v)` for the profile's input line (R152). -/
def lineEvent (v : Bool) (s : State) : State :=
  let t := setLinePrev v s
  if detect s.cfg = .line then
    if s.eng.phase = .idle ∧ s.eng.linePrev = false ∧ v = true then beginFrame t
    else if v = false ∧ (s.eng.phase = .cmdDetect ∨ s.eng.phase = .rxHdr) then fail .trunc t
    else t
  else t

/-- `EvTimeout` by phase (R151, R150). -/
def timeoutEvent (s : State) : State := if timerRuns s.eng.phase then fail .timeout s else s

/-- `EV_NONE`: no event, no state change (R75). -/
def execEvNone (_x : BitVec 9) (s : State) : Res := .next s

/-- `EV_RESET` (R153, R290). -/
def execEvReset (_x : BitVec 9) (s : State) : Res := .next (resetEngine s)

/-- `EV_LINE` (R152): line index 0 is the profile's input line; any other, or a profile without one, is ignored (R76). -/
def execEvLine (v : Bool) (_x l : Nibble) (s : State) : Res :=
  .next (if l = 0 ∧ (inLine s.cfg).isSome then lineEvent v s else s)

/-- `EV_RX` (R156); bit 8 of the word is ignored (R75). -/
def execEvRx (_x : Bool) (b : Byte) (s : State) : Res := rxByte b s

/-- `EV_TIMEOUT` (R151). -/
def execEvTimeout (_x : BitVec 9) (s : State) : Res := .next (timeoutEvent s)

/-- `EV_DISPATCH` with `Done(status, data)` (R149); ignored outside `DISPATCH` (R155). -/
def execEvDispatchDone (status : Byte) (data : List Byte) (s : State) : Res :=
  .next (if s.eng.phase = .dispatch then sendResponse status data s else s)

/-- `EV_DISPATCH` with `NoDevice` (R148); ignored outside `DISPATCH` (R155). -/
def execEvDispatchNodevice (_x : Byte) (s : State) : Res :=
  .next (if s.eng.phase = .dispatch then fail .nodev s else s)

/-- `EV_POLL` (R154). -/
def execEvPoll (_x : BitVec 9) (s : State) : Res :=
  .next (if s.eng.phase = .idle then emit .idleTick s else s)

/-- The reserved event code: no state change, no output (R76; log entry 6). -/
def execReservedEv7 (_x : BitVec 9) (s : State) : Res := .next s

end Sys2Proof.Machine
end

