-- ==== Sys2Proof/Machine/Wire.lean ====
section
/-! DEFINITION. The meanings of the wire symbols and wire formats (spec/30_encoding.md R61 to R72). What the host sends
arrives byte by byte, one `EvRx` each in order (R42; log entry 8). What the engine sends is written to the transmit stream by the
rules of Responses.lean and nothing else (R40: "the engine, one burst per `emit Tx`"; R301: "only in answer to the host"); a row
of such a form is the transport's reading of it off that stream (R40; log entry 9). -/

namespace Sys2Proof.Machine

/-- The transport reads a form that the listed buses have off the transmit stream (R40). Where the stream goes on otherwise, the
engine has not sent the form and nothing is read: no row makes the engine send (R301). -/
def takeOff (buses : List Bus) (bytes : List Byte) (s : State) : Res :=
  .next (if s.cfg.bus ∈ buses ∧ bytes <+: unread s then { s with taken := s.taken + bytes.length } else s)

/-- The buses of the control-byte profiles (R65, R66). -/
def ctlBuses : List Bus := [.iec, .adamnet]

/-- The control byte of a host code arrives (R65). -/
def rxCtl (code dev : Nibble) (s : State) : Res := rxByte (ctlByte code dev) s

/-- The control byte of a device code is read (R65). -/
def takeCtl (code dev : Nibble) (s : State) : Res := takeOff ctlBuses [ctlByte code dev] s

/-! ### SIO symbols and command bytes (R63, R64) -/

/-- `SIO_ACK` (R63) is read; `cmdAck` and `payloadAck` send it (R171). -/
def execSioAck (s : State) : Res := takeOff [.sio] [s.cfg.sioAck] s

/-- `SIO_NAK` (R63) is read; `nak` and `unsupported` send it (R171). -/
def execSioNak (s : State) : Res := takeOff [.sio] [s.cfg.sioNak] s

/-- `SIO_COMPLETE` (R63) is read; `sioResponse` sends it (R171). -/
def execSioComplete (s : State) : Res := takeOff [.sio] [s.cfg.sioComplete] s

/-- `SIO_ERROR` (R63) is read; `sioResponse` sends it (R171). -/
def execSioError (s : State) : Res := takeOff [.sio] [s.cfg.sioError] s

/-- The command byte 'R' arrives (R64). -/
def execSioCmdR (s : State) : Res := rxByte sioCmdRByte s

/-- The command byte 'W' arrives (R64). -/
def execSioCmdW (s : State) : Res := rxByte sioCmdWByte s

/-- The command byte 'S' arrives (R64). -/
def execSioCmdS (s : State) : Res := rxByte sioCmdSByte s

/-! ### Control-byte codes (R66) -/

/-- `MN_RESET` (R66, R76). -/
def execMnReset (dev : Nibble) (s : State) : Res := rxCtl s.cfg.mnReset dev s

/-- `MN_STATUS` (R66). -/
def execMnStatus (dev : Nibble) (s : State) : Res := rxCtl s.cfg.mnStatus dev s

/-- `MN_ACK` (R66, R150). -/
def execMnAck (dev : Nibble) (s : State) : Res := rxCtl s.cfg.mnAck dev s

/-- `MN_CLR` (R66). -/
def execMnClr (dev : Nibble) (s : State) : Res := rxCtl s.cfg.mnClr dev s

/-- `MN_RECEIVE` (R66). -/
def execMnReceive (dev : Nibble) (s : State) : Res := rxCtl s.cfg.mnReceive dev s

/-- `MN_CANCEL` (R66, R76). -/
def execMnCancel (dev : Nibble) (s : State) : Res := rxCtl s.cfg.mnCancel dev s

/-- `MN_SEND` (R66). -/
def execMnSend (dev : Nibble) (s : State) : Res := rxCtl s.cfg.mnSend dev s

/-- `MN_NACK` (R66, R150). -/
def execMnNack (dev : Nibble) (s : State) : Res := rxCtl s.cfg.mnNack dev s

/-- `MN_READY` (R66). -/
def execMnReady (dev : Nibble) (s : State) : Res := rxCtl s.cfg.mnReady dev s

/-- `NM_STATUS` (R66) is read; it heads `iecsBytes` and `lpktSent` (R192, R227). -/
def execNmStatus (dev : Nibble) (s : State) : Res := takeCtl s.cfg.nmStatus dev s

/-- `NM_ACK` (R66) is read; `adamnetResponse` sends it (R227). -/
def execNmAck (dev : Nibble) (s : State) : Res := takeCtl s.cfg.nmAck dev s

/-- `NM_CANCEL`: "never sent" (R66), so there is nothing to read and nothing changes (log entry 9). -/
def execNmCancel (_dev : Nibble) (s : State) : Res := .next s

/-- `NM_SEND` (R66) is read; it heads `iecdBytes` and `lpktSent` (R192, R227). -/
def execNmSend (dev : Nibble) (s : State) : Res := takeCtl s.cfg.nmSend dev s

/-- `NM_NACK` (R66) is read; `nak`, `unsupported` and `adamnetResponse` send it (R227). -/
def execNmNack (dev : Nibble) (s : State) : Res := takeCtl s.cfg.nmNack dev s

/-- The unassigned code 0xE arrives (R66, R76). -/
def execCtlUnassignedE (dev : Nibble) (s : State) : Res := rxCtl 0xE dev s

/-- The unassigned code 0xF arrives (R66, R76). -/
def execCtlUnassignedF (dev : Nibble) (s : State) : Res := rxCtl 0xF dev s

/-! ### Framing bytes (R70) -/

/-- `FB_END` arrives (R70). -/
def execFbEnd (s : State) : Res := rxByte s.cfg.fbEnd s

/-- `FB_ESC` arrives (R70). -/
def execFbEsc (s : State) : Res := rxByte s.cfg.fbEsc s

/-- `FB_ESC_END` arrives (R70). -/
def execFbEscEnd (s : State) : Res := rxByte s.cfg.fbEscEnd s

/-- `FB_ESC_ESC` arrives (R70). -/
def execFbEscEsc (s : State) : Res := rxByte s.cfg.fbEscEsc s

/-! ### Formats -/

/-- `F-HDR5` arrives (R61). -/
def execFHdr5 (deviceId command aux1 aux2 k : Byte) (s : State) : Res :=
  rxBytes (hdr5Bytes deviceId command aux1 aux2 k) s

/-- `F-DATA` (R62): an inbound payload arrives, or SIO's outbound read data (R60, R171) are read. "With `n = 0` there is no data
block at all". -/
def execFData (w : DataWay) (data : List Byte) (s : State) : Res :=
  if data = [] then .next s
  else
    match w with
    | .received k => rxBytes (data ++ [k]) s
    | .sent => takeOff [.sio] (dataBlock s.cfg data) s

/-- `F-CTL` (R65): a control byte arrives, or one with a code the engine sends (R66) is read; with any other code there is none. -/
def execFCtl (w : Way) (op dev : Nibble) (s : State) : Res :=
  match w with
  | .toDevice => rxCtl op dev s
  | .toHost => if op ∈ sentCodes s.cfg then takeCtl op dev s else .next s

/-- `F-LPKT` (R67) arrives, or is read; `adamnetResponse` sends it (R227). -/
def execFLpkt (h : LpktHead) (dev : Nibble) (data : List Byte) (s : State) : Res :=
  match h with
  | .hostSend k => rxBytes (lpktBytes s.cfg s.cfg.mnSend dev data k) s
  | .devStatus => takeOff [.adamnet] (lpktSent s.cfg s.cfg.nmStatus dev data) s
  | .devSend => takeOff [.adamnet] (lpktSent s.cfg s.cfg.nmSend dev data) s

/-- `F-IECD` (R68) is read; `iecResponse` sends it (R192). -/
def execFIecd (dev : Nibble) (data : List Byte) (s : State) : Res := takeOff [.iec] (iecdBytes s.cfg dev data) s

/-- `F-IECS` (R68) is read; `iecResponse` sends it (R192). -/
def execFIecs (dev : Nibble) (status : Byte) (s : State) : Res := takeOff [.iec] (iecsBytes s.cfg dev status) s

/-- `F-SPR` (R69) is read; `smartportResponse` and `unsupported` send it (R211). -/
def execFSpr (status : Byte) (data : List Byte) (s : State) : Res := takeOff [.smartport] (sprBytes s.cfg status data) s

/-- `F-STUFF` (R70) arrives, or is read; `fbRespond` sends it (R250). -/
def execFStuff (w : Way) (body : List Byte) (s : State) : Res :=
  match w with
  | .toDevice => rxBytes (frameBytes s.cfg body) s
  | .toHost => takeOff [.fujibus] (frameBytes s.cfg body) s

/-- `F-ENV` arrives inside `F-STUFF` (R60, R71). -/
def execFEnv (seq command deviceId : Byte) (fields : List Field) (payload : List Byte) (k : Byte) (s : State) : Res :=
  rxBytes (frameBytes s.cfg (envBytes s.cfg seq command deviceId fields payload k)) s

/-- `F-ENV-RESP`, "sent as an `F-STUFF` frame" (R72), is read; `fbRespond` sends it (R250). -/
def execFEnvResp (seq command deviceId : Byte) (status : Field) (data : List Byte) (s : State) : Res :=
  takeOff [.fujibus] (frameBytes s.cfg (envRespBytes s.cfg seq command deviceId status data)) s

end Sys2Proof.Machine
end

