-- ==== Sys2Proof/Machine/Dispatch.lean ====
section
/-! DEFINITION. The dispatch of the instructions to their meanings: one arm per row of spec/opcode_table.json. -/

namespace Sys2Proof.Machine

def exec (i : Instr) (s : State) : Host.Outcome State Fault Refusal :=
  match i with
  | .nop u x => Sys2Proof.Machine.execNop u x s
  | .csClr u x => Sys2Proof.Machine.execCsClr u x s
  | .csAbs u b => Sys2Proof.Machine.execCsAbs u b s
  | .csRd u x => Sys2Proof.Machine.execCsRd u x s
  | .csChk u b => Sys2Proof.Machine.execCsChk u b s
  | .encBegin u x => Sys2Proof.Machine.execEncBegin u x s
  | .encByte u b => Sys2Proof.Machine.execEncByte u b s
  | .encEnd u x => Sys2Proof.Machine.execEncEnd u x s
  | .decByte u b => Sys2Proof.Machine.execDecByte u b s
  | .decRst u x => Sys2Proof.Machine.execDecRst u x s
  | .reservedOp5 u x => Sys2Proof.Machine.execReservedOp5 u x s
  | .reservedOp6 u x => Sys2Proof.Machine.execReservedOp6 u x s
  | .reservedOp7 u x => Sys2Proof.Machine.execReservedOp7 u x s
  | .reservedOpB u x => Sys2Proof.Machine.execReservedOpB u x s
  | .reservedOpE u x => Sys2Proof.Machine.execReservedOpE u x s
  | .reservedOpF u x => Sys2Proof.Machine.execReservedOpF u x s
  | .evNone x => Sys2Proof.Machine.execEvNone x s
  | .evReset x => Sys2Proof.Machine.execEvReset x s
  | .evLine v x l => Sys2Proof.Machine.execEvLine v x l s
  | .evRx x b => Sys2Proof.Machine.execEvRx x b s
  | .evTimeout x => Sys2Proof.Machine.execEvTimeout x s
  | .evDispatchDone status data => Sys2Proof.Machine.execEvDispatchDone status data s
  | .evDispatchNodevice x => Sys2Proof.Machine.execEvDispatchNodevice x s
  | .evPoll x => Sys2Proof.Machine.execEvPoll x s
  | .reservedEv7 x => Sys2Proof.Machine.execReservedEv7 x s
  | .sioAck => Sys2Proof.Machine.execSioAck s
  | .sioNak => Sys2Proof.Machine.execSioNak s
  | .sioComplete => Sys2Proof.Machine.execSioComplete s
  | .sioError => Sys2Proof.Machine.execSioError s
  | .sioCmdR => Sys2Proof.Machine.execSioCmdR s
  | .sioCmdW => Sys2Proof.Machine.execSioCmdW s
  | .sioCmdS => Sys2Proof.Machine.execSioCmdS s
  | .mnReset dev => Sys2Proof.Machine.execMnReset dev s
  | .mnStatus dev => Sys2Proof.Machine.execMnStatus dev s
  | .mnAck dev => Sys2Proof.Machine.execMnAck dev s
  | .mnClr dev => Sys2Proof.Machine.execMnClr dev s
  | .mnReceive dev => Sys2Proof.Machine.execMnReceive dev s
  | .mnCancel dev => Sys2Proof.Machine.execMnCancel dev s
  | .mnSend dev => Sys2Proof.Machine.execMnSend dev s
  | .mnNack dev => Sys2Proof.Machine.execMnNack dev s
  | .mnReady dev => Sys2Proof.Machine.execMnReady dev s
  | .nmStatus dev => Sys2Proof.Machine.execNmStatus dev s
  | .nmAck dev => Sys2Proof.Machine.execNmAck dev s
  | .nmCancel dev => Sys2Proof.Machine.execNmCancel dev s
  | .nmSend dev => Sys2Proof.Machine.execNmSend dev s
  | .nmNack dev => Sys2Proof.Machine.execNmNack dev s
  | .ctlUnassignedE dev => Sys2Proof.Machine.execCtlUnassignedE dev s
  | .ctlUnassignedF dev => Sys2Proof.Machine.execCtlUnassignedF dev s
  | .fbEnd => Sys2Proof.Machine.execFbEnd s
  | .fbEsc => Sys2Proof.Machine.execFbEsc s
  | .fbEscEnd => Sys2Proof.Machine.execFbEscEnd s
  | .fbEscEsc => Sys2Proof.Machine.execFbEscEsc s
  | .fHdr5 deviceId command aux1 aux2 k => Sys2Proof.Machine.execFHdr5 deviceId command aux1 aux2 k s
  | .fData w data => Sys2Proof.Machine.execFData w data s
  | .fCtl w op dev => Sys2Proof.Machine.execFCtl w op dev s
  | .fLpkt h dev data => Sys2Proof.Machine.execFLpkt h dev data s
  | .fIecd dev data => Sys2Proof.Machine.execFIecd dev data s
  | .fIecs dev status => Sys2Proof.Machine.execFIecs dev status s
  | .fSpr status data => Sys2Proof.Machine.execFSpr status data s
  | .fStuff w body => Sys2Proof.Machine.execFStuff w body s
  | .fEnv seq command deviceId fields payload k => Sys2Proof.Machine.execFEnv seq command deviceId fields payload k s
  | .fEnvResp seq command deviceId status data => Sys2Proof.Machine.execFEnvResp seq command deviceId status data s

end Sys2Proof.Machine
end

