-- ==== Sys2Proof/Machine/Step.lean ====
section
/-! DEFINITION. One step of the machine: it takes the next input of the queue, decodes it and runs it (spec/20_memory.md
R49, spec/42_engine_common.md R130). -/

namespace Sys2Proof.Machine

/-- The environment replaces the slot table and the command table (R52); a configuration that R294 forbids is refused, as R294 and
93_implementation_defined.md I3 ask (log entry 19). -/
def replaceTables (slots : List Byte) (table : Option CmdTable) (s : State) : Res :=
  let c : Config := { s.cfg with slots := slots, cmdTable := table }
  if configValid c then .next { s with cfg := c } else .refused .invalidConfig

/-- Takes one input. -/
def takeInput (x : Stimulus) (s : State) : Res :=
  match x with
  | .tables slots table => replaceTables slots table s
  | .op u w => exec (decodeOp u w) s
  | .ev w beside => exec (decodeEv w beside) s
  | .wire f bytes =>
    match decodeWire s.cfg f bytes with
    | .ok i => exec i s
    | .error why => .refused (.undecodable why)

/-- One step: with no input delivered the machine waits (R269: the engine "only ever waits for the next event"). -/
def step (s : State) : Host.Outcome State Fault Refusal :=
  match s.script with
  | [] => .next s
  | x :: rest => takeInput x { s with script := rest }

/-- The input a table word stands for, an input no decoder accepts where there is none. -/
def fetchInput (nbits w : Nat) : Stimulus := (tableStimulus nbits w).getD (.wire .sym [])

/-- `s` with the table word as the next input; nothing else changes. -/
def State.withFetchWord (s : State) (nbits w : Nat) : State := { s with script := fetchInput nbits w :: s.script }

/-- An engine of a given configuration right after reset; a configuration R294 forbids is not built (I3). -/
def build (c : Config) : Option State := if configValid c then some (State.resetOf c) else none

end Sys2Proof.Machine
end

