-- ==== Sys2Proof/Safety.lean ====
section
/-! DEFINITION. What counts as a safe state and a safe stop, in the terms the statements use: the invariant of an engine
between events (spec/10_state.md R17 to R26, spec/47_fujibus.md R245). -/

namespace Sys2Proof.Machine

/-- The phases an engine of a profile can rest in (R17). -/
def phaseLegal (c : Config) (p : Phase) : Bool :=
  match p with
  | .idle | .dispatch => true
  | .cmdDetect => detect c != .controlByte
  | .rxHdr => hdrShape c == .fiveByte
  | .rxLenHi | .rxLenLo => lenMode c == .prefixed
  | .rxPayload | .rxPcsum => lenMode c != .delimited
  | .rxEnv => c.bus == .fujibus
  | .waitHostAck => c.bus == .adamnet

/-- Every byte below `n` has been written. -/
def writtenBelow (m : Memory) (n : Nat) : Prop := ∀ i < n, (m.read i).isSome = true

/-- A phase in which no payload byte can have arrived yet. -/
def beforePayload (p : Phase) : Bool :=
  match p with
  | .cmdDetect | .rxHdr | .rxLenHi | .rxLenLo => true
  | .idle | .rxPayload | .rxPcsum | .rxEnv | .dispatch | .waitHostAck => false

/-- A phase in which the frame has a payload still to come or to be checked: its header has passed (R140, R141). -/
def afterHeader (p : Phase) : Bool :=
  match p with
  | .rxLenHi | .rxLenLo | .rxPayload | .rxPcsum => true
  | .idle | .cmdDetect | .rxHdr | .rxEnv | .dispatch | .waitHostAck => false

/-- A phase in which `PLEN` is known (R141, R143). -/
def lengthKnown (p : Phase) : Bool :=
  match p with
  | .rxPayload | .rxPcsum => true
  | .idle | .cmdDetect | .rxHdr | .rxLenHi | .rxLenLo | .rxEnv | .dispatch | .waitHostAck => false

/-- What the decoder of a FujiBus engine is in each phase: outside a frame in `IDLE` (R245) and in `DISPATCH`, inside one
without data in `CMD_DETECT`, inside one with data in `S_ENV` (R246, R247). -/
def decoderFits (p : Phase) (u : FrUnit) : Prop :=
  match p with
  | .idle | .dispatch => u.st = .hunt
  | .cmdDetect => u.st ≠ .hunt ∧ u.ne = false
  | .rxEnv => u.st ≠ .hunt ∧ u.ne = true
  | .rxHdr | .rxLenHi | .rxLenLo | .rxPayload | .rxPcsum | .waitHostAck => True

/-- The invariant of the machine between events. -/
structure Inv (s : State) : Prop where
  /-- the configuration is one R294 allows -/
  cfgValid : configValid s.cfg = true
  /-- the pair (`ST`, `SUB`) is one R17 allows for the profile -/
  phaseOk : phaseLegal s.cfg s.eng.phase = true
  /-- the buffers are in canonical form -/
  hdrForm : s.eng.hdrBuf.wf = true
  rxForm : s.eng.rxBuf.wf = true
  envForm : s.eng.envBuf.wf = true
  /-- the counters are within their buffers (R18, R19, R20) -/
  hdrBound : s.eng.hdrCnt.toNat ≤ hdrMax
  rxBound : s.eng.rxCnt.toNat ≤ rxMax s.cfg
  envBound : s.eng.envCnt.toNat ≤ envMax s.cfg
  /-- every byte below a counter has been written (R30, R41) -/
  hdrWritten : writtenBelow s.eng.hdrBuf s.eng.hdrCnt.toNat
  rxWritten : writtenBelow s.eng.rxBuf s.eng.rxCnt.toNat
  envWritten : writtenBelow s.eng.envBuf s.eng.envCnt.toNat
  /-- a resting header is not complete (R139) -/
  hdrOpen : s.eng.phase = .rxHdr → 1 ≤ s.eng.hdrCnt.toNat ∧ s.eng.hdrCnt.toNat ≤ 4
  /-- the first header byte has index 0 (R136, R137) -/
  hdrStart : s.eng.phase = .cmdDetect → s.eng.hdrCnt = 0
  /-- no payload byte before the payload phase -/
  noPayload : beforePayload s.eng.phase = true → s.eng.rxCnt = 0
  /-- an open payload has room, and `PLEN` is within `RXBUF` (R144) -/
  payloadOpen : s.eng.phase = .rxPayload → s.eng.rxCnt.toNat < s.eng.pLen.toNat ∧ s.eng.pLen.toNat ≤ rxMax s.cfg
  /-- the payload is complete when its checksum is awaited (R144) -/
  payloadDone : s.eng.phase = .rxPcsum → s.eng.rxCnt = s.eng.pLen
  /-- a payload follows the header of a `Write` only (R141) -/
  writeHeld : afterHeader s.eng.phase = true → s.eng.frame.direction = .write
  /-- the payload's length is one the header or the prefix was checked for (R142, R143) -/
  lengthHeld : lengthKnown s.eng.phase = true → s.eng.pLen.toNat ≤ payloadCeiling s.cfg s.eng.frame.expectedLength
  /-- the FujiBus decoder is where the phase says (R245 to R247) -/
  decoderOk : s.cfg.bus = .fujibus → decoderFits s.eng.phase s.eng.fr
  /-- `ACKL` is released between events (R26) -/
  lineReleased : s.eng.lineOut = false
  /-- the command line is asserted until the header is complete (R152) -/
  lineHeld : detect s.cfg = .line → s.eng.phase = .cmdDetect ∨ s.eng.phase = .rxHdr → s.eng.linePrev = true

/-- The stops a run from an allowed state can meet: an input that is no word of its form, or a table change that R294
forbids (log entries 24, 19). No other stop is ever met (R130: "the engine never blocks and never faults"). -/
def expectedStop (o : Host.Outcome State Fault Refusal) : Prop :=
  (∃ why, o = .refused (.undecodable why)) ∨ o = .refused .invalidConfig

/-- The rows that stand for bytes the host sends (R42, R60): what the engine can answer. -/
def fromHost (i : Instr) : Bool :=
  match i with
  | .nop .. | .csClr .. | .csAbs .. | .csRd .. | .csChk .. | .encBegin .. | .encByte .. | .encEnd .. | .decByte ..
  | .decRst .. | .reservedOp5 .. | .reservedOp6 .. | .reservedOp7 .. | .reservedOpB .. | .reservedOpE ..
  | .reservedOpF .. => false
  | .evRx .. => true
  | .evNone .. | .evReset .. | .evLine .. | .evTimeout .. | .evDispatchDone .. | .evDispatchNodevice .. | .evPoll ..
  | .reservedEv7 .. => false
  | .sioCmdR | .sioCmdW | .sioCmdS => true
  | .sioAck | .sioNak | .sioComplete | .sioError => false
  | .mnReset .. | .mnStatus .. | .mnAck .. | .mnClr .. | .mnReceive .. | .mnCancel .. | .mnSend .. | .mnNack ..
  | .mnReady .. | .ctlUnassignedE .. | .ctlUnassignedF .. => true
  | .nmStatus .. | .nmAck .. | .nmCancel .. | .nmSend .. | .nmNack .. => false
  | .fbEnd | .fbEsc | .fbEscEnd | .fbEscEsc => true
  | .fHdr5 .. => true
  | .fData (.received _) _ => true
  | .fData .sent _ => false
  | .fCtl .toDevice _ _ => true
  | .fCtl .toHost _ _ => false
  | .fLpkt (.hostSend _) _ _ => true
  | .fLpkt .devStatus _ _ | .fLpkt .devSend _ _ => false
  | .fIecd .. | .fIecs .. | .fSpr .. => false
  | .fStuff .toDevice _ => true
  | .fStuff .toHost _ => false
  | .fEnv .. => true
  | .fEnvResp .. => false

/-- A stuffed list of R121: no `FB_END`, and every `FB_ESC` followed by one of its two substitutes. -/
def wellStuffed (c : Config) : List Byte → Bool
  | [] => true
  | [b] => b != c.fbEnd && b != c.fbEsc
  | b :: d :: rest =>
    if b = c.fbEnd then false
    else if b = c.fbEsc then (d == c.fbEscEnd || d == c.fbEscEsc) && wellStuffed c rest
    else wellStuffed c (d :: rest)

/-- The rows that start a frame on a control-byte bus in `IDLE`, each with its operation code (R66, R135). -/
def startsFrame (c : Config) (dev : Nibble) (i : Instr) (code : Nibble) : Prop :=
  (i = .mnStatus dev ∧ code = c.mnStatus) ∨ (i = .mnClr dev ∧ code = c.mnClr)
    ∨ (i = .mnReceive dev ∧ code = c.mnReceive) ∨ (i = .mnSend dev ∧ code = c.mnSend)
    ∨ (i = .mnReady dev ∧ code = c.mnReady) ∨ (i = .fCtl .toDevice code dev ∧ code ∈ detectOps c)

end Sys2Proof.Machine
end

