-- ==== Sys2Proof/Certificates/Slice0/Obligations.lean ====
section
/-! DEFINITION. The statements for the provers. A statement cites the rules of spec/ it formalises; where it rests on a choice
of the model, its docstring names the log entry of notes/assumptions/. -/

open Sys2Proof Sys2Proof.Machine

/-! ### The checksum unit -/

/-- R91, R96, R97: `CS_CLR` loads the generator's starting value and clears `CS_MATCH`; `CS_RD` returns the result of the
generator and writes no register; `CS_CHK b` latches and returns the comparison of that result with `b`, which is not absorbed;
nothing else changes in any of them. -/
def Obligations.CsClearsReadsAndChecks : Prop :=
  ∀ (s : State) (x b : Byte),
    let start : Byte := match s.cfg.csKind with
      | .add8 => 0x00
      | .xor8 => 0x00
      | .crc8 => s.cfg.crcInit
    let res : Byte := match s.cfg.csKind with
      | .add8 => s.cs.acc
      | .xor8 => s.cs.acc
      | .crc8 => s.cs.acc ^^^ s.cfg.crcXorOut
    decodeOp .cs (opWord 0x1 x) = .csClr .cs x ∧ decodeOp .cs (opWord 0x3 x) = .csRd .cs x
    ∧ decodeOp .cs (opWord 0x4 b) = .csChk .cs b
    ∧ exec (.csClr .cs x) s = .next { s with cs := { acc := start, matched := false } }
    ∧ exec (.csRd .cs x) s = .next { s with returned := s.returned ++ [.byte res] }
    ∧ exec (.csChk .cs b) s = .next { s with
        cs := { acc := s.cs.acc, matched := decide (res = b) },
        returned := s.returned ++ [.bit (decide (res = b))] }

/-- R92, R93, R94, R95: `CS_ABS b` applies the absorb step of `CS_KIND`: the end-around-carry sum as natural numbers, the
exclusive or, or eight shifts of the CRC register; `CS_MATCH` and everything else keep their values. -/
def Obligations.CsAbsAppliesTheGenerator : Prop :=
  ∀ (s : State) (b : Byte),
    decodeOp .cs (opWord 0x2 b) = .csAbs .cs b
    ∧ ∃ acc : Byte, exec (.csAbs .cs b) s = .next { s with cs := { acc := acc, matched := s.cs.matched } }
      ∧ (s.cfg.csKind = .add8 →
          acc.toNat = (s.cs.acc.toNat + b.toNat) / 256 + (s.cs.acc.toNat + b.toNat) % 256)
      ∧ (s.cfg.csKind = .xor8 → acc = s.cs.acc ^^^ b)
      ∧ (s.cfg.csKind = .crc8 →
          acc = (fun r : Byte => if r.getLsbD 7 then (r <<< 1) ^^^ s.cfg.crcPoly else r <<< 1)^[8] (s.cs.acc ^^^ b))

/-! ### The framer unit -/

/-- R111, R112, R113: the three encoder operations return their bytes and write no register. -/
def Obligations.EncoderReturnsItsBytes : Prop :=
  ∀ (s : State) (x b : Byte),
    decodeOp .fr (opWord 0x8 x) = .encBegin .fr x
    ∧ decodeOp .fr (opWord 0x9 b) = .encByte .fr b
    ∧ decodeOp .fr (opWord 0xA x) = .encEnd .fr x
    ∧ exec (.encBegin .fr x) s = .next { s with returned := s.returned ++ [.bytes [s.cfg.fbEnd]] }
    ∧ exec (.encByte .fr b) s = .next { s with returned := s.returned ++ [.bytes
        (if b = s.cfg.fbEnd then [s.cfg.fbEsc, s.cfg.fbEscEnd]
          else if b = s.cfg.fbEsc then [s.cfg.fbEsc, s.cfg.fbEscEsc]
          else [b])] }
    ∧ exec (.encEnd .fr x) s = .next { s with returned := s.returned ++ [.bytes [s.cfg.fbEnd]] }

/-- R115, R116, R117, R118: `DEC_BYTE b` by `DEC_ST`: the decoder's registers after it and what it returns; `DEC_RST` puts the
decoder outside a frame, clears its flags and returns `Nothing`. -/
def Obligations.DecByteAndDecRst : Prop :=
  ∀ (s : State) (b x : Byte),
    decodeOp .fr (opWord 0xC b) = .decByte .fr b ∧ decodeOp .fr (opWord 0xD x) = .decRst .fr x
    ∧ exec (.decRst .fr x) s = .next { s with
        fr := { st := .hunt, err := false, ne := false }, returned := s.returned ++ [.decoder .nothing] }
    ∧ ∃ (u : FrUnit) (o : DecOut),
      exec (.decByte .fr b) s = .next { s with fr := u, returned := s.returned ++ [.decoder o] }
      ∧ (s.fr.st = .hunt →
          (u, o) = (if b = s.cfg.fbEnd then ({ st := .data, err := false, ne := false }, .frameStart)
            else (s.fr, .nothing)))
      ∧ (s.fr.st = .data →
          (u, o) = (if b = s.cfg.fbEnd then
              if s.fr.ne = false ∧ s.fr.err = false then (s.fr, .nothing)
              else ({ st := .hunt, err := s.fr.err, ne := s.fr.ne }, .frameEnd (decide (s.fr.err = false)))
            else if b = s.cfg.fbEsc then ({ st := .esc, err := s.fr.err, ne := s.fr.ne }, .nothing)
            else ({ st := .data, err := s.fr.err, ne := true }, .data b)))
      ∧ (s.fr.st = .esc →
          (u, o) = (if b = s.cfg.fbEscEnd then ({ st := .data, err := s.fr.err, ne := true }, .data s.cfg.fbEnd)
            else if b = s.cfg.fbEscEsc then ({ st := .data, err := s.fr.err, ne := true }, .data s.cfg.fbEsc)
            else if b = s.cfg.fbEnd then ({ st := .hunt, err := true, ne := s.fr.ne }, .frameEnd false)
            else ({ st := .data, err := true, ne := s.fr.ne }, .nothing)))

/-- R74, R75, R76: `NOP`, `EV_NONE`, the reserved codes, and an operation sent to the port of the other unit change nothing
and output nothing. That a reserved code runs at all is the model's choice (log entries 6, 7). -/
def Obligations.NopsAndReservedCodesChangeNothing : Prop :=
  ∀ (s : State) (u : UnitPort) (x : Byte) (y : BitVec 9),
    exec (.nop u x) s = .next s ∧ exec (.evNone y) s = .next s ∧ exec (.reservedEv7 y) s = .next s
    ∧ exec (.reservedOp5 u x) s = .next s ∧ exec (.reservedOp6 u x) s = .next s ∧ exec (.reservedOp7 u x) s = .next s
    ∧ exec (.reservedOpB u x) s = .next s ∧ exec (.reservedOpE u x) s = .next s ∧ exec (.reservedOpF u x) s = .next s
    ∧ exec (.csClr .fr x) s = .next s ∧ exec (.csAbs .fr x) s = .next s ∧ exec (.csRd .fr x) s = .next s
    ∧ exec (.csChk .fr x) s = .next s ∧ exec (.encBegin .cs x) s = .next s ∧ exec (.encByte .cs x) s = .next s
    ∧ exec (.encEnd .cs x) s = .next s ∧ exec (.decByte .cs x) s = .next s ∧ exec (.decRst .cs x) s = .next s

/-- R10, R74, R76: every word of a unit port runs, and leaves the engine, its outputs, the configuration and the other unit
alone. That the units on the ports are stand-alone ones is the model's choice (log entry 2); and so is that a reserved op code
and an operation sent to the other unit's port run at all: R76 gives them "no state change, no output" and says that a model
should refuse the word (log entries 6, 7). -/
def Obligations.UnitWordsLeaveTheEngine : Prop :=
  ∀ (s : State) (u : UnitPort) (w : PortWord),
    ∃ t, exec (decodeOp u w) s = .next t ∧ t.eng = s.eng ∧ t.cfg = s.cfg ∧ t.trace = s.trace ∧ t.script = s.script
      ∧ (u = .cs → t.fr = s.fr) ∧ (u = .fr → t.cs = s.cs) ∧ s.returned <+: t.returned

/-! ### Laws of the checksums and of the framer -/

/-- R98: the closed form of `checksum_ADD8` and its five consequences. -/
def Obligations.Add8ClosedForm : Prop :=
  ∀ (c : Config),
    (∀ l : List Byte, (∀ b ∈ l, b = 0x00) → checksumOf .add8 c l = 0x00)
    ∧ (∀ l : List Byte, (∃ b ∈ l, b ≠ 0x00) →
        (checksumOf .add8 c l).toNat = ((l.map BitVec.toNat).sum - 1) % 255 + 1)
    ∧ (∀ l r : List Byte, l.Perm r → checksumOf .add8 c l = checksumOf .add8 c r)
    ∧ (∀ l : List Byte, checksumOf .add8 c l = 0x00 → ∀ b ∈ l, b = 0x00)
    ∧ (∀ l r : List Byte, (checksumOf .add8 c (l ++ r)).toNat =
        ((checksumOf .add8 c l).toNat + (checksumOf .add8 c r).toNat) / 256
          + ((checksumOf .add8 c l).toNat + (checksumOf .add8 c r).toNat) % 256)
    ∧ (∀ l : List Byte, ∃ n, (fun t : Nat => t / 256 + t % 256)^[n] (l.map BitVec.toNat).sum < 256)
    ∧ (∀ (l : List Byte) (n : Nat), (fun t : Nat => t / 256 + t % 256)^[n] (l.map BitVec.toNat).sum < 256 →
        (fun t : Nat => t / 256 + t % 256)^[n] (l.map BitVec.toNat).sum = (checksumOf .add8 c l).toNat)
    ∧ (∀ (l : List Byte) (n : Nat), checksumOf .add8 c (l ++ List.replicate n 0x00) = checksumOf .add8 c l)

/-- R99: what `ADD8` detects: every flip of one bit, and every other single corrupted byte but `0x00` against `0xFF` beside
a non-zero byte; and `validate(B, checksum(B))` succeeds. -/
def Obligations.Add8ErrorDetection : Prop :=
  ∀ (c : Config),
    (∀ (l r : List Byte) (b : Byte) (i : Nat), i < 8 →
        checksumOf .add8 c (l ++ (b ^^^ (1 : Byte) <<< i) :: r) ≠ checksumOf .add8 c (l ++ b :: r))
    ∧ (∀ (l r : List Byte) (a b : Byte), a ≠ b →
        (checksumOf .add8 c (l ++ a :: r) = checksumOf .add8 c (l ++ b :: r) ↔
          ((a = 0x00 ∧ b = 0xFF) ∨ (a = 0xFF ∧ b = 0x00)) ∧ ∃ d ∈ l ++ r, d ≠ 0x00))
    ∧ (∀ l : List Byte, validate { c with csKind := .add8 } l (checksumOf .add8 c l) = true)

/-- R100: the laws of `XOR8` (order does not count, the checksum of two parts is the exclusive or of theirs, a changed byte
changes it by exactly the change, so every odd number of flips of one bit position is seen and two are missed) and of `CRC8` with
the default constants (order counts, an error confined to one byte and a burst of at most eight bits across two bytes
are seen, the check value over "123456789" is `0xF4`). -/
def Obligations.Xor8AndCrc8Laws : Prop :=
  ∀ (c : Config),
    (∀ l r : List Byte, l.Perm r → checksumOf .xor8 c l = checksumOf .xor8 c r)
    ∧ (∀ l r : List Byte, checksumOf .xor8 c (l ++ r) = checksumOf .xor8 c l ^^^ checksumOf .xor8 c r)
    ∧ (∀ l e : List Byte, l.length = e.length →
        checksumOf .xor8 c (List.zipWith (· ^^^ ·) l e) = checksumOf .xor8 c l ^^^ checksumOf .xor8 c e)
    ∧ (∀ (e : List Byte) (i : Nat), i < 8 →
        (checksumOf .xor8 c e).getLsbD i = decide ((e.countP (fun b => b.getLsbD i)) % 2 = 1))
    ∧ (c.crcPoly = 0x07 → c.crcInit = 0x00 → c.crcXorOut = 0x00 →
        (checksumOf .crc8 c [0x01, 0x02] ≠ checksumOf .crc8 c [0x02, 0x01])
        ∧ (∀ (l r : List Byte) (a b : Byte), a ≠ b →
            checksumOf .crc8 c (l ++ a :: r) ≠ checksumOf .crc8 c (l ++ b :: r))
        ∧ (∀ (l r : List Byte) (a b p : Byte) (k : Nat), p ≠ 0x00 → k ≤ 8 →
            checksumOf .crc8 c (l ++ (a ^^^ ((p.zeroExtend 16 <<< k).extractLsb' 8 8))
              :: (b ^^^ ((p.zeroExtend 16 <<< k).extractLsb' 0 8)) :: r) ≠ checksumOf .crc8 c (l ++ a :: b :: r))
        ∧ checksumOf .crc8 c [0x31, 0x32, 0x33, 0x34, 0x35, 0x36, 0x37, 0x38, 0x39] = 0xF4)

/-- R114: the encoder's composite functions: their expansions, the bounds on the length, no delimiter inside, every escape
followed by a substitute; and `frame([])` opens a frame without ending one. -/
def Obligations.EncodeEscapeShape : Prop :=
  ∀ (c : Config), (framingBytes c).Nodup →
    (∀ (b : Byte) (p : List Byte), encodeEscape c [] = [] ∧ encodeEscape c (b :: p) = encByte c b ++ encodeEscape c p
      ∧ frameBytes c p = [c.fbEnd] ++ encodeEscape c p ++ [c.fbEnd]
      ∧ p.length ≤ (encodeEscape c p).length ∧ (encodeEscape c p).length ≤ 2 * p.length
      ∧ c.fbEnd ∉ encodeEscape c p
      ∧ (∀ l r : List Byte, encodeEscape c p = l ++ c.fbEsc :: r →
          r.head? = some c.fbEscEnd ∨ r.head? = some c.fbEscEsc))
    ∧ frameBytes c [] = [c.fbEnd, c.fbEnd]
    ∧ ∀ u : FrUnit, u.st = .hunt → (decRun c u (frameBytes c [])).2 = [.frameStart, .nothing]

/-- R120: `decodeEscape(encodeEscape(P)) = P` for every byte list, and a decoder outside a frame that is fed `frame(P)` returns
`FrameStart`, the bytes of `P` in order (`Nothing` for the first byte of each pair), then `FrameEnd(true)`. -/
def Obligations.EscapeRoundTrip : Prop :=
  ∀ (c : Config), (framingBytes c).Nodup → ∀ (p : List Byte),
    decodeEscape c (encodeEscape c p) = .ok p
    ∧ (p ≠ [] → ∀ u : FrUnit, u.st = .hunt →
        (decRun c u (frameBytes c p)).2 =
          [.frameStart]
            ++ p.flatMap (fun b => if b = c.fbEnd ∨ b = c.fbEsc then [.nothing, .data b] else [.data b])
            ++ [.frameEnd true]
        ∧ (decRun c u (frameBytes c p)).1.st = .hunt)

/-- R121: `encodeEscape` is injective, `decodeEscape` is its inverse on the well-formed stuffed lists, and it fails on every
other list. -/
def Obligations.EscapeBijection : Prop :=
  ∀ (c : Config), (framingBytes c).Nodup →
    (∀ p q : List Byte, encodeEscape c p = encodeEscape c q → p = q)
    ∧ (∀ l : List Byte, wellStuffed c l = true → ∃ p, decodeEscape c l = .ok p ∧ encodeEscape c p = l)
    ∧ (∀ l : List Byte, wellStuffed c l = false → ∃ why, decodeEscape c l = .error why)

/-- R122: whatever state the decoder is in, one delimiter leaves it outside a frame, or inside one with no data since that
delimiter; and after a second delimiter that follows at least one well-formed data byte it has returned a `FrameEnd`. -/
def Obligations.DecoderResynchronises : Prop :=
  ∀ (c : Config) (u : FrUnit), (framingBytes c).Nodup →
    ((decStep c u c.fbEnd).1.st = .hunt
      ∨ (decStep c u c.fbEnd).1.st = .data ∧ (decStep c u c.fbEnd).1.ne = false)
    ∧ ∀ l : List Byte, c.fbEnd ∉ l → (∃ d, .data d ∈ (decRun c decInside l).2) →
        ∃ ok, .frameEnd ok ∈ (decRun c u (c.fbEnd :: l ++ [c.fbEnd])).2

/-! ### Parameters and tables -/

/-- R7, R28, R66, R191, R226: every parameter at its default, the profile constants of each bus, and the command tables: the one
supplied, else the default of R191 or R226 where the operation codes have the values those rules print, else none. The
`timeout_ms` of the default tables is the model's own parameter (log entry 15). -/
def Obligations.DefaultParametersAndTables : Prop :=
  (∀ b : Bus, let c := Config.ofBus b
    c.bus = b
    ∧ c.csKind = (match b with | .sio => .add8 | .iec => .crc8 | .smartport => .xor8 | .adamnet => .xor8 | .fujibus => .add8)
    ∧ c.maxPayload = (match b with | .sio => 256 | .iec => 256 | .smartport => 512 | .adamnet => 512 | .fujibus => 512)
    ∧ c.crcPoly = 0x07 ∧ c.crcInit = 0x00 ∧ c.crcXorOut = 0x00
    ∧ c.fbEnd = 0xC0 ∧ c.fbEsc = 0xDB ∧ c.fbEscEnd = 0xDC ∧ c.fbEscEsc = 0xDD
    ∧ c.sioAck = 0x41 ∧ c.sioNak = 0x4E ∧ c.sioComplete = 0x43 ∧ c.sioError = 0x45
    ∧ c.mnReset = 0x0 ∧ c.mnStatus = 0x1 ∧ c.mnAck = 0x2 ∧ c.mnClr = 0x3 ∧ c.mnReceive = 0x4 ∧ c.mnCancel = 0x5
    ∧ c.mnSend = 0x6 ∧ c.mnNack = 0x7 ∧ c.mnReady = 0xD
    ∧ c.nmStatus = 0x8 ∧ c.nmAck = 0x9 ∧ c.nmCancel = 0xA ∧ c.nmSend = 0xB ∧ c.nmNack = 0xC
    ∧ c.checkOrder = .devFirst ∧ c.stInternal = 0xFF ∧ c.spStBadcmd = 0x01
    ∧ c.fbStUnsupported = 0x00000001 ∧ c.fbStInvalid = 0x00000002
    ∧ c.lenPrefixOrder = .bigEndian ∧ c.fbFieldOrder = .littleEndian ∧ configValid c = true)
  ∧ (∀ c : Config, (detect c, hdrShape c, lenMode c, inLine c, outLine c) =
      (match c.bus with
        | .sio => (.line, .fiveByte, .table, some .cmd, none)
        | .iec => (.controlByte, .controlByte, .table, none, some .ackl)
        | .smartport => (.line, .fiveByte, .table, some .req, some .ackl)
        | .adamnet => (.controlByte, .controlByte, .prefixed, none, none)
        | .fujibus => (.delimiter, .envelope, .delimited, none, none)))
  ∧ (∀ (c : Config) (cmd : Byte),
      (∀ table, c.cmdTable = some table → cmdEntry c cmd = table.lookup cmd)
      ∧ (c.cmdTable = none → c.bus = .sio ∨ c.bus = .smartport ∨ c.bus = .fujibus → cmdEntry c cmd = none)
      ∧ (c.cmdTable = none → c.mnStatus = 0x1 → c.mnClr = 0x3 → c.mnReceive = 0x4 → c.mnSend = 0x6 → c.mnReady = 0xD →
        (c.bus = .iec → cmdEntry c cmd =
          if cmd = 0x01 then some { direction := .read, expectedLength := 2, timeoutMs := c.defaultTimeoutMs }
          else if cmd = 0x03 then some { direction := .read, expectedLength := 4, timeoutMs := c.defaultTimeoutMs }
          else if cmd = 0x04 ∨ cmd = 0x0D then
            some { direction := .noData, expectedLength := 0, timeoutMs := c.defaultTimeoutMs }
          else if cmd = 0x06 then some { direction := .write, expectedLength := 3, timeoutMs := c.defaultTimeoutMs }
          else none)
        ∧ (c.bus = .adamnet → cmdEntry c cmd =
          if cmd = 0x01 then some { direction := .read, expectedLength := 4, timeoutMs := c.defaultTimeoutMs }
          else if cmd = 0x03 then
            some { direction := .read, expectedLength := c.maxPayload, timeoutMs := c.defaultTimeoutMs }
          else if cmd = 0x04 ∨ cmd = 0x0D then
            some { direction := .noData, expectedLength := 0, timeoutMs := c.defaultTimeoutMs }
          else if cmd = 0x06 then
            some { direction := .write, expectedLength := c.maxPayload, timeoutMs := c.defaultTimeoutMs }
          else none)))

/-! ### Reset, failures, events that cut across phases -/

/-- R30, R292: every register right after reset, under any configuration; no buffer element has a value. -/
def Obligations.ResetHoldsTheTable : Prop :=
  ∀ (c : Config),
    (State.resetOf c).eng.cs = { acc := 0x00, matched := false }
    ∧ (State.resetOf c).eng.fr = { st := .hunt, err := false, ne := false }
    ∧ decStCode (State.resetOf c).eng.fr.st = 0
    ∧ stCode (State.resetOf c).eng.phase.st = 0 ∧ (State.resetOf c).eng.phase.st = .idle
    ∧ subCode (State.resetOf c).eng.phase.sub = 0 ∧ (State.resetOf c).eng.phase.sub = .sNone
    ∧ (State.resetOf c).eng.hdrCnt = 0 ∧ (State.resetOf c).eng.rxCnt = 0 ∧ (State.resetOf c).eng.envCnt = 0
    ∧ (∀ i, (State.resetOf c).eng.hdrBuf.read i = none ∧ (State.resetOf c).eng.rxBuf.read i = none
        ∧ (State.resetOf c).eng.envBuf.read i = none)
    ∧ (State.resetOf c).eng.lenHi = 0 ∧ (State.resetOf c).eng.pLen = 0
    ∧ (State.resetOf c).eng.frame = {
      deviceId := 0, command := 0, aux1 := 0, aux2 := 0, direction := .noData,
      expectedLength := 0, timeoutMs := 0 }
    ∧ directionCode (State.resetOf c).eng.frame.direction = 0
    ∧ (State.resetOf c).eng.fbSeq = 0 ∧ (State.resetOf c).eng.fbPc = 0
    ∧ (State.resetOf c).eng.err = .noError ∧ errCode (State.resetOf c).eng.err = 0
    ∧ (State.resetOf c).eng.linePrev = false ∧ (State.resetOf c).eng.lineOut = false
    ∧ (State.resetOf c).cs = { acc := 0x00, matched := false }
    ∧ (State.resetOf c).fr = { st := .hunt, err := false, ne := false }

/-- R153, R290: `EvReset` in any state: every register it writes, the `Line(l, 0)` it emits, no `Tx`; the profile constants
and the table and (off FujiBus) the decoder registers are not touched. That the stand-alone units are not reset with the
engine (the clauses on `t.cs` and `t.fr`) is the model's choice: R292 does not say which event resets them (log entry 2). -/
def Obligations.EvResetWritesEveryRegister : Prop :=
  ∀ (s : State) (x : BitVec 9),
    ∃ t, exec (.evReset x) s = .next t
      ∧ t.eng.cs = { acc := 0x00, matched := false }
      ∧ t.eng.fr = (if s.cfg.bus = .fujibus then { st := .hunt, err := false, ne := false } else s.eng.fr)
      ∧ t.eng.phase = .idle
      ∧ t.eng.hdrCnt = 0 ∧ t.eng.rxCnt = 0 ∧ t.eng.envCnt = 0 ∧ t.eng.lenHi = 0 ∧ t.eng.pLen = 0
      ∧ t.eng.frame = {
        deviceId := 0, command := 0, aux1 := 0, aux2 := 0, direction := .noData,
        expectedLength := 0, timeoutMs := 0 }
      ∧ t.eng.fbSeq = 0 ∧ t.eng.fbPc = 0 ∧ t.eng.err = .noError
      ∧ t.eng.linePrev = false ∧ t.eng.lineOut = false
      ∧ t.trace = s.trace ++ (if s.cfg.bus = .iec ∨ s.cfg.bus = .smartport then [.line .ackl false] else [])
      ∧ t.cfg = s.cfg ∧ t.cs = s.cs ∧ t.fr = s.fr ∧ t.script = s.script ∧ t.returned = s.returned
      ∧ t.taken = s.taken ∧ t.draws = s.draws

/-- R266: raising a failure with its action: the outputs of the action in order, then `ERR`, then `IDLE` with `DEC_RST` on
FujiBus; what is saved is the code alone, and `FRAME`, counters, buffers and everything else keep their values. -/
def Obligations.FailureReturnsToIdle : Prop :=
  ∀ (os : List Output) (e : Err) (s : State),
    os.foldl (fun v o => lineAfter o v) s.eng.lineOut = s.eng.lineOut →
    failWith os e s = { s with
      trace := s.trace ++ os,
      eng := { s.eng with
        err := e, phase := .idle,
        fr := if s.cfg.bus = .fujibus then { st := .hunt, err := false, ne := false } else s.eng.fr } }

/-- R151: `EvTimeout` abandons the frame in silence in every phase in which a timer runs, and is ignored in `IDLE` and in
`DISPATCH`. -/
def Obligations.TimeoutAbandonsInSilence : Prop :=
  ∀ (s : State) (x : BitVec 9),
    exec (.evTimeout x) s = .next
      (if s.eng.phase = .idle ∨ s.eng.phase = .dispatch then s
        else { s with eng := { s.eng with
          err := .timeout, phase := .idle,
          fr := if s.cfg.bus = .fujibus then { st := .hunt, err := false, ne := false } else s.eng.fr } })

/-- R136, R152: `EvLine` on the profile's input line: `LINE_PREV` always takes the level; a rising edge in `IDLE` begins a
frame; a release before the header is complete abandons it; anything else only updates `LINE_PREV`; a line the profile does
not have is ignored. -/
def Obligations.LineEventsDetectAndTruncate : Prop :=
  ∀ (s : State) (v : Bool) (x l : Nibble),
    exec (.evLine v x l) s = .next
      (if l ≠ 0 ∨ (s.cfg.bus ≠ .sio ∧ s.cfg.bus ≠ .smartport) then s
        else if s.eng.phase = .idle ∧ s.eng.linePrev = false ∧ v = true then
          { s with eng := { s.eng with
            linePrev := true, hdrCnt := 0, rxCnt := 0, envCnt := 0, pLen := 0, lenHi := 0, err := .noError,
            cs := { acc := csInit s.cfg, matched := false }, phase := .cmdDetect } }
        else if v = false ∧ (s.eng.phase = .cmdDetect ∨ s.eng.phase = .rxHdr) then
          { s with eng := { s.eng with linePrev := false, err := .trunc, phase := .idle } }
        else { s with eng := { s.eng with linePrev := v } })

/-- R154: `EvPoll` offers the idle tick in `IDLE` and does nothing in any other phase. -/
def Obligations.PollOffersIdleTick : Prop :=
  ∀ (s : State) (x : BitVec 9),
    exec (.evPoll x) s = .next (if s.eng.phase = .idle then { s with trace := s.trace ++ [.idleTick] } else s)

/-- R147, R148, R155: in `DISPATCH` a received byte, a timeout and a poll do nothing and a line event only updates `LINE_PREV`,
so however many of these come the engine stays there; `NoDevice` is a silent failure; and an answer in any other phase changes
nothing. -/
def Obligations.DispatchWaitsForTheAnswer : Prop :=
  ∀ (s : State) (x : Bool) (b n status : Byte) (data : List Byte) (y : BitVec 9) (v : Bool) (z l : Nibble),
    (s.eng.phase = .dispatch →
      exec (.evRx x b) s = .next s ∧ exec (.evTimeout y) s = .next s ∧ exec (.evPoll y) s = .next s
      ∧ exec (.evLine v z l) s = .next
          (if l = 0 ∧ (s.cfg.bus = .sio ∨ s.cfg.bus = .smartport) then
            { s with eng := { s.eng with linePrev := v } } else s)
      ∧ exec (.evDispatchNodevice n) s = .next { s with eng := { s.eng with
          err := .nodev, phase := .idle,
          fr := if s.cfg.bus = .fujibus then { st := .hunt, err := false, ne := false } else s.eng.fr } })
    ∧ (s.eng.phase ≠ .dispatch →
        exec (.evDispatchNodevice n) s = .next s ∧ exec (.evDispatchDone status data) s = .next s)

/-- R149: Response-Send: the contract on the length of the data, the outputs of the bus's `emit_response`, `E_DEVICE` for a
non-zero status or a broken contract, and the wait or the return to `IDLE`; nothing else changes. -/
def Obligations.DoneSendsTheResponse : Prop :=
  ∀ (s : State) (status : Byte) (data : List Byte), s.eng.phase = .dispatch →
    let need : Bool := decide (s.eng.frame.direction = .read ∧ 0 < s.eng.frame.expectedLength.toNat)
    let ok : Bool :=
      if need = false then true
      else if lenMode s.cfg = .table then decide (data.length = s.eng.frame.expectedLength.toNat)
      else decide (data.length ≤ min s.eng.frame.expectedLength.toNat s.cfg.maxPayload.toNat)
    let r := response s.cfg s.eng status data need ok
    exec (.evDispatchDone status data) s = .next { s with
      trace := s.trace ++ r.1,
      eng := { s.eng with
        err := if status ≠ 0x00 ∨ ok = false then .device else s.eng.err,
        phase := if r.2 = true then .waitHostAck else .idle,
        fr := if r.2 = false ∧ s.cfg.bus = .fujibus then { st := .hunt, err := false, ne := false }
          else s.eng.fr } }

/-! ### The profile functions -/

/-- R171: the five profile functions of SIO. -/
def Obligations.SioProfileFunctions : Prop :=
  ∀ (c : Config) (e : Engine) (status : Byte) (data : List Byte) (need ok : Bool), c.bus = .sio → c.csKind = .add8 →
    cmdAck c = [.tx [c.sioAck]] ∧ payloadAck c = [.tx [c.sioAck]] ∧ nak c e = [.tx [c.sioNak]]
    ∧ unsupported c e = [.tx [c.sioNak]]
    ∧ response c e status data need ok =
        ([.tx (if need = false then [if status = 0x00 then c.sioComplete else c.sioError]
          else if ok = true then
            [if status = 0x00 then c.sioComplete else c.sioError] ++ data ++ [checksumOf .add8 c data]
          else [c.sioError])], false)

/-- R192: the five profile functions of IEC. -/
def Obligations.IecProfileFunctions : Prop :=
  ∀ (c : Config) (e : Engine) (status : Byte) (data : List Byte) (need ok : Bool), c.bus = .iec → c.csKind = .crc8 →
    cmdAck c = [.line .ackl true, .line .ackl false] ∧ payloadAck c = [.line .ackl true, .line .ackl false]
    ∧ nak c e = [] ∧ unsupported c e = []
    ∧ response c e status data need ok =
        ([.tx (if need = true ∧ ok = true ∧ status = 0x00 then
            [ctlByte c.nmSend (loNibble e.frame.deviceId)] ++ data ++ [checksumOf .crc8 c data]
          else [ctlByte c.nmStatus (loNibble e.frame.deviceId),
            if status ≠ 0x00 then status else if need = true ∧ ok = false then c.stInternal else 0x00])], false)

/-- R211: the five profile functions of SmartPort. The "unsupported" answer is the `F-SPR` response with status
`SP_ST_BADCMD` and no data, whose checksum equals the status. -/
def Obligations.SmartportProfileFunctions : Prop :=
  ∀ (c : Config) (e : Engine) (status : Byte) (data : List Byte) (need ok : Bool),
    c.bus = .smartport → c.csKind = .xor8 →
    cmdAck c = [.line .ackl true, .line .ackl false] ∧ payloadAck c = [.line .ackl true, .line .ackl false]
    ∧ nak c e = []
    ∧ unsupported c e = [.line .ackl true, .line .ackl false, .tx [c.spStBadcmd, c.spStBadcmd]]
    ∧ response c e status data need ok =
        (let body : List Byte :=
          if status = 0x00 ∧ (need = false ∨ ok = true) then [0x00] ++ (if need = true then data else [])
          else [if status ≠ 0x00 then status else c.stInternal]
        [.tx (body ++ [checksumOf .xor8 c body])], false)

/-- R227: the five profile functions of AdamNet; a wait follows an `NM_SEND` packet only. -/
def Obligations.AdamnetProfileFunctions : Prop :=
  ∀ (c : Config) (e : Engine) (status : Byte) (data : List Byte) (need ok : Bool),
    c.bus = .adamnet → c.csKind = .xor8 → c.lenPrefixOrder = .bigEndian → c.nmStatus ≠ c.nmSend →
    data.length < 65536 →
    let dev := loNibble e.frame.deviceId
    let status4 : Bool := decide (e.frame.command = c.mnStatus.zeroExtend 8)
    cmdAck c = [] ∧ payloadAck c = [] ∧ nak c e = [.tx [ctlByte c.nmNack dev]]
    ∧ unsupported c e = [.tx [ctlByte c.nmNack dev]]
    ∧ response c e status data need ok =
        (if need = false then ([.tx [ctlByte (if status = 0x00 then c.nmAck else c.nmNack) dev]], false)
          else if ok = true ∧ status = 0x00 then
            ([.tx ([ctlByte (if status4 = true then c.nmStatus else c.nmSend) dev,
                BitVec.ofNat 8 (data.length / 256), BitVec.ofNat 8 (data.length % 256)]
              ++ data ++ [checksumOf .xor8 c data])], !status4)
          else ([.tx [ctlByte c.nmNack dev]], false))

/-- R250, with the four other profile functions that R245 lists: the FujiBus response envelope, stuffed. -/
def Obligations.FujibusProfileFunctions : Prop :=
  ∀ (c : Config) (e : Engine) (status : Byte) (data : List Byte) (need ok : Bool),
    c.bus = .fujibus → c.csKind = .add8 → c.fbFieldOrder = .littleEndian → c.fbStUnsupported = 1 →
    let reply : Byte → List Byte → List Output := fun st d =>
      let body := [e.fbSeq, e.frame.command, 0x01, e.frame.deviceId, st, 0x00, 0x00, 0x00] ++ d
      [.tx ([c.fbEnd] ++ encodeEscape c (body ++ [checksumOf .add8 c body]) ++ [c.fbEnd])]
    cmdAck c = [] ∧ payloadAck c = [] ∧ nak c e = [] ∧ unsupported c e = reply 0x01 []
    ∧ response c e status data need ok =
        (if status ≠ 0x00 then reply status []
          else if need = true ∧ ok = false then reply c.stInternal []
          else if need = true then reply 0x00 data
          else reply 0x00 [], false)

/-! ### Receiving a header -/

/-- R135, R66, R76 (the bytes that start no frame): in `IDLE` a byte on a `LINE` bus, a byte on a `CONTROL_BYTE` bus whose high
nibble is not in `DETECT_OPS` (so RESET, ACK, CANCEL, NACK, and 0xE and 0xF where they are unassigned), and a byte other than the
delimiter outside a FujiBus frame (R246) are discarded. -/
def Obligations.IdleDiscardsWhatStartsNoFrame : Prop :=
  ∀ (s : State) (x : Bool) (b : Byte) (dev : Nibble), s.eng.phase = .idle →
    (s.cfg.bus = .sio ∨ s.cfg.bus = .smartport → exec (.evRx x b) s = .next s)
    ∧ (s.cfg.bus = .iec ∨ s.cfg.bus = .adamnet →
        (hiNibble b ∉ [s.cfg.mnStatus, s.cfg.mnClr, s.cfg.mnReceive, s.cfg.mnSend, s.cfg.mnReady] →
          exec (.evRx x b) s = .next s)
        ∧ (configValid s.cfg = true →
          exec (.mnReset dev) s = .next s ∧ exec (.mnAck dev) s = .next s ∧ exec (.mnCancel dev) s = .next s
          ∧ exec (.mnNack dev) s = .next s
          ∧ (wellFormed s.cfg (.ctlUnassignedE dev) = true → exec (.ctlUnassignedE dev) s = .next s)
          ∧ (wellFormed s.cfg (.ctlUnassignedF dev) = true → exec (.ctlUnassignedF dev) s = .next s)))
    ∧ (s.cfg.bus = .fujibus → s.eng.fr.st = .hunt → b ≠ s.cfg.fbEnd → exec (.evRx x b) s = .next s)

/-- R137, R139 (header bytes 0 to 3 on a `LINE` bus): the byte is stored at index `HDRCNT` and summed, `HDRCNT` rises by one, the
engine rests in `FRAME_RX/S_HDR` and emits nothing. The SIO command bytes R, W, S are such bytes (R64). -/
def Obligations.HeaderBytesAreStoredAndSummed : Prop :=
  ∀ (s : State) (x : Bool) (b : Byte), s.cfg.bus = .sio ∨ s.cfg.bus = .smartport →
    (s.eng.phase = .cmdDetect ∧ s.eng.hdrCnt = 0) ∨ (s.eng.phase = .rxHdr ∧ s.eng.hdrCnt.toNat < 4) →
    ∃ m : Memory, (∀ i, m.read i = if i = s.eng.hdrCnt.toNat then some b else s.eng.hdrBuf.read i)
      ∧ (let t : State := { s with eng := { s.eng with
            phase := .rxHdr, hdrBuf := m, hdrCnt := s.eng.hdrCnt + 1,
            cs := { acc := absorbStep s.cfg s.eng.cs.acc b, matched := s.eng.cs.matched } } }
        exec (.evRx x b) s = .next t
        ∧ (b = 0x52 → exec .sioCmdR s = .next t)
        ∧ (b = 0x57 → exec .sioCmdW s = .next t)
        ∧ (b = 0x53 → exec .sioCmdS s = .next t))

/-- R140 with R142 and R141: the verdict on a complete header, in order: the first failing of device presence and header
checksum in `CHECK_ORDER`, then command lookup, then table length; and for a header that passes, the acknowledgement and where
the frame goes next. -/
def Obligations.HeaderVerdict : Prop :=
  ∀ (s : State) (hasCs : Bool) (ent : CmdEntry),
    let absent := slotPresent s.cfg s.eng.frame.deviceId = false
    let bad := hasCs = true ∧ s.eng.cs.matched = false
    let t : State := { s with eng := { s.eng with frame := { s.eng.frame with
      direction := ent.direction, expectedLength := ent.expectedLength, timeoutMs := ent.timeoutMs } } }
    let v : State := emitAll (cmdAck s.cfg) t
    (absent → (bad → s.cfg.checkOrder = .devFirst) → headerComplete hasCs s = .next (failWith [] .nodev s))
    ∧ (bad → (absent → s.cfg.checkOrder = .csumFirst) →
        headerComplete hasCs s = .next (failWith (nak s.cfg s.eng) .csum s))
    ∧ (¬ absent → ¬ bad → cmdEntry s.cfg s.eng.frame.command = none →
        headerComplete hasCs s = .next (failWith (unsupported s.cfg s.eng) .unsup s))
    ∧ (¬ absent → ¬ bad → cmdEntry s.cfg s.eng.frame.command = some ent →
        (lenMode s.cfg = .table → s.cfg.maxPayload.toNat < ent.expectedLength.toNat →
          headerComplete hasCs s = .next (failWith (nak t.cfg t.eng) .len t))
        ∧ ((lenMode s.cfg = .table → ent.expectedLength.toNat ≤ s.cfg.maxPayload.toNat) →
          (ent.direction = .write → lenMode s.cfg = .prefixed →
            headerComplete hasCs s = .next { v with eng := { v.eng with phase := .rxLenHi, cs := csClear s.cfg } })
          ∧ (ent.direction = .write → lenMode s.cfg ≠ .prefixed → 0 < ent.expectedLength.toNat →
            headerComplete hasCs s = .next { v with eng := { v.eng with
              phase := .rxPayload, pLen := ent.expectedLength, cs := csClear s.cfg } })
          ∧ (ent.direction ≠ .write ∨ lenMode s.cfg ≠ .prefixed ∧ ent.expectedLength.toNat = 0 →
            headerComplete hasCs s = doDispatch [] v)))

/-- R61, R139, R140 (a whole `F-HDR5` header that is refused): from `CMD_DETECT` on a `LINE` bus the five bytes are stored,
`FRAME` holds the first four, and the frame is answered by the first failing check, with nothing else changed. -/
def Obligations.FiveByteHeaderRefused : Prop :=
  ∀ (s : State) (d cmd a1 a2 k : Byte), s.cfg.bus = .sio ∨ s.cfg.bus = .smartport →
    s.eng.phase = .cmdDetect → s.eng.hdrCnt = 0 → s.eng.cs = csClear s.cfg →
    ∃ (m : Memory) (u : State),
      (∀ i, m.read i = if i < 5 then [d, cmd, a1, a2, k][i]? else s.eng.hdrBuf.read i)
      ∧ u = { s with eng := { s.eng with
          hdrBuf := m, hdrCnt := 5, phase := .rxHdr,
          cs := { acc := (csAbsorbAll s.cfg (csClear s.cfg) [d, cmd, a1, a2]).acc,
                  matched := decide (checksum s.cfg [d, cmd, a1, a2] = k) },
          frame := { s.eng.frame with deviceId := d, command := cmd, aux1 := a1, aux2 := a2 } } }
      ∧ (slotPresent s.cfg d = false → (checksum s.cfg [d, cmd, a1, a2] ≠ k → s.cfg.checkOrder = .devFirst) →
          exec (.fHdr5 d cmd a1 a2 k) s = .next (failWith [] .nodev u))
      ∧ (checksum s.cfg [d, cmd, a1, a2] ≠ k → (slotPresent s.cfg d = false → s.cfg.checkOrder = .csumFirst) →
          exec (.fHdr5 d cmd a1 a2 k) s =
            .next (failWith (if s.cfg.bus = .sio then [.tx [s.cfg.sioNak]] else []) .csum u))
      ∧ (slotPresent s.cfg d = true → checksum s.cfg [d, cmd, a1, a2] = k → cmdEntry s.cfg cmd = none →
          exec (.fHdr5 d cmd a1 a2 k) s = .next (failWith (unsupported s.cfg u.eng) .unsup u))
      ∧ (∀ ent, slotPresent s.cfg d = true → checksum s.cfg [d, cmd, a1, a2] = k → cmdEntry s.cfg cmd = some ent →
          s.cfg.maxPayload.toNat < ent.expectedLength.toNat →
          exec (.fHdr5 d cmd a1 a2 k) s =
            .next (failWith (if s.cfg.bus = .sio then [.tx [s.cfg.sioNak]] else []) .len (loadEntry ent u)))

/-- R61, R139 to R141, R146, R172, R173, R174 (a whole `F-HDR5` header that is accepted): it is acknowledged, then
dispatched at once, or, for a `Write` with a length, its payload is awaited. -/
def Obligations.FiveByteHeaderAccepted : Prop :=
  ∀ (s : State) (d cmd a1 a2 : Byte) (ent : CmdEntry), s.cfg.bus = .sio ∨ s.cfg.bus = .smartport →
    s.eng.phase = .cmdDetect → s.eng.hdrCnt = 0 → s.eng.cs = csClear s.cfg → s.eng.rxCnt = 0 →
    s.eng.lineOut = false → slotPresent s.cfg d = true → cmdEntry s.cfg cmd = some ent →
    ent.expectedLength.toNat ≤ s.cfg.maxPayload.toNat →
    let frame : Frame := {
      deviceId := d, command := cmd, aux1 := a1, aux2 := a2, direction := ent.direction,
      expectedLength := ent.expectedLength, timeoutMs := ent.timeoutMs }
    let acc := (csAbsorbAll s.cfg (csClear s.cfg) [d, cmd, a1, a2]).acc
    let ack : List Output :=
      if s.cfg.bus = .sio then [.tx [s.cfg.sioAck]] else [.line .ackl true, .line .ackl false]
    ∃ m : Memory, (∀ i, m.read i = if i < 5 then [d, cmd, a1, a2, checksum s.cfg [d, cmd, a1, a2]][i]?
        else s.eng.hdrBuf.read i)
      ∧ (¬ (ent.direction = .write ∧ 0 < ent.expectedLength.toNat) →
          exec (.fHdr5 d cmd a1 a2 (checksum s.cfg [d, cmd, a1, a2])) s = .next { s with
            trace := s.trace ++ ack ++ [.dispatch frame [] []],
            eng := { s.eng with
              hdrBuf := m, hdrCnt := 5, phase := .dispatch, frame := frame, cs := { acc := acc, matched := true } } })
      ∧ (ent.direction = .write ∧ 0 < ent.expectedLength.toNat →
          exec (.fHdr5 d cmd a1 a2 (checksum s.cfg [d, cmd, a1, a2])) s = .next { s with
            trace := s.trace ++ ack,
            eng := { s.eng with
              hdrBuf := m, hdrCnt := 5, phase := .rxPayload, frame := frame, pLen := ent.expectedLength,
              cs := csClear s.cfg } })

/-- R65, R135, R136, R139, R140, R142 (a control byte whose frame is refused): in `IDLE` on a control-byte bus each operation
of `DETECT_OPS` begins a frame in the same step; an absent device is silence, a command without an entry is the bus's
"unsupported" answer, a table length above the maximum the bus's NAK. -/
def Obligations.ControlByteRefused : Prop :=
  ∀ (s : State) (i : Instr) (code dev : Nibble), s.cfg.bus = .iec ∨ s.cfg.bus = .adamnet → s.eng.phase = .idle →
    startsFrame s.cfg dev i code →
    let nak : List Output := if s.cfg.bus = .iec then [] else [.tx [ctlByte s.cfg.nmNack dev]]
    ∃ (m : Memory) (u : State),
      (∀ j, m.read j = if j = 0 then some (ctlByte code dev) else s.eng.hdrBuf.read j)
      ∧ u = { s with eng := { s.eng with
          hdrBuf := m, hdrCnt := 1, rxCnt := 0, envCnt := 0, pLen := 0, lenHi := 0, err := .noError,
          cs := csClear s.cfg, phase := .rxHdr,
          frame := { s.eng.frame with
            deviceId := dev.zeroExtend 8, command := code.zeroExtend 8, aux1 := 0, aux2 := 0 } } }
      ∧ (slotPresent s.cfg (dev.zeroExtend 8) = false → exec i s = .next (failWith [] .nodev u))
      ∧ (slotPresent s.cfg (dev.zeroExtend 8) = true → cmdEntry s.cfg (code.zeroExtend 8) = none →
          exec i s = .next (failWith nak .unsup u))
      ∧ (∀ ent, slotPresent s.cfg (dev.zeroExtend 8) = true → cmdEntry s.cfg (code.zeroExtend 8) = some ent →
          s.cfg.bus = .iec → s.cfg.maxPayload.toNat < ent.expectedLength.toNat →
          exec i s = .next (failWith [] .len (loadEntry ent u)))

/-- R65, R135, R136, R139 to R141, R146, R193 to R195, R228 to R230 (a control byte whose frame is accepted): IEC
acknowledges with the pulse, AdamNet with nothing; then the frame is dispatched, or an IEC payload, or an AdamNet length prefix,
is awaited. -/
def Obligations.ControlByteAccepted : Prop :=
  ∀ (s : State) (i : Instr) (code dev : Nibble) (ent : CmdEntry), s.cfg.bus = .iec ∨ s.cfg.bus = .adamnet →
    s.eng.phase = .idle → s.eng.lineOut = false → startsFrame s.cfg dev i code →
    slotPresent s.cfg (dev.zeroExtend 8) = true → cmdEntry s.cfg (code.zeroExtend 8) = some ent →
    (s.cfg.bus = .iec → ent.expectedLength.toNat ≤ s.cfg.maxPayload.toNat) →
    let frame : Frame := {
      deviceId := dev.zeroExtend 8, command := code.zeroExtend 8, aux1 := 0, aux2 := 0,
      direction := ent.direction, expectedLength := ent.expectedLength, timeoutMs := ent.timeoutMs }
    let ack : List Output := if s.cfg.bus = .iec then [.line .ackl true, .line .ackl false] else []
    ∃ (m : Memory) (u : State), (∀ j, m.read j = if j = 0 then some (ctlByte code dev) else s.eng.hdrBuf.read j)
      ∧ u = { s with
          trace := s.trace ++ ack,
          eng := { s.eng with
            hdrBuf := m, hdrCnt := 1, rxCnt := 0, envCnt := 0, pLen := 0, lenHi := 0, err := .noError,
            cs := csClear s.cfg, frame := frame } }
      ∧ (ent.direction ≠ .write ∨ (s.cfg.bus = .iec ∧ ent.expectedLength.toNat = 0) →
          exec i s = .next { u with
            trace := u.trace ++ [.dispatch frame [] []], eng := { u.eng with phase := .dispatch } })
      ∧ (ent.direction = .write → s.cfg.bus = .iec → 0 < ent.expectedLength.toNat →
          exec i s = .next { u with eng := { u.eng with phase := .rxPayload, pLen := ent.expectedLength } })
      ∧ (ent.direction = .write → s.cfg.bus = .adamnet →
          exec i s = .next { u with eng := { u.eng with phase := .rxLenHi } })

/-! ### Receiving a payload -/

/-- R143: the two bytes of a length prefix, high byte first at the default order: a length above the ceiling is refused by
NAK before a byte is stored; otherwise `PLEN` holds it and the payload, or for length 0 its checksum, is awaited. -/
def Obligations.LengthPrefixIsChecked : Prop :=
  ∀ (s : State) (x : Bool) (b : Byte), s.cfg.lenPrefixOrder = .bigEndian →
    (s.eng.phase = .rxLenHi →
      exec (.evRx x b) s = .next { s with eng := { s.eng with lenHi := b, phase := .rxLenLo } })
    ∧ (s.eng.phase = .rxLenLo →
      let n := s.eng.lenHi.toNat * 256 + b.toNat
      (min s.eng.frame.expectedLength.toNat s.cfg.maxPayload.toNat < n →
        exec (.evRx x b) s = .next (failWith (nak s.cfg s.eng) .len s))
      ∧ (n ≤ min s.eng.frame.expectedLength.toNat s.cfg.maxPayload.toNat →
        exec (.evRx x b) s = .next { s with eng := { s.eng with
          pLen := BitVec.ofNat 16 n, phase := if 0 < n then .rxPayload else .rxPcsum } }))

/-- R144: a payload byte is stored at index `RXCNT` and summed, `RXCNT` rises by one, and at `PLEN` the checksum is awaited. -/
def Obligations.PayloadByteIsStoredAndSummed : Prop :=
  ∀ (s : State) (x : Bool) (b : Byte), s.eng.phase = .rxPayload → s.eng.rxCnt.toNat < s.eng.pLen.toNat →
    s.eng.pLen.toNat ≤ s.cfg.maxPayload.toNat →
    ∃ m : Memory, (∀ i, m.read i = if i = s.eng.rxCnt.toNat then some b else s.eng.rxBuf.read i)
      ∧ exec (.evRx x b) s = .next { s with eng := { s.eng with
          rxBuf := m, rxCnt := s.eng.rxCnt + 1,
          cs := { acc := absorbStep s.cfg s.eng.cs.acc b, matched := s.eng.cs.matched },
          phase := if s.eng.rxCnt + 1 = s.eng.pLen then .rxPcsum else .rxPayload } }

/-- R145, with R146: the payload checksum: on a match the payload is acknowledged and dispatched with `RXBUF[0..RXCNT-1]`, on
a mismatch the bus's NAK and `E_CSUM`, and nothing is dispatched. -/
def Obligations.PayloadChecksumDecides : Prop :=
  ∀ (s : State) (x : Bool) (b : Byte), s.eng.phase = .rxPcsum → s.eng.lineOut = false →
    s.eng.rxCnt.toNat ≤ s.cfg.maxPayload.toNat → writtenBelow s.eng.rxBuf s.eng.rxCnt.toNat →
    (csResult s.cfg s.eng.cs = b →
      ∃ payload : List Byte, payload.length = s.eng.rxCnt.toNat
        ∧ (∀ i < s.eng.rxCnt.toNat, payload[i]? = s.eng.rxBuf.read i)
        ∧ exec (.evRx x b) s = .next { s with
            trace := s.trace ++ payloadAck s.cfg ++ [.dispatch s.eng.frame [] payload],
            eng := { s.eng with phase := .dispatch, cs := { acc := s.eng.cs.acc, matched := true } } })
    ∧ (csResult s.cfg s.eng.cs ≠ b →
        exec (.evRx x b) s = .next (failWith (nak s.cfg s.eng) .csum
          { s with eng := { s.eng with cs := { acc := s.eng.cs.acc, matched := false } } }))

/-- R62, R144 to R146: a whole inbound `F-DATA` block where `PLEN` bytes are awaited: `RXBUF` holds the data and the trailing
byte decides between dispatch and NAK. -/
def Obligations.DataBlockIsReceived : Prop :=
  ∀ (s : State) (k : Byte) (data : List Byte), s.eng.phase = .rxPayload → s.eng.rxCnt = 0 →
    s.eng.cs = csClear s.cfg → s.eng.pLen.toNat = data.length → data ≠ [] →
    data.length ≤ s.cfg.maxPayload.toNat → s.eng.lineOut = false →
    ∃ (m : Memory) (u : State), (∀ i, m.read i = if i < data.length then data[i]? else s.eng.rxBuf.read i)
      ∧ u = { s with eng := { s.eng with
          rxBuf := m, rxCnt := s.eng.pLen, phase := .rxPcsum,
          cs := { acc := (csAbsorbAll s.cfg (csClear s.cfg) data).acc,
                  matched := decide (checksum s.cfg data = k) } } }
      ∧ (checksum s.cfg data = k →
          exec (.fData (.received k) data) s = .next { u with
            trace := s.trace ++ payloadAck s.cfg ++ [.dispatch s.eng.frame [] data],
            eng := { u.eng with phase := .dispatch } })
      ∧ (checksum s.cfg data ≠ k →
          exec (.fData (.received k) data) s = .next (failWith (nak s.cfg s.eng) .csum u))

/-- R67, R141, R143 to R146, R228: a whole `F-LPKT` packet from the host on an idle AdamNet engine, of a present device and
within the ceiling: dispatched with its data where the trailing byte is the checksum, `NM_NACK` and `E_CSUM` where not. -/
def Obligations.AdamnetSendPacketIsReceived : Prop :=
  ∀ (s : State) (k : Byte) (dev : Nibble) (data : List Byte) (ent : CmdEntry), s.cfg.bus = .adamnet →
    s.eng.phase = .idle → s.eng.lineOut = false → slotPresent s.cfg (dev.zeroExtend 8) = true →
    cmdEntry s.cfg (s.cfg.mnSend.zeroExtend 8) = some ent → ent.direction = .write →
    data.length ≤ min ent.expectedLength.toNat s.cfg.maxPayload.toNat →
    let frame : Frame := {
      deviceId := dev.zeroExtend 8, command := s.cfg.mnSend.zeroExtend 8, aux1 := 0, aux2 := 0,
      direction := .write, expectedLength := ent.expectedLength, timeoutMs := ent.timeoutMs }
    ∃ t, exec (.fLpkt (.hostSend k) dev data) s = .next t
      ∧ t.eng.frame = frame
      ∧ (∀ i, t.eng.rxBuf.read i = if i < data.length then data[i]? else s.eng.rxBuf.read i)
      ∧ t.eng.rxCnt.toNat = data.length ∧ t.eng.envBuf = s.eng.envBuf
      ∧ (∀ i, t.eng.hdrBuf.read i = if i = 0 then some (ctlByte s.cfg.mnSend dev) else s.eng.hdrBuf.read i)
      ∧ t.cfg = s.cfg ∧ t.cs = s.cs ∧ t.fr = s.fr ∧ t.script = s.script ∧ t.returned = s.returned
      ∧ t.taken = s.taken ∧ t.draws = s.draws
      ∧ (checksum s.cfg data = k → t.eng.phase = .dispatch ∧ t.eng.err = .noError
          ∧ t.trace = s.trace ++ [.dispatch frame [] data])
      ∧ (checksum s.cfg data ≠ k → t.eng.phase = .idle ∧ t.eng.err = .csum
          ∧ t.trace = s.trace ++ [.tx [ctlByte s.cfg.nmNack dev]])

/-- R150: while the host's acknowledgement is awaited: ACK from the addressed device's host ends the transaction, NACK ends
it with `E_HOSTNAK`, any other byte is discarded, and nothing is sent again in any case. -/
def Obligations.HostAcknowledgementEndsTheWait : Prop :=
  ∀ (s : State) (x : Bool) (b : Byte) (y : BitVec 9) (dev : Nibble), s.cfg.bus = .adamnet →
    s.cfg.mnAck ≠ s.cfg.mnNack → s.eng.phase = .waitHostAck → dev = loNibble s.eng.frame.deviceId →
    exec (.mnAck dev) s = .next { s with eng := { s.eng with phase := .idle } }
    ∧ exec (.mnNack dev) s = .next { s with eng := { s.eng with phase := .idle, err := .hostnak } }
    ∧ exec (.evRx x (ctlByte s.cfg.mnAck dev)) s = .next { s with eng := { s.eng with phase := .idle } }
    ∧ exec (.evRx x (ctlByte s.cfg.mnNack dev)) s =
        .next { s with eng := { s.eng with phase := .idle, err := .hostnak } }
    ∧ (b ≠ ctlByte s.cfg.mnAck dev → b ≠ ctlByte s.cfg.mnNack dev → exec (.evRx x b) s = .next s)
    ∧ exec (.evTimeout y) s = .next { s with eng := { s.eng with phase := .idle, err := .timeout } }

/-! ### Receiving a FujiBus envelope -/

/-- R246, with R136: a byte in `IDLE` or in `CMD_DETECT` on FujiBus by what the decoder returns: `FrameStart` begins a frame,
`Nothing` changes no register but the decoder's, the first data byte is stored as `ENVBUF[ENVCNT]` in `FRAME_RX/S_ENV`, a broken
escape and nothing else fails with `E_ESCAPE`; no other output can occur. -/
def Obligations.OpeningByteFollowsTheDecoder : Prop :=
  ∀ (s : State) (x : Bool) (b : Byte), s.cfg.bus = .fujibus →
    let u : State := { s with eng := { s.eng with fr := (decStep s.cfg s.eng.fr b).1 } }
    let out : DecOut := (decStep s.cfg s.eng.fr b).2
    (s.eng.phase = .idle → s.eng.fr.st = .hunt →
      (out = .frameStart → exec (.evRx x b) s = .next { u with eng := { u.eng with
        hdrCnt := 0, rxCnt := 0, envCnt := 0, pLen := 0, lenHi := 0, err := .noError,
        cs := { acc := csInit s.cfg, matched := false }, phase := .cmdDetect } })
      ∧ (out = .nothing → exec (.evRx x b) s = .next s)
      ∧ (out = .frameStart ∨ out = .nothing))
    ∧ (s.eng.phase = .cmdDetect → s.eng.fr.st ≠ .hunt → s.eng.fr.ne = false → s.eng.envCnt = 0 →
      (out = .nothing → exec (.evRx x b) s = .next u)
      ∧ (∀ d, out = .data d →
        ∃ m : Memory, (∀ i, m.read i = if i = 0 then some d else s.eng.envBuf.read i)
          ∧ exec (.evRx x b) s = .next { u with eng := { u.eng with phase := .rxEnv, envBuf := m, envCnt := 1 } })
      ∧ (out = .frameEnd false → exec (.evRx x b) s = .next (failWith [] .escape u))
      ∧ (out = .nothing ∨ (∃ d, out = .data d) ∨ out = .frameEnd false))

/-- R70, R246, R247 (the four framing bytes): the delimiter opens a frame in `IDLE`; inside an envelope the escape byte stores
nothing, and after it the two substitutes store the delimiter and the escape byte at index `ENVCNT`, which then counts up; past
65535 it holds a free value (log entry 17). -/
def Obligations.FramingBytesOpenAndEscape : Prop :=
  ∀ (s : State), s.cfg.bus = .fujibus → (framingBytes s.cfg).Nodup →
    (s.eng.phase = .idle → s.eng.fr.st = .hunt →
      exec .fbEnd s = .next { s with eng := { s.eng with
        hdrCnt := 0, rxCnt := 0, envCnt := 0, pLen := 0, lenHi := 0, err := .noError,
        cs := { acc := csInit s.cfg, matched := false }, phase := .cmdDetect,
        fr := { st := .data, err := false, ne := false } } })
    ∧ (s.eng.phase = .rxEnv → s.eng.fr.st = .data →
      exec .fbEsc s = .next { s with eng := { s.eng with
        fr := { st := .esc, err := s.eng.fr.err, ne := s.eng.fr.ne } } })
    ∧ (s.eng.phase = .rxEnv → s.eng.fr.st = .esc → s.eng.envCnt.toNat < envMax s.cfg →
      let cnt : Half := if s.eng.envCnt = 0xFFFF then Config.envCntPastEnd s.draws else s.eng.envCnt + 1
      let draws : Nat := if s.eng.envCnt = 0xFFFF then s.draws + 1 else s.draws
      ∃ m1 m2 : Memory,
        (∀ i, m1.read i = if i = s.eng.envCnt.toNat then some s.cfg.fbEnd else s.eng.envBuf.read i)
        ∧ (∀ i, m2.read i = if i = s.eng.envCnt.toNat then some s.cfg.fbEsc else s.eng.envBuf.read i)
        ∧ exec .fbEscEnd s = .next { s with draws := draws, eng := { s.eng with
            envBuf := m1, envCnt := cnt, fr := { st := .data, err := s.eng.fr.err, ne := true } } }
        ∧ exec .fbEscEsc s = .next { s with draws := draws, eng := { s.eng with
            envBuf := m2, envCnt := cnt, fr := { st := .data, err := s.eng.fr.err, ne := true } } })

/-- R247: a byte in `FRAME_RX/S_ENV` by what the decoder returns: a data byte is stored, or fails with `E_OVERRUN` where
`ENVBUF` is full; a bad frame's end fails with `E_ESCAPE`; a good one completes the envelope. Where `ENV_MAX` is above 65535 a
count past the 16 bits of `ENVCNT` is a free value, by the model's choice (log entry 17). -/
def Obligations.EnvelopeByteFollowsTheDecoder : Prop :=
  ∀ (s : State) (x : Bool) (b : Byte), s.eng.phase = .rxEnv → s.eng.envCnt.toNat ≤ envMax s.cfg →
    let u : State := { s with eng := { s.eng with fr := (decStep s.cfg s.eng.fr b).1 } }
    ((decStep s.cfg s.eng.fr b).2 = .nothing → exec (.evRx x b) s = .next u)
    ∧ ((decStep s.cfg s.eng.fr b).2 = .frameEnd false → exec (.evRx x b) s = .next (failWith [] .escape u))
    ∧ ((decStep s.cfg s.eng.fr b).2 = .frameEnd true → exec (.evRx x b) s = envelopeComplete u)
    ∧ (∀ d, (decStep s.cfg s.eng.fr b).2 = .data d →
        (s.eng.envCnt.toNat = envMax s.cfg → exec (.evRx x b) s = .next (failWith [] .overrun u))
        ∧ (s.eng.envCnt.toNat < envMax s.cfg →
          ∃ m : Memory, (∀ i, m.read i = if i = s.eng.envCnt.toNat then some d else s.eng.envBuf.read i)
            ∧ (s.eng.envCnt ≠ 0xFFFF → exec (.evRx x b) s =
                .next { u with eng := { u.eng with envBuf := m, envCnt := s.eng.envCnt + 1 } })
            ∧ (s.eng.envCnt = 0xFFFF → exec (.evRx x b) s = .next { u with
                draws := s.draws + 1, eng := { u.eng with envBuf := m, envCnt := Config.envCntPastEnd s.draws } })))

/-- R70, R246, R247, R248 steps 0 and 3: any stuffed frame that fits `ENVBUF` and whose length fits `ENVCNT`, on an idle
FujiBus engine: it is received whole into `ENVBUF`, the engine ends in `IDLE` or `DISPATCH`, and a body of fewer than five bytes,
or one whose declared fields do not fit (step 3), is a silent `E_TRUNC`. -/
def Obligations.StuffedFrameIsReceivedWhole : Prop :=
  ∀ (s : State) (body : List Byte), configValid s.cfg = true → s.cfg.bus = .fujibus → s.eng.phase = .idle →
    s.eng.fr.st = .hunt → body ≠ [] → body.length ≤ envMax s.cfg → body.length < 65536 →
    ∃ t, exec (.fStuff .toDevice body) s = .next t
      ∧ (∀ i, t.eng.envBuf.read i = if i < body.length then body[i]? else s.eng.envBuf.read i)
      ∧ t.eng.envCnt.toNat = body.length ∧ t.eng.hdrBuf = s.eng.hdrBuf ∧ t.eng.fr.st = .hunt
      ∧ (t.eng.phase = .idle ∨ t.eng.phase = .dispatch)
      ∧ t.cfg = s.cfg ∧ t.cs = s.cs ∧ t.fr = s.fr ∧ t.script = s.script ∧ t.returned = s.returned
      ∧ t.taken = s.taken ∧ t.draws = s.draws
      ∧ (body.length < 5 → t.eng.phase = .idle ∧ t.eng.err = .trunc ∧ t.trace = s.trace
          ∧ t.eng.rxBuf = s.eng.rxBuf ∧ t.eng.frame = s.eng.frame)
      ∧ (∀ seq cmd pc dev rest k, body = [seq, cmd, pc, dev] ++ rest ++ [k] → rest.length < 4 * pc.toNat →
          slotPresent s.cfg dev = true → checksum s.cfg ([seq, cmd, pc, dev] ++ rest) = k →
          t.eng.phase = .idle ∧ t.eng.err = .trunc ∧ t.trace = s.trace ∧ t.eng.rxBuf = s.eng.rxBuf)

/-- R71, R248, R249 (an envelope that is refused), on an idle FujiBus engine: `ENVBUF` holds the envelope, the first failing
step decides the answer and the code, and `RXBUF` is left as it was. An envelope too long for `ENVCNT` is left to
EnvelopeByteFollowsTheDecoder (log entry 17). -/
def Obligations.EnvelopeRefused : Prop :=
  ∀ (s : State) (seq cmd dev k : Byte) (fields : List Field) (payload : List Byte), configValid s.cfg = true →
    s.cfg.bus = .fujibus → s.eng.phase = .idle → s.eng.fr.st = .hunt → fields.length < 256 →
    (envBytes s.cfg seq cmd dev fields payload k).length ≤ envMax s.cfg →
    (envBytes s.cfg seq cmd dev fields payload k).length < 65536 →
    let body := (envBytes s.cfg seq cmd dev fields payload k).dropLast
    let good := checksum s.cfg body = k
    let answer : Field → List Output := fun st => [.tx (frameBytes s.cfg (envRespBytes s.cfg seq cmd dev st []))]
    ∃ t, exec (.fEnv seq cmd dev fields payload k) s = .next t
      ∧ (∀ i, t.eng.envBuf.read i = if i < (body ++ [k]).length then (body ++ [k])[i]? else s.eng.envBuf.read i)
      ∧ t.eng.fbSeq = seq ∧ t.eng.fbPc.toNat = fields.length ∧ t.eng.frame.command = cmd
      ∧ t.eng.frame.deviceId = dev
      ∧ t.cfg = s.cfg ∧ t.cs = s.cs ∧ t.fr = s.fr ∧ t.script = s.script ∧ t.returned = s.returned
      ∧ t.taken = s.taken ∧ t.draws = s.draws
      ∧ t.eng.hdrBuf = s.eng.hdrBuf
      ∧ (slotPresent s.cfg dev = false → (¬ good → s.cfg.checkOrder = .devFirst) →
          t.eng.phase = .idle ∧ t.eng.err = .nodev ∧ t.trace = s.trace
            ∧ t.eng.rxBuf = s.eng.rxBuf)
      ∧ (¬ good → (slotPresent s.cfg dev = false → s.cfg.checkOrder = .csumFirst) →
          t.eng.phase = .idle ∧ t.eng.err = .csum ∧ t.trace = s.trace
            ∧ t.eng.rxBuf = s.eng.rxBuf)
      ∧ (slotPresent s.cfg dev = true → good → cmdEntry s.cfg cmd = none →
          t.eng.phase = .idle ∧ t.eng.err = .unsup ∧ t.trace = s.trace ++ answer s.cfg.fbStUnsupported
            ∧ t.eng.rxBuf = s.eng.rxBuf)
      ∧ (∀ ent, slotPresent s.cfg dev = true → good → cmdEntry s.cfg cmd = some ent →
          (ent.direction ≠ .write → payload ≠ [] →
            t.eng.phase = .idle ∧ t.eng.err = .dir ∧ t.trace = s.trace ++ answer s.cfg.fbStInvalid
            ∧ t.eng.rxBuf = s.eng.rxBuf)
          ∧ (ent.direction = .write → min ent.expectedLength.toNat s.cfg.maxPayload.toNat < payload.length →
            t.eng.phase = .idle ∧ t.eng.err = .len ∧ t.trace = s.trace
            ∧ t.eng.rxBuf = s.eng.rxBuf))

/-- R71, R146, R248, R249, R251 (an envelope that is accepted), on an idle FujiBus engine: it is dispatched with its fields and
its payload, and `FRAME`, `FB_SEQ`, `FB_PC`, `RXBUF` and `ENVBUF` hold what the rules put there. Under a big-endian
`FB_FIELD_ORDER`, where R248 prints the bytes of the other order, `aux1` and `aux2` are the fields' low bytes by the model's choice
(log entry 20). An envelope too long for `ENVCNT` is left to EnvelopeByteFollowsTheDecoder (log entry 17). -/
def Obligations.EnvelopeAccepted : Prop :=
  ∀ (s : State) (seq cmd dev : Byte) (fields : List Field) (payload : List Byte) (ent : CmdEntry),
    configValid s.cfg = true → s.cfg.bus = .fujibus → s.eng.phase = .idle → s.eng.fr.st = .hunt →
    fields.length < 256 → payload.length ≤ s.cfg.maxPayload.toNat → slotPresent s.cfg dev = true →
    cmdEntry s.cfg cmd = some ent → (ent.direction ≠ .write → payload = []) →
    payload.length ≤ ent.expectedLength.toNat → 5 + 4 * fields.length + payload.length < 65536 →
    let body := [seq, cmd, BitVec.ofNat 8 fields.length, dev] ++ fields.flatMap (split32 s.cfg.fbFieldOrder) ++ payload
    let low : Nat → Byte := fun i => ((fields[i]?).map (fun f => f.extractLsb' 0 8)).getD 0
    let frame : Frame := {
      deviceId := dev, command := cmd, aux1 := low 0, aux2 := low 1, direction := ent.direction,
      expectedLength := ent.expectedLength, timeoutMs := ent.timeoutMs }
    let k := checksum s.cfg body
    ∃ m1 m2 : Memory,
      (∀ i, m1.read i = if i < body.length + 1 then (body ++ [k])[i]? else s.eng.envBuf.read i)
      ∧ (∀ i, m2.read i = if i < payload.length then payload[i]? else s.eng.rxBuf.read i)
      ∧ exec (.fEnv seq cmd dev fields payload k) s = .next { s with
          trace := s.trace ++ [.dispatch frame fields payload],
          eng := { s.eng with
            envBuf := m1, envCnt := BitVec.ofNat 16 (body.length + 1), rxBuf := m2,
            rxCnt := BitVec.ofNat 16 payload.length, hdrCnt := 0, pLen := 0, lenHi := 0, err := .noError,
            phase := .dispatch, frame := frame, fbSeq := seq, fbPc := BitVec.ofNat 8 fields.length,
            cs := { acc := (csAbsorbAll s.cfg (csClear s.cfg) body).acc, matched := true },
            fr := { st := .hunt, err := false, ne := true } } }

/-! ### What the engine sends, and rows that stand for received bytes -/

/-- R40, R43, R62, R63, R66 to R69, R72: a symbol or a format that only the device sends is read by the transport off the transmit
stream, where it comes next there and the bus is one whose profile has it, and otherwise nothing happens; nothing is sent by such a
row, and CANCEL is never sent. That such a row stands for the reading of its bytes is the model's choice (log entry 9). -/
def Obligations.SentFormsAreReadOffTheStream : Prop :=
  ∀ (s : State) (dev op : Nibble) (st seq cmd id : Byte) (f : Field) (data body : List Byte),
    let stream : List Byte := (s.trace.flatMap (fun o => match o with | .tx l => l | _ => [])).drop s.taken
    let reads : Instr → List Bus → List Byte → Prop := fun i buses bytes =>
      (s.cfg.bus ∈ buses → bytes <+: stream → exec i s = .next { s with taken := s.taken + bytes.length })
      ∧ (¬ (s.cfg.bus ∈ buses ∧ bytes <+: stream) → exec i s = .next s)
    reads .sioAck [.sio] [s.cfg.sioAck] ∧ reads .sioNak [.sio] [s.cfg.sioNak]
    ∧ reads .sioComplete [.sio] [s.cfg.sioComplete] ∧ reads .sioError [.sio] [s.cfg.sioError]
    ∧ reads (.nmStatus dev) [.iec, .adamnet] [ctlByte s.cfg.nmStatus dev]
    ∧ reads (.nmAck dev) [.iec, .adamnet] [ctlByte s.cfg.nmAck dev]
    ∧ reads (.nmSend dev) [.iec, .adamnet] [ctlByte s.cfg.nmSend dev]
    ∧ reads (.nmNack dev) [.iec, .adamnet] [ctlByte s.cfg.nmNack dev]
    ∧ exec (.nmCancel dev) s = .next s
    ∧ (op ∈ [s.cfg.nmStatus, s.cfg.nmAck, s.cfg.nmSend, s.cfg.nmNack] →
        reads (.fCtl .toHost op dev) [.iec, .adamnet] [ctlByte op dev])
    ∧ (op ∉ [s.cfg.nmStatus, s.cfg.nmAck, s.cfg.nmSend, s.cfg.nmNack] → exec (.fCtl .toHost op dev) s = .next s)
    ∧ (data ≠ [] → reads (.fData .sent data) [.sio] (data ++ [checksum s.cfg data]))
    ∧ exec (.fData .sent []) s = .next s
    ∧ reads (.fLpkt .devStatus dev data) [.adamnet] ([ctlByte s.cfg.nmStatus dev]
        ++ split16 s.cfg.lenPrefixOrder (BitVec.ofNat 16 data.length) ++ data ++ [checksum s.cfg data])
    ∧ reads (.fLpkt .devSend dev data) [.adamnet] ([ctlByte s.cfg.nmSend dev]
        ++ split16 s.cfg.lenPrefixOrder (BitVec.ofNat 16 data.length) ++ data ++ [checksum s.cfg data])
    ∧ reads (.fIecd dev data) [.iec] ([ctlByte s.cfg.nmSend dev] ++ data ++ [checksum s.cfg data])
    ∧ reads (.fIecs dev st) [.iec] [ctlByte s.cfg.nmStatus dev, st]
    ∧ reads (.fSpr st data) [.smartport] ([st] ++ data ++ [checksum s.cfg ([st] ++ data)])
    ∧ reads (.fStuff .toHost body) [.fujibus] ([s.cfg.fbEnd] ++ encodeEscape s.cfg body ++ [s.cfg.fbEnd])
    ∧ reads (.fEnvResp seq cmd id f data) [.fujibus] ([s.cfg.fbEnd] ++ encodeEscape s.cfg
        (let b := [seq, cmd, 0x01, id] ++ split32 s.cfg.fbFieldOrder f ++ data
         b ++ [checksum s.cfg b]) ++ [s.cfg.fbEnd])

/-- R43, R301, with R66 and R176: what an instruction adds to the output trace, from a state that meets the invariant.
`DRV_EN` is 1 at the positions of the bursts and 0 at every other position, the trace's end (between events) among them; R43 speaks
of times, and that the positions of the trace stand for them is the model's reading (log entry 22, DEDUCED). A burst answers bytes of the host or is the response to the
dispatcher's answer; a byte in `DISPATCH`, in `S_WAIT_HOST_ACK`, or in `IDLE` but on a control-byte bus, is answered by none;
`ACKL` moves in answer to the host or at reset only. SIO sends a data block only for a `Read` with a length, in its response; a
control-byte bus sends no code but the four that R66 marks as sent, so never CANCEL. Which rows stand for bytes of the host is
the model's choice (log entry 8). -/
def Obligations.EngineSendsOnlyInAnswer : Prop :=
  ∀ (i : Instr) (s t : State), Inv s → exec i s = .next t →
    ∃ os : List Output, t.trace = s.trace ++ os
      ∧ (∀ n, drvEn t.trace n = true ↔
          drvEn s.trace n = true ∨ ∃ k bytes, n = s.trace.length + k ∧ os[k]? = some (.tx bytes))
      ∧ drvEn t.trace t.trace.length = false
      ∧ (∀ bytes, .tx bytes ∈ os →
          fromHost i = true ∨ (s.eng.phase = .dispatch ∧ ∃ status data, i = .evDispatchDone status data))
      ∧ (∀ x b bytes, i = .evRx x b → .tx bytes ∈ os →
          s.eng.phase ≠ .dispatch ∧ s.eng.phase ≠ .waitHostAck ∧ (s.eng.phase = .idle → detect s.cfg = .controlByte))
      ∧ (∀ v, .line .ackl v ∈ os → fromHost i = true ∨ ((∃ x, i = .evReset x) ∧ v = false))
      ∧ (s.cfg.bus = .sio → ∀ bytes, .tx bytes ∈ os → bytes = [s.cfg.sioAck] ∨ bytes = [s.cfg.sioNak]
          ∨ ∃ status data, i = .evDispatchDone status data
            ∧ (bytes = [s.cfg.sioComplete] ∨ bytes = [s.cfg.sioError]
              ∨ s.eng.frame.direction = .read ∧ 0 < s.eng.frame.expectedLength.toNat
                ∧ data.length = s.eng.frame.expectedLength.toNat
                ∧ bytes = [if status = 0x00 then s.cfg.sioComplete else s.cfg.sioError] ++ data
                    ++ [checksum s.cfg data]))
      ∧ (s.cfg.bus = .iec ∨ s.cfg.bus = .adamnet → ∀ bytes, .tx bytes ∈ os →
          ∃ code dev rest, bytes = ctlByte code dev :: rest
            ∧ code ∈ [s.cfg.nmStatus, s.cfg.nmAck, s.cfg.nmSend, s.cfg.nmNack])

/-- R42: a row of the table that the host sends is the arrival of its bytes, one `EvRx` each in order, in any state. That
such a row is an instruction of the machine is the model's choice (log entry 8). -/
def Obligations.ReceivedFormsAreTheirBytes : Prop :=
  ∀ (s : State) (x : Bool) (dev op : Nibble) (d cmd a1 a2 k : Byte) (data body : List Byte) (fields : List Field),
    let rx : Byte → Res := fun b => exec (.evRx x b) s
    let run : List Byte → Res := fun l => l.foldl (fun r b => andThen r (exec (.evRx x b))) (.next s)
    exec (.mnReset dev) s = rx (ctlByte s.cfg.mnReset dev) ∧ exec (.mnStatus dev) s = rx (ctlByte s.cfg.mnStatus dev)
    ∧ exec (.mnAck dev) s = rx (ctlByte s.cfg.mnAck dev) ∧ exec (.mnClr dev) s = rx (ctlByte s.cfg.mnClr dev)
    ∧ exec (.mnReceive dev) s = rx (ctlByte s.cfg.mnReceive dev)
    ∧ exec (.mnCancel dev) s = rx (ctlByte s.cfg.mnCancel dev) ∧ exec (.mnSend dev) s = rx (ctlByte s.cfg.mnSend dev)
    ∧ exec (.mnNack dev) s = rx (ctlByte s.cfg.mnNack dev) ∧ exec (.mnReady dev) s = rx (ctlByte s.cfg.mnReady dev)
    ∧ exec (.ctlUnassignedE dev) s = rx (ctlByte 0xE dev) ∧ exec (.ctlUnassignedF dev) s = rx (ctlByte 0xF dev)
    ∧ exec (.fCtl .toDevice op dev) s = rx (ctlByte op dev)
    ∧ exec .sioCmdR s = rx 0x52 ∧ exec .sioCmdW s = rx 0x57 ∧ exec .sioCmdS s = rx 0x53
    ∧ exec .fbEnd s = rx s.cfg.fbEnd ∧ exec .fbEsc s = rx s.cfg.fbEsc
    ∧ exec .fbEscEnd s = rx s.cfg.fbEscEnd ∧ exec .fbEscEsc s = rx s.cfg.fbEscEsc
    ∧ exec (.fHdr5 d cmd a1 a2 k) s = run [d, cmd, a1, a2, k]
    ∧ (data ≠ [] → exec (.fData (.received k) data) s = run (data ++ [k]))
    ∧ exec (.fLpkt (.hostSend k) dev data) s = run ([ctlByte s.cfg.mnSend dev]
        ++ split16 s.cfg.lenPrefixOrder (BitVec.ofNat 16 data.length) ++ data ++ [k])
    ∧ exec (.fStuff .toDevice body) s = run ([s.cfg.fbEnd] ++ encodeEscape s.cfg body ++ [s.cfg.fbEnd])
    ∧ exec (.fEnv a1 cmd d fields data k) s = run ([s.cfg.fbEnd] ++ encodeEscape s.cfg
        ([a1, cmd, BitVec.ofNat 8 fields.length, d] ++ fields.flatMap (split32 s.cfg.fbFieldOrder) ++ data ++ [k])
        ++ [s.cfg.fbEnd])

/-! ### The whole machine -/

/-- The invariant holds right after reset, in `State.reset` and under every configuration that R294 allows. -/
def Obligations.InvariantHoldsAtReset : Prop :=
  Inv State.reset ∧ ∀ c : Config, configValid c = true → Inv (State.resetOf c)

/-- Every step keeps the invariant: the phase stays one R17 allows for the profile, the counters stay within their buffers,
every byte below a counter has been written, the buffers stay in canonical form, the FujiBus decoder is where the phase says, `ACKL`
is released between events, a payload is awaited for a `Write` only and its length is one that was checked. -/
def Obligations.EveryStepKeepsTheInvariant : Prop :=
  ∀ s t : State, Inv s → Sys2Proof.Machine.step s = .next t → Inv t

/-- R130: from a state that meets the invariant every instruction runs to a next state, with no fault and no refusal; and a
step stops only on an input that is no word of its form (the model's choice, log entry 24), or on a change of the tables (an input
by the model's choice, log entry 19) that R294 forbids. -/
def Obligations.EngineNeverBlocksAndNeverFaults : Prop :=
  ∀ s : State, Inv s →
    (∀ i : Instr, ∃ t, exec i s = .next t)
    ∧ ((∃ t, Sys2Proof.Machine.step s = .next t) ∨ expectedStop (Sys2Proof.Machine.step s))

/-- R17, R157: what one event can make of the phase, from a state that meets the invariant (`CMD_DETECT` and `RESP_TX` are
passed through inside a step where the rules say so). Every received row, and every other instruction, obeys the last clause:
`DISPATCH` is left only by an answer or a reset. -/
def Obligations.PhaseTransitions : Prop :=
  ∀ s t : State, Inv s →
    (∀ w l, exec (decodeEv w l) s = .next t →
      (s.eng.phase.st, t.eng.phase.st) ∈
        [(.idle, .idle), (.idle, .cmdDetect), (.cmdDetect, .cmdDetect), (.cmdDetect, .frameRx), (.cmdDetect, .idle),
         (.frameRx, .frameRx), (.frameRx, .dispatch), (.frameRx, .idle), (.dispatch, .dispatch), (.dispatch, .respTx),
         (.dispatch, .idle), (.respTx, .respTx), (.respTx, .idle)]
      ∨ (detect s.cfg = .controlByte ∧ s.eng.phase = .idle
          ∧ t.eng.phase ∈ [Phase.rxLenHi, Phase.rxPayload, Phase.dispatch]))
    ∧ (∀ i, exec i s = .next t → s.eng.phase = .dispatch → t.eng.phase ≠ .dispatch →
        (∃ x, i = .evReset x) ∨ (∃ st d, i = .evDispatchDone st d) ∨ (∃ x, i = .evDispatchNodevice x))

/-- R146, R158: what comes before a `Dispatch`, from a state that meets the invariant. A received byte emits at most one, exactly when
it brings the engine to `DISPATCH`, with a copy of `FRAME` and a payload within the bound; the checksum, where the frame has one,
matched. Where the header or envelope is checked by that byte, the device is present and `FRAME` holds the command's table entry.
Where the byte is a payload's checksum, it matched, and `FRAME` is what the header left: a phase with a payload to come is entered
only by the byte that passed a header with the same checks, for a `Write`, and no event changes `FRAME` from there to the
`Dispatch`. What is no received byte dispatches nothing. -/
def Obligations.DispatchOnlyAfterEveryCheck : Prop :=
  ∀ (s t : State), Inv s →
    let present : Prop := slotPresent s.cfg t.eng.frame.deviceId = true
    let loaded : CmdEntry → Prop := fun ent =>
      cmdEntry s.cfg t.eng.frame.command = some ent ∧ t.eng.frame.direction = ent.direction
        ∧ t.eng.frame.expectedLength = ent.expectedLength ∧ t.eng.frame.timeoutMs = ent.timeoutMs
    (∀ x b, exec (.evRx x b) s = .next t →
      (t.eng.phase = .dispatch → s.eng.phase ≠ .dispatch →
        ∃ (os : List Output) (fields : List Field) (payload : List Byte),
          t.trace = s.trace ++ os ++ [.dispatch t.eng.frame fields payload]
          ∧ (∀ o ∈ os, ∀ f fl p, o ≠ .dispatch f fl p)
          ∧ payload.length = t.eng.rxCnt.toNat ∧ payload.length ≤ s.cfg.maxPayload.toNat
          ∧ (hdrShape s.cfg ≠ .controlByte ∨ s.eng.phase = .rxPcsum → t.eng.cs.matched = true)
          ∧ (s.eng.phase ≠ .rxPcsum → present ∧ ∃ ent, loaded ent)
          ∧ (s.eng.phase = .rxPcsum → csResult s.cfg s.eng.cs = b ∧ t.eng.frame = s.eng.frame
              ∧ t.eng.frame.direction = .write ∧ payload.length = s.eng.pLen.toNat
              ∧ payload.length ≤ min t.eng.frame.expectedLength.toNat s.cfg.maxPayload.toNat))
      ∧ (afterHeader t.eng.phase = true → afterHeader s.eng.phase = false →
          present ∧ (∃ ent, loaded ent ∧ ent.direction = .write)
          ∧ (hdrShape s.cfg = .fiveByte → s.eng.phase = .rxHdr ∧ csResult s.cfg s.eng.cs = b))
      ∧ (afterHeader t.eng.phase = true → afterHeader s.eng.phase = true → t.eng.frame = s.eng.frame)
      ∧ (t.eng.phase ≠ .dispatch ∨ s.eng.phase = .dispatch →
          ∃ os, t.trace = s.trace ++ os ∧ ∀ o ∈ os, ∀ f fl p, o ≠ .dispatch f fl p))
    ∧ (∀ i, fromHost i = false → exec i s = .next t →
        (t.eng.phase = .dispatch → s.eng.phase = .dispatch)
        ∧ (afterHeader t.eng.phase = true → afterHeader s.eng.phase = true ∧ t.eng.frame = s.eng.frame)
        ∧ ∃ os, t.trace = s.trace ++ os ∧ ∀ o ∈ os, ∀ f fl p, o ≠ .dispatch f fl p)

/-- R10, R49, R52: no instruction changes the configuration or the inputs to come, and outputs are only ever appended; one that is
no unit word leaves the stand-alone units alone. That these are units of their own is the model's choice (log entry 2). -/
def Obligations.ExecKeepsConfigurationAndAppendsOutputs : Prop :=
  ∀ (i : Instr) (s t : State), exec i s = .next t →
    t.cfg = s.cfg ∧ t.script = s.script ∧ s.trace <+: t.trace ∧ s.returned <+: t.returned
    ∧ ((∀ u w, i ≠ decodeOp u w) → t.cs = s.cs ∧ t.fr = s.fr ∧ t.returned = s.returned)

/-! ### Decoding and stepping -/

/-- R61 to R75: for every well-formed instruction, under every configuration that R294 allows, the decoder reads the
encoder's words back as that instruction. -/
def Obligations.DecodeInvertsEncode : Prop :=
  ∀ (c : Config) (i : Instr), configValid c = true → wellFormed c i = true → decode c (encode c i) = .ok i

/-- R74, R75: every 12-bit word of a port is the encoding of the instruction it decodes to, so no bit of a port word is lost. That
the bits these rules call ignored are kept as operands, and that the list beside any word but an answer `Done` is dropped, is
the model's choice (log entry 26). -/
def Obligations.PortWordsEncodeBack : Prop :=
  ∀ (c : Config) (u : UnitPort) (w : PortWord) (beside : List Byte),
    encode c (decodeOp u w) = .op u w
    ∧ encode c (decodeEv w beside) =
        .ev w (if w.extractLsb' 9 3 = 5 ∧ w.getLsbD 8 = false then beside else [])

/-- R49, R130: with an input next whose bytes decode to a well-formed instruction, a step is that instruction's meaning on the
state with the input taken; with no input it waits. That inputs stand in a queue is the model's choice (log entry 4). -/
def Obligations.StepRunsTheDecodedInstruction : Prop :=
  ∀ (s : State) (x : Stimulus) (rest : List Stimulus) (i : Instr),
    (s.script = x :: rest → decode s.cfg x = .ok i → wellFormed s.cfg i = true →
      Sys2Proof.Machine.step s = exec i { s with script := rest })
    ∧ (s.script = [] → Sys2Proof.Machine.step s = .next s)

/-- R52, R294: the environment's change of `SLOT_PRESENT` and `CMD_TABLE` changes these two and nothing else, and is refused where it
would leave a configuration that R294 forbids (`configValid`: the conditions of R294, with the codes of one direction pairwise
distinct as D15 of 92_eei_decisions.md says); bytes that are no word of their form are refused by name. That such a change is
an input of the machine, and the refusal of bytes under a form they do not fit, are the model's choices (log entries 19, 24). -/
def Obligations.TablesChangeAndBadInputIsRefused : Prop :=
  ∀ (s : State) (rest : List Stimulus) (slots : List Byte) (table : Option CmdTable) (f : WireForm)
    (bytes : List Byte) (why : Reject),
    (s.script = .tables slots table :: rest →
      Sys2Proof.Machine.step s =
        if configValid { s.cfg with slots := slots, cmdTable := table } = true then
          .next { s with script := rest, cfg := { s.cfg with slots := slots, cmdTable := table } }
        else .refused .invalidConfig)
    ∧ (s.script = .wire f bytes :: rest → decode s.cfg (.wire f bytes) = .error why →
      Sys2Proof.Machine.step s = .refused (.undecodable why))

/-- R61, R63, R65, R66, R68, R70, R74, R75: a word of each kind of row, written out from the spec's encoding, decodes to the
instruction it stands for under the default parameters. -/
def Obligations.WordsDecodeAsTheSpecSays : Prop :=
  let c := Config.ofBus .sio
  decode c (.op .cs 0b001001010100) = .ok (.csAbs .cs 0x54)
  ∧ decode c (.op .fr 0b110011000000) = .ok (.decByte .fr 0xC0)
  ∧ decode c (.ev 0b010100000000 []) = .ok (.evLine true 0 0)
  ∧ decode c (.ev 0b011001010011 []) = .ok (.evRx false 0x53)
  ∧ decode c (.ev 0b101000000000 [0x10, 0xFF, 0xE0, 0x00]) = .ok (.evDispatchDone 0x00 [0x10, 0xFF, 0xE0, 0x00])
  ∧ decode c (.ev 0b101100000000 []) = .ok (.evDispatchNodevice 0x00)
  ∧ decode c (.wire .sym [0x43]) = .ok .sioComplete
  ∧ decode c (.wire .ctlHost [0x64]) = .ok (.mnSend 4)
  ∧ decode c (.wire .ctlDev [0xB4]) = .ok (.nmSend 4)
  ∧ decode c (.wire .stuffByte [0xDB]) = .ok .fbEsc
  ∧ decode c (.wire .hdr5 [0x31, 0x53, 0x00, 0x00, 0x84]) = .ok (.fHdr5 0x31 0x53 0x00 0x00 0x84)
  ∧ decode c (.wire .iecs [0x88, 0x3E]) = .ok (.fIecs 8 0x3E)
  ∧ decode c (.wire .stuffIn [0xC0, 0xDB, 0xDC, 0x41, 0xC0]) = .ok (.fStuff .toDevice [0xC0, 0x41])
end

