-- ==== Sys2Proof/Laws/State.lean ====
section
/-! SUPPORT. The fields of the state after each named update, so that no later proof unfolds one: one lemma per field and
update, true by rfl. -/

namespace Sys2Proof.Laws

open Sys2Proof.Machine

@[simp] theorem emit_cfg (o : Output) (s : State) : (emit o s).cfg = s.cfg := rfl
@[simp] theorem emit_cs (o : Output) (s : State) : (emit o s).cs = s.cs := rfl
@[simp] theorem emit_fr (o : Output) (s : State) : (emit o s).fr = s.fr := rfl
@[simp] theorem emit_eng (o : Output) (s : State) :
    (emit o s).eng =
      { s.eng with lineOut := lineAfter o s.eng.lineOut } :=
  rfl
@[simp] theorem emit_script (o : Output) (s : State) : (emit o s).script = s.script := rfl
@[simp] theorem emit_trace (o : Output) (s : State) : (emit o s).trace = s.trace ++ [o] := rfl
@[simp] theorem emit_returned (o : Output) (s : State) : (emit o s).returned = s.returned := rfl
@[simp] theorem emit_taken (o : Output) (s : State) : (emit o s).taken = s.taken := rfl
@[simp] theorem emit_draws (o : Output) (s : State) : (emit o s).draws = s.draws := rfl

@[simp] theorem setPhase_cfg (p : Phase) (s : State) : (setPhase p s).cfg = s.cfg := rfl
@[simp] theorem setPhase_cs (p : Phase) (s : State) : (setPhase p s).cs = s.cs := rfl
@[simp] theorem setPhase_fr (p : Phase) (s : State) : (setPhase p s).fr = s.fr := rfl
@[simp] theorem setPhase_eng (p : Phase) (s : State) : (setPhase p s).eng = { s.eng with phase := p } := rfl
@[simp] theorem setPhase_script (p : Phase) (s : State) : (setPhase p s).script = s.script := rfl
@[simp] theorem setPhase_trace (p : Phase) (s : State) : (setPhase p s).trace = s.trace := rfl
@[simp] theorem setPhase_returned (p : Phase) (s : State) : (setPhase p s).returned = s.returned := rfl
@[simp] theorem setPhase_taken (p : Phase) (s : State) : (setPhase p s).taken = s.taken := rfl
@[simp] theorem setPhase_draws (p : Phase) (s : State) : (setPhase p s).draws = s.draws := rfl

@[simp] theorem setErr_cfg (e : Err) (s : State) : (setErr e s).cfg = s.cfg := rfl
@[simp] theorem setErr_cs (e : Err) (s : State) : (setErr e s).cs = s.cs := rfl
@[simp] theorem setErr_fr (e : Err) (s : State) : (setErr e s).fr = s.fr := rfl
@[simp] theorem setErr_eng (e : Err) (s : State) : (setErr e s).eng = { s.eng with err := e } := rfl
@[simp] theorem setErr_script (e : Err) (s : State) : (setErr e s).script = s.script := rfl
@[simp] theorem setErr_trace (e : Err) (s : State) : (setErr e s).trace = s.trace := rfl
@[simp] theorem setErr_returned (e : Err) (s : State) : (setErr e s).returned = s.returned := rfl
@[simp] theorem setErr_taken (e : Err) (s : State) : (setErr e s).taken = s.taken := rfl
@[simp] theorem setErr_draws (e : Err) (s : State) : (setErr e s).draws = s.draws := rfl

@[simp] theorem toIdle_cfg (s : State) : (toIdle s).cfg = s.cfg := rfl
@[simp] theorem toIdle_cs (s : State) : (toIdle s).cs = s.cs := rfl
@[simp] theorem toIdle_fr (s : State) : (toIdle s).fr = s.fr := rfl
@[simp] theorem toIdle_eng (s : State) :
    (toIdle s).eng =
      { s.eng with phase := .idle, fr := idleFr s.cfg s.eng.fr } :=
  rfl
@[simp] theorem toIdle_script (s : State) : (toIdle s).script = s.script := rfl
@[simp] theorem toIdle_trace (s : State) : (toIdle s).trace = s.trace := rfl
@[simp] theorem toIdle_returned (s : State) : (toIdle s).returned = s.returned := rfl
@[simp] theorem toIdle_taken (s : State) : (toIdle s).taken = s.taken := rfl
@[simp] theorem toIdle_draws (s : State) : (toIdle s).draws = s.draws := rfl

@[simp] theorem fail_cfg (e : Err) (s : State) : (fail e s).cfg = s.cfg := rfl
@[simp] theorem fail_cs (e : Err) (s : State) : (fail e s).cs = s.cs := rfl
@[simp] theorem fail_fr (e : Err) (s : State) : (fail e s).fr = s.fr := rfl
@[simp] theorem fail_eng (e : Err) (s : State) :
    (fail e s).eng =
      { s.eng with err := e, phase := .idle, fr := idleFr s.cfg s.eng.fr } :=
  rfl
@[simp] theorem fail_script (e : Err) (s : State) : (fail e s).script = s.script := rfl
@[simp] theorem fail_trace (e : Err) (s : State) : (fail e s).trace = s.trace := rfl
@[simp] theorem fail_returned (e : Err) (s : State) : (fail e s).returned = s.returned := rfl
@[simp] theorem fail_taken (e : Err) (s : State) : (fail e s).taken = s.taken := rfl
@[simp] theorem fail_draws (e : Err) (s : State) : (fail e s).draws = s.draws := rfl

@[simp] theorem beginFrame_cfg (s : State) : (beginFrame s).cfg = s.cfg := rfl
@[simp] theorem beginFrame_cs (s : State) : (beginFrame s).cs = s.cs := rfl
@[simp] theorem beginFrame_fr (s : State) : (beginFrame s).fr = s.fr := rfl
@[simp] theorem beginFrame_eng (s : State) :
    (beginFrame s).eng =
      { s.eng with hdrCnt := 0, rxCnt := 0, envCnt := 0, pLen := 0, lenHi := 0, err := .noError, cs := csClear s.cfg, phase := .cmdDetect } :=
  rfl
@[simp] theorem beginFrame_script (s : State) : (beginFrame s).script = s.script := rfl
@[simp] theorem beginFrame_trace (s : State) : (beginFrame s).trace = s.trace := rfl
@[simp] theorem beginFrame_returned (s : State) : (beginFrame s).returned = s.returned := rfl
@[simp] theorem beginFrame_taken (s : State) : (beginFrame s).taken = s.taken := rfl
@[simp] theorem beginFrame_draws (s : State) : (beginFrame s).draws = s.draws := rfl

@[simp] theorem engClear_cfg (s : State) : (engClear s).cfg = s.cfg := rfl
@[simp] theorem engClear_cs (s : State) : (engClear s).cs = s.cs := rfl
@[simp] theorem engClear_fr (s : State) : (engClear s).fr = s.fr := rfl
@[simp] theorem engClear_eng (s : State) : (engClear s).eng = { s.eng with cs := csClear s.cfg } := rfl
@[simp] theorem engClear_script (s : State) : (engClear s).script = s.script := rfl
@[simp] theorem engClear_trace (s : State) : (engClear s).trace = s.trace := rfl
@[simp] theorem engClear_returned (s : State) : (engClear s).returned = s.returned := rfl
@[simp] theorem engClear_taken (s : State) : (engClear s).taken = s.taken := rfl
@[simp] theorem engClear_draws (s : State) : (engClear s).draws = s.draws := rfl

@[simp] theorem engAbsorb_cfg (b : Byte) (s : State) : (engAbsorb b s).cfg = s.cfg := rfl
@[simp] theorem engAbsorb_cs (b : Byte) (s : State) : (engAbsorb b s).cs = s.cs := rfl
@[simp] theorem engAbsorb_fr (b : Byte) (s : State) : (engAbsorb b s).fr = s.fr := rfl
@[simp] theorem engAbsorb_eng (b : Byte) (s : State) :
    (engAbsorb b s).eng =
      { s.eng with cs := csAbsorb s.cfg s.eng.cs b } :=
  rfl
@[simp] theorem engAbsorb_script (b : Byte) (s : State) : (engAbsorb b s).script = s.script := rfl
@[simp] theorem engAbsorb_trace (b : Byte) (s : State) : (engAbsorb b s).trace = s.trace := rfl
@[simp] theorem engAbsorb_returned (b : Byte) (s : State) : (engAbsorb b s).returned = s.returned := rfl
@[simp] theorem engAbsorb_taken (b : Byte) (s : State) : (engAbsorb b s).taken = s.taken := rfl
@[simp] theorem engAbsorb_draws (b : Byte) (s : State) : (engAbsorb b s).draws = s.draws := rfl

@[simp] theorem engCheck_cfg (b : Byte) (s : State) : (engCheck b s).cfg = s.cfg := rfl
@[simp] theorem engCheck_cs (b : Byte) (s : State) : (engCheck b s).cs = s.cs := rfl
@[simp] theorem engCheck_fr (b : Byte) (s : State) : (engCheck b s).fr = s.fr := rfl
@[simp] theorem engCheck_eng (b : Byte) (s : State) :
    (engCheck b s).eng =
      { s.eng with cs := csCheck s.cfg s.eng.cs b } :=
  rfl
@[simp] theorem engCheck_script (b : Byte) (s : State) : (engCheck b s).script = s.script := rfl
@[simp] theorem engCheck_trace (b : Byte) (s : State) : (engCheck b s).trace = s.trace := rfl
@[simp] theorem engCheck_returned (b : Byte) (s : State) : (engCheck b s).returned = s.returned := rfl
@[simp] theorem engCheck_taken (b : Byte) (s : State) : (engCheck b s).taken = s.taken := rfl
@[simp] theorem engCheck_draws (b : Byte) (s : State) : (engCheck b s).draws = s.draws := rfl

@[simp] theorem loadEntry_cfg (e : CmdEntry) (s : State) : (loadEntry e s).cfg = s.cfg := rfl
@[simp] theorem loadEntry_cs (e : CmdEntry) (s : State) : (loadEntry e s).cs = s.cs := rfl
@[simp] theorem loadEntry_fr (e : CmdEntry) (s : State) : (loadEntry e s).fr = s.fr := rfl
@[simp] theorem loadEntry_eng (e : CmdEntry) (s : State) :
    (loadEntry e s).eng =
      { s.eng with frame := { s.eng.frame with direction := e.direction, expectedLength := e.expectedLength, timeoutMs := e.timeoutMs } } :=
  rfl
@[simp] theorem loadEntry_script (e : CmdEntry) (s : State) : (loadEntry e s).script = s.script := rfl
@[simp] theorem loadEntry_trace (e : CmdEntry) (s : State) : (loadEntry e s).trace = s.trace := rfl
@[simp] theorem loadEntry_returned (e : CmdEntry) (s : State) : (loadEntry e s).returned = s.returned := rfl
@[simp] theorem loadEntry_taken (e : CmdEntry) (s : State) : (loadEntry e s).taken = s.taken := rfl
@[simp] theorem loadEntry_draws (e : CmdEntry) (s : State) : (loadEntry e s).draws = s.draws := rfl

@[simp] theorem loadHeader_cfg (d cmd a1 a2 : Byte) (s : State) : (loadHeader d cmd a1 a2 s).cfg = s.cfg := rfl
@[simp] theorem loadHeader_cs (d cmd a1 a2 : Byte) (s : State) : (loadHeader d cmd a1 a2 s).cs = s.cs := rfl
@[simp] theorem loadHeader_fr (d cmd a1 a2 : Byte) (s : State) : (loadHeader d cmd a1 a2 s).fr = s.fr := rfl
@[simp] theorem loadHeader_eng (d cmd a1 a2 : Byte) (s : State) :
    (loadHeader d cmd a1 a2 s).eng =
      { s.eng with frame := { s.eng.frame with deviceId := d, command := cmd, aux1 := a1, aux2 := a2 } } :=
  rfl
@[simp] theorem loadHeader_script (d cmd a1 a2 : Byte) (s : State) : (loadHeader d cmd a1 a2 s).script = s.script := rfl
@[simp] theorem loadHeader_trace (d cmd a1 a2 : Byte) (s : State) : (loadHeader d cmd a1 a2 s).trace = s.trace := rfl
@[simp] theorem loadHeader_returned (d cmd a1 a2 : Byte) (s : State) :
    (loadHeader d cmd a1 a2 s).returned =
      s.returned :=
  rfl
@[simp] theorem loadHeader_taken (d cmd a1 a2 : Byte) (s : State) :
    (loadHeader d cmd a1 a2 s).taken =
      s.taken :=
  rfl
@[simp] theorem loadHeader_draws (d cmd a1 a2 : Byte) (s : State) :
    (loadHeader d cmd a1 a2 s).draws =
      s.draws :=
  rfl

@[simp] theorem resetEngine_cfg (s : State) : (resetEngine s).cfg = s.cfg := rfl
@[simp] theorem resetEngine_cs (s : State) : (resetEngine s).cs = s.cs := rfl
@[simp] theorem resetEngine_fr (s : State) : (resetEngine s).fr = s.fr := rfl
@[simp] theorem resetEngine_eng (s : State) :
    (resetEngine s).eng =
      { Engine.reset with fr := idleFr s.cfg s.eng.fr } :=
  rfl
@[simp] theorem resetEngine_script (s : State) : (resetEngine s).script = s.script := rfl
@[simp] theorem resetEngine_trace (s : State) : (resetEngine s).trace = s.trace ++ resetOutputs s.cfg := rfl
@[simp] theorem resetEngine_returned (s : State) : (resetEngine s).returned = s.returned := rfl
@[simp] theorem resetEngine_taken (s : State) : (resetEngine s).taken = s.taken := rfl
@[simp] theorem resetEngine_draws (s : State) : (resetEngine s).draws = s.draws := rfl

@[simp] theorem awaitPrefix_cfg (s : State) : (awaitPrefix s).cfg = s.cfg := rfl
@[simp] theorem awaitPrefix_cs (s : State) : (awaitPrefix s).cs = s.cs := rfl
@[simp] theorem awaitPrefix_fr (s : State) : (awaitPrefix s).fr = s.fr := rfl
@[simp] theorem awaitPrefix_eng (s : State) :
    (awaitPrefix s).eng =
      { s.eng with cs := csClear s.cfg, phase := .rxLenHi } :=
  rfl
@[simp] theorem awaitPrefix_script (s : State) : (awaitPrefix s).script = s.script := rfl
@[simp] theorem awaitPrefix_trace (s : State) : (awaitPrefix s).trace = s.trace := rfl
@[simp] theorem awaitPrefix_returned (s : State) : (awaitPrefix s).returned = s.returned := rfl
@[simp] theorem awaitPrefix_taken (s : State) : (awaitPrefix s).taken = s.taken := rfl
@[simp] theorem awaitPrefix_draws (s : State) : (awaitPrefix s).draws = s.draws := rfl

@[simp] theorem awaitPayload_cfg (n : Half) (s : State) : (awaitPayload n s).cfg = s.cfg := rfl
@[simp] theorem awaitPayload_cs (n : Half) (s : State) : (awaitPayload n s).cs = s.cs := rfl
@[simp] theorem awaitPayload_fr (n : Half) (s : State) : (awaitPayload n s).fr = s.fr := rfl
@[simp] theorem awaitPayload_eng (n : Half) (s : State) :
    (awaitPayload n s).eng =
      { s.eng with cs := csClear s.cfg, pLen := n, phase := .rxPayload } :=
  rfl
@[simp] theorem awaitPayload_script (n : Half) (s : State) : (awaitPayload n s).script = s.script := rfl
@[simp] theorem awaitPayload_trace (n : Half) (s : State) : (awaitPayload n s).trace = s.trace := rfl
@[simp] theorem awaitPayload_returned (n : Half) (s : State) : (awaitPayload n s).returned = s.returned := rfl
@[simp] theorem awaitPayload_taken (n : Half) (s : State) : (awaitPayload n s).taken = s.taken := rfl
@[simp] theorem awaitPayload_draws (n : Half) (s : State) : (awaitPayload n s).draws = s.draws := rfl

@[simp] theorem storeHeader_cfg (m : Memory) (s : State) : (storeHeader m s).cfg = s.cfg := rfl
@[simp] theorem storeHeader_cs (m : Memory) (s : State) : (storeHeader m s).cs = s.cs := rfl
@[simp] theorem storeHeader_fr (m : Memory) (s : State) : (storeHeader m s).fr = s.fr := rfl
@[simp] theorem storeHeader_eng (m : Memory) (s : State) :
    (storeHeader m s).eng =
      { s.eng with hdrBuf := m, hdrCnt := s.eng.hdrCnt + 1 } :=
  rfl
@[simp] theorem storeHeader_script (m : Memory) (s : State) : (storeHeader m s).script = s.script := rfl
@[simp] theorem storeHeader_trace (m : Memory) (s : State) : (storeHeader m s).trace = s.trace := rfl
@[simp] theorem storeHeader_returned (m : Memory) (s : State) : (storeHeader m s).returned = s.returned := rfl
@[simp] theorem storeHeader_taken (m : Memory) (s : State) : (storeHeader m s).taken = s.taken := rfl
@[simp] theorem storeHeader_draws (m : Memory) (s : State) : (storeHeader m s).draws = s.draws := rfl

@[simp] theorem lenHiByte_cfg (b : Byte) (s : State) : (lenHiByte b s).cfg = s.cfg := rfl
@[simp] theorem lenHiByte_cs (b : Byte) (s : State) : (lenHiByte b s).cs = s.cs := rfl
@[simp] theorem lenHiByte_fr (b : Byte) (s : State) : (lenHiByte b s).fr = s.fr := rfl
@[simp] theorem lenHiByte_eng (b : Byte) (s : State) :
    (lenHiByte b s).eng =
      { s.eng with lenHi := b, phase := .rxLenLo } :=
  rfl
@[simp] theorem lenHiByte_script (b : Byte) (s : State) : (lenHiByte b s).script = s.script := rfl
@[simp] theorem lenHiByte_trace (b : Byte) (s : State) : (lenHiByte b s).trace = s.trace := rfl
@[simp] theorem lenHiByte_returned (b : Byte) (s : State) : (lenHiByte b s).returned = s.returned := rfl
@[simp] theorem lenHiByte_taken (b : Byte) (s : State) : (lenHiByte b s).taken = s.taken := rfl
@[simp] theorem lenHiByte_draws (b : Byte) (s : State) : (lenHiByte b s).draws = s.draws := rfl

@[simp] theorem storePayload_cfg (m : Memory) (s : State) : (storePayload m s).cfg = s.cfg := rfl
@[simp] theorem storePayload_cs (m : Memory) (s : State) : (storePayload m s).cs = s.cs := rfl
@[simp] theorem storePayload_fr (m : Memory) (s : State) : (storePayload m s).fr = s.fr := rfl
@[simp] theorem storePayload_eng (m : Memory) (s : State) :
    (storePayload m s).eng =
      { s.eng with rxBuf := m, rxCnt := s.eng.rxCnt + 1 } :=
  rfl
@[simp] theorem storePayload_script (m : Memory) (s : State) : (storePayload m s).script = s.script := rfl
@[simp] theorem storePayload_trace (m : Memory) (s : State) : (storePayload m s).trace = s.trace := rfl
@[simp] theorem storePayload_returned (m : Memory) (s : State) : (storePayload m s).returned = s.returned := rfl
@[simp] theorem storePayload_taken (m : Memory) (s : State) : (storePayload m s).taken = s.taken := rfl
@[simp] theorem storePayload_draws (m : Memory) (s : State) : (storePayload m s).draws = s.draws := rfl

@[simp] theorem storeEnvelope_cfg (m : Memory) (s : State) : (storeEnvelope m s).cfg = s.cfg := rfl
@[simp] theorem storeEnvelope_cs (m : Memory) (s : State) : (storeEnvelope m s).cs = s.cs := rfl
@[simp] theorem storeEnvelope_fr (m : Memory) (s : State) : (storeEnvelope m s).fr = s.fr := rfl
@[simp] theorem storeEnvelope_eng (m : Memory) (s : State) :
    (storeEnvelope m s).eng =
      { s.eng with envBuf := m, envCnt := envCntNext s } :=
  rfl
@[simp] theorem storeEnvelope_script (m : Memory) (s : State) : (storeEnvelope m s).script = s.script := rfl
@[simp] theorem storeEnvelope_trace (m : Memory) (s : State) : (storeEnvelope m s).trace = s.trace := rfl
@[simp] theorem storeEnvelope_returned (m : Memory) (s : State) : (storeEnvelope m s).returned = s.returned := rfl
@[simp] theorem storeEnvelope_taken (m : Memory) (s : State) : (storeEnvelope m s).taken = s.taken := rfl
@[simp] theorem storeEnvelope_draws (m : Memory) (s : State) :
    (storeEnvelope m s).draws = if envCntFull s then s.draws + 1 else s.draws :=
  rfl

@[simp] theorem loadEnvelope_cfg (q cmd pc d : Byte) (body : List Byte) (k : Byte) (s : State) :
    (loadEnvelope q cmd pc d body k s).cfg =
      s.cfg :=
  rfl
@[simp] theorem loadEnvelope_cs (q cmd pc d : Byte) (body : List Byte) (k : Byte) (s : State) :
    (loadEnvelope q cmd pc d body k s).cs =
      s.cs :=
  rfl
@[simp] theorem loadEnvelope_fr (q cmd pc d : Byte) (body : List Byte) (k : Byte) (s : State) :
    (loadEnvelope q cmd pc d body k s).fr =
      s.fr :=
  rfl
@[simp] theorem loadEnvelope_eng (q cmd pc d : Byte) (body : List Byte) (k : Byte) (s : State) :
    (loadEnvelope q cmd pc d body k s).eng =
      { s.eng with cs := csCheck s.cfg (csAbsorbAll s.cfg (csClear s.cfg) body) k, fbSeq := q, fbPc := pc, frame := { s.eng.frame with command := cmd, deviceId := d } } :=
  rfl
@[simp] theorem loadEnvelope_script (q cmd pc d : Byte) (body : List Byte) (k : Byte) (s : State) :
    (loadEnvelope q cmd pc d body k s).script =
      s.script :=
  rfl
@[simp] theorem loadEnvelope_trace (q cmd pc d : Byte) (body : List Byte) (k : Byte) (s : State) :
    (loadEnvelope q cmd pc d body k s).trace =
      s.trace :=
  rfl
@[simp] theorem loadEnvelope_returned (q cmd pc d : Byte) (body : List Byte) (k : Byte) (s : State) :
    (loadEnvelope q cmd pc d body k s).returned =
      s.returned :=
  rfl
@[simp] theorem loadEnvelope_taken (q cmd pc d : Byte) (body : List Byte) (k : Byte) (s : State) :
    (loadEnvelope q cmd pc d body k s).taken =
      s.taken :=
  rfl
@[simp] theorem loadEnvelope_draws (q cmd pc d : Byte) (body : List Byte) (k : Byte) (s : State) :
    (loadEnvelope q cmd pc d body k s).draws =
      s.draws :=
  rfl

@[simp] theorem loadAux_cfg (fl : List Field) (s : State) : (loadAux fl s).cfg = s.cfg := rfl
@[simp] theorem loadAux_cs (fl : List Field) (s : State) : (loadAux fl s).cs = s.cs := rfl
@[simp] theorem loadAux_fr (fl : List Field) (s : State) : (loadAux fl s).fr = s.fr := rfl
@[simp] theorem loadAux_eng (fl : List Field) (s : State) :
    (loadAux fl s).eng =
      { s.eng with frame := { s.eng.frame with aux1 := fieldLow fl 0, aux2 := fieldLow fl 1 } } :=
  rfl
@[simp] theorem loadAux_script (fl : List Field) (s : State) : (loadAux fl s).script = s.script := rfl
@[simp] theorem loadAux_trace (fl : List Field) (s : State) : (loadAux fl s).trace = s.trace := rfl
@[simp] theorem loadAux_returned (fl : List Field) (s : State) : (loadAux fl s).returned = s.returned := rfl
@[simp] theorem loadAux_taken (fl : List Field) (s : State) : (loadAux fl s).taken = s.taken := rfl
@[simp] theorem loadAux_draws (fl : List Field) (s : State) : (loadAux fl s).draws = s.draws := rfl

@[simp] theorem setLinePrev_cfg (v : Bool) (s : State) : (setLinePrev v s).cfg = s.cfg := rfl
@[simp] theorem setLinePrev_cs (v : Bool) (s : State) : (setLinePrev v s).cs = s.cs := rfl
@[simp] theorem setLinePrev_fr (v : Bool) (s : State) : (setLinePrev v s).fr = s.fr := rfl
@[simp] theorem setLinePrev_eng (v : Bool) (s : State) : (setLinePrev v s).eng = { s.eng with linePrev := v } := rfl
@[simp] theorem setLinePrev_script (v : Bool) (s : State) : (setLinePrev v s).script = s.script := rfl
@[simp] theorem setLinePrev_trace (v : Bool) (s : State) : (setLinePrev v s).trace = s.trace := rfl
@[simp] theorem setLinePrev_returned (v : Bool) (s : State) : (setLinePrev v s).returned = s.returned := rfl
@[simp] theorem setLinePrev_taken (v : Bool) (s : State) : (setLinePrev v s).taken = s.taken := rfl
@[simp] theorem setLinePrev_draws (v : Bool) (s : State) : (setLinePrev v s).draws = s.draws := rfl

@[simp] theorem setCs_cfg (u : CsUnit) (s : State) : (setCs u s).cfg = s.cfg := rfl
@[simp] theorem setCs_cs (u : CsUnit) (s : State) : (setCs u s).cs = u := rfl
@[simp] theorem setCs_fr (u : CsUnit) (s : State) : (setCs u s).fr = s.fr := rfl
@[simp] theorem setCs_eng (u : CsUnit) (s : State) : (setCs u s).eng = s.eng := rfl
@[simp] theorem setCs_script (u : CsUnit) (s : State) : (setCs u s).script = s.script := rfl
@[simp] theorem setCs_trace (u : CsUnit) (s : State) : (setCs u s).trace = s.trace := rfl
@[simp] theorem setCs_returned (u : CsUnit) (s : State) : (setCs u s).returned = s.returned := rfl
@[simp] theorem setCs_taken (u : CsUnit) (s : State) : (setCs u s).taken = s.taken := rfl
@[simp] theorem setCs_draws (u : CsUnit) (s : State) : (setCs u s).draws = s.draws := rfl

@[simp] theorem setFr_cfg (u : FrUnit) (s : State) : (setFr u s).cfg = s.cfg := rfl
@[simp] theorem setFr_cs (u : FrUnit) (s : State) : (setFr u s).cs = s.cs := rfl
@[simp] theorem setFr_fr (u : FrUnit) (s : State) : (setFr u s).fr = u := rfl
@[simp] theorem setFr_eng (u : FrUnit) (s : State) : (setFr u s).eng = s.eng := rfl
@[simp] theorem setFr_script (u : FrUnit) (s : State) : (setFr u s).script = s.script := rfl
@[simp] theorem setFr_trace (u : FrUnit) (s : State) : (setFr u s).trace = s.trace := rfl
@[simp] theorem setFr_returned (u : FrUnit) (s : State) : (setFr u s).returned = s.returned := rfl
@[simp] theorem setFr_taken (u : FrUnit) (s : State) : (setFr u s).taken = s.taken := rfl
@[simp] theorem setFr_draws (u : FrUnit) (s : State) : (setFr u s).draws = s.draws := rfl

@[simp] theorem giveBack_cfg (r : Returned) (s : State) : (giveBack r s).cfg = s.cfg := rfl
@[simp] theorem giveBack_cs (r : Returned) (s : State) : (giveBack r s).cs = s.cs := rfl
@[simp] theorem giveBack_fr (r : Returned) (s : State) : (giveBack r s).fr = s.fr := rfl
@[simp] theorem giveBack_eng (r : Returned) (s : State) : (giveBack r s).eng = s.eng := rfl
@[simp] theorem giveBack_script (r : Returned) (s : State) : (giveBack r s).script = s.script := rfl
@[simp] theorem giveBack_trace (r : Returned) (s : State) : (giveBack r s).trace = s.trace := rfl
@[simp] theorem giveBack_returned (r : Returned) (s : State) : (giveBack r s).returned = s.returned ++ [r] := rfl
@[simp] theorem giveBack_taken (r : Returned) (s : State) : (giveBack r s).taken = s.taken := rfl
@[simp] theorem giveBack_draws (r : Returned) (s : State) : (giveBack r s).draws = s.draws := rfl

/-- Emitting a list of outputs appends it to the trace; of the registers only `LINE_OUT` can change. -/
theorem emitAll_eq (os : List Output) (s : State) :
    emitAll os s =
      { s with eng := { s.eng with lineOut := os.foldl (fun v o => lineAfter o v) s.eng.lineOut },
               trace := s.trace ++ os } := by
  induction os generalizing s with
  | nil => simp [emitAll]
  | cons o rest ih =>
    have h : emitAll (o :: rest) s = emitAll rest (emit o s) := rfl
    rw [h, ih]
    simp [emit]

@[simp] theorem emitAll_cfg (os : List Output) (s : State) :
    (emitAll os s).cfg = s.cfg := by
  rw [emitAll_eq]

@[simp] theorem emitAll_cs (os : List Output) (s : State) :
    (emitAll os s).cs = s.cs := by
  rw [emitAll_eq]

@[simp] theorem emitAll_fr (os : List Output) (s : State) :
    (emitAll os s).fr = s.fr := by
  rw [emitAll_eq]

@[simp] theorem emitAll_script (os : List Output) (s : State) :
    (emitAll os s).script = s.script := by
  rw [emitAll_eq]

@[simp] theorem emitAll_returned (os : List Output) (s : State) :
    (emitAll os s).returned = s.returned := by
  rw [emitAll_eq]
@[simp] theorem emitAll_taken (os : List Output) (s : State) :
    (emitAll os s).taken = s.taken := by
  rw [emitAll_eq]
@[simp] theorem emitAll_draws (os : List Output) (s : State) :
    (emitAll os s).draws = s.draws := by
  rw [emitAll_eq]

@[simp] theorem emitAll_trace (os : List Output) (s : State) :
    (emitAll os s).trace = s.trace ++ os := by
  rw [emitAll_eq]

@[simp] theorem emitAll_eng (os : List Output) (s : State) :
    (emitAll os s).eng = { s.eng with lineOut := os.foldl (fun v o => lineAfter o v) s.eng.lineOut } := by
  rw [emitAll_eq]

/-- `fail` after a failure action (R266): the action's outputs are emitted, `ERR` holds the code, the engine is in `IDLE`. -/
theorem failWith_trace (os : List Output) (e : Err) (s : State) : (failWith os e s).trace = s.trace ++ os := by
  simp [failWith]

theorem failWith_err (os : List Output) (e : Err) (s : State) : (failWith os e s).eng.err = e := by simp [failWith]

theorem failWith_phase (os : List Output) (e : Err) (s : State) : (failWith os e s).eng.phase = .idle := by
  simp [failWith]

end Sys2Proof.Laws
end

