-- ==== Sys2Proof/Laws/Memory.lean ====
section
/-! SUPPORT. The buffers (spec/20_memory.md R40, R41): every operation keeps the canonical form; a read after a write; what
a range read and a range write do. -/

namespace Sys2Proof.Laws

open Sys2Proof.Machine

/-- A write is seen at its own index and nowhere else. -/
theorem read_write (m : Memory) (i j : Nat) (b : Byte) :
    (m.write i b).read j = if j = i then some b else m.read j := by
  induction m with
  | nil =>
    by_cases h : j = i
    · simp [Memory.write, Memory.read, h]
    · simp [Memory.write, Memory.read, h, Ne.symm h]
  | cons e rest ih =>
    obtain ⟨a, v⟩ := e
    unfold Memory.write
    split
    · by_cases h : j = i
      · simp [Memory.read, h]
      · simp [Memory.read, h, Ne.symm h]
    · split
      · rename_i h1 h2
        subst h2
        by_cases h : j = i
        · simp [Memory.read, h]
        · simp [Memory.read, h, Ne.symm h]
      · rename_i h1 h2
        by_cases h : j = i
        · subst h
          simp [Memory.read, Ne.symm h2, ih]
        · simp [Memory.read, ih, h]

@[simp] theorem read_write_same (m : Memory) (i : Nat) (b : Byte) : (m.write i b).read i = some b := by
  simp [read_write]

theorem read_write_other {m : Memory} {i j : Nat} {b : Byte} (h : j ≠ i) : (m.write i b).read j = m.read j := by
  simp [read_write, h]

theorem risingFrom_mono {lo lo' : Nat} {m : Memory} (h : Memory.risingFrom lo m = true) (hl : lo' ≤ lo) :
    Memory.risingFrom lo' m = true := by
  cases m with
  | nil => rfl
  | cons e rest =>
    obtain ⟨a, v⟩ := e
    simp only [Memory.risingFrom, Bool.and_eq_true, decide_eq_true_eq] at h ⊢
    exact ⟨by omega, h.2⟩

theorem risingFrom_write {m : Memory} {lo i : Nat} {b : Byte} (h : Memory.risingFrom lo m = true) (hi : lo ≤ i) :
    Memory.risingFrom lo (m.write i b) = true := by
  induction m generalizing lo with
  | nil => simp [Memory.write, Memory.risingFrom, hi]
  | cons e rest ih =>
    obtain ⟨a, v⟩ := e
    simp only [Memory.risingFrom, Bool.and_eq_true, decide_eq_true_eq] at h
    unfold Memory.write
    split
    · simp only [Memory.risingFrom, Bool.and_eq_true, decide_eq_true_eq]
      exact ⟨hi, by omega, h.2⟩
    · split
      · rename_i h1 h2
        subst h2
        simp only [Memory.risingFrom, Bool.and_eq_true, decide_eq_true_eq]
        exact ⟨hi, h.2⟩
      · simp only [Memory.risingFrom, Bool.and_eq_true, decide_eq_true_eq]
        exact ⟨h.1, ih h.2 (by omega)⟩

/-- Every write keeps the canonical form. -/
theorem wf_write {m : Memory} {i : Nat} {b : Byte} (h : m.wf = true) : (m.write i b).wf = true :=
  risingFrom_write h (Nat.zero_le i)

@[simp] theorem wf_nil : Memory.wf [] = true := rfl

/-- The state after reset has its buffers in canonical form, with nothing listed. -/
theorem resetOf_wf (c : Config) :
    (State.resetOf c).eng.hdrBuf.wf = true ∧ (State.resetOf c).eng.rxBuf.wf = true
      ∧ (State.resetOf c).eng.envBuf.wf = true := ⟨rfl, rfl, rfl⟩

theorem writtenBelow_zero (m : Memory) : writtenBelow m 0 := fun _ h => absurd h (Nat.not_lt_zero _)

theorem writtenBelow_mono {m : Memory} {n k : Nat} (h : writtenBelow m n) (hk : k ≤ n) : writtenBelow m k :=
  fun i hi => h i (by omega)

/-- Storing at the counter's index and raising the counter keeps "every byte below the counter is written". -/
theorem writtenBelow_write {m : Memory} {n : Nat} {b : Byte} (h : writtenBelow m n) :
    writtenBelow (m.write n b) (n + 1) := by
  intro i hi
  by_cases he : i = n
  · simp [he]
  · rw [read_write_other he]
    exact h i (by omega)

theorem readByte_ok {size i : Nat} {m : Memory} {b : Byte} (hi : i < size) (h : m.read i = some b) :
    readByte size m i = .ok b := by
  simp [readByte, hi, h]

/-- A range whose bytes have all been written, inside the buffer, is read without a fault. -/
theorem readRange_ok {size : Nat} {m : Memory} {i n : Nat} (hs : i + n ≤ size)
    (hw : ∀ j < n, (m.read (i + j)).isSome = true) :
    ∃ l, readRange size m i n = .ok l ∧ l.length = n ∧ ∀ j < n, l[j]? = m.read (i + j) := by
  induction n generalizing i with
  | zero => exact ⟨[], rfl, rfl, by simp⟩
  | succ n ih =>
    obtain ⟨b, hb⟩ := Option.isSome_iff_exists.mp (by simpa using hw 0 (by omega))
    obtain ⟨l, hl, hlen, hget⟩ := ih (i := i + 1) (by omega) (by
      intro j hj
      have := hw (j + 1) (by omega)
      rwa [show i + (j + 1) = i + 1 + j by omega] at this)
    refine ⟨b :: l, by simp [readRange, readByte_ok (by omega : i < size) hb, hl], by simp [hlen], ?_⟩
    intro j hj
    cases j with
    | zero => simp [hb]
    | succ j =>
      rw [List.getElem?_cons_succ, hget j (by omega), show i + 1 + j = i + (j + 1) by omega]

/-- The bytes below a counter, read from 0. -/
theorem readRange_below {size : Nat} {m : Memory} {n : Nat} (hs : n ≤ size) (hw : writtenBelow m n) :
    ∃ l, readRange size m 0 n = .ok l ∧ l.length = n ∧ ∀ j < n, l[j]? = m.read j := by
  obtain ⟨l, h1, h2, h3⟩ := readRange_ok (i := 0) (m := m) (by omega : 0 + n ≤ size) (by simpa [writtenBelow] using hw)
  exact ⟨l, h1, h2, by simpa using h3⟩

/-- A range read that succeeds returns as many bytes as asked. -/
theorem readRange_length {size : Nat} {m : Memory} {i n : Nat} {l : List Byte} (h : readRange size m i n = .ok l) :
    l.length = n := by
  induction n generalizing i l with
  | zero => simp only [readRange, Except.ok.injEq] at h; simp [← h]
  | succ n ih =>
    simp only [readRange] at h
    split at h
    · cases h
    · split at h
      · cases h
      · rename_i rest hrest
        simp only [Except.ok.injEq] at h
        simp [← h, ih hrest]

/-- A range write inside the buffer succeeds, keeps the canonical form, and is seen at its own indices only. -/
theorem writeRange_ok {size : Nat} {m : Memory} {i : Nat} {bytes : List Byte} (hs : i + bytes.length ≤ size) :
    ∃ m', writeRange size m i bytes = .ok m' ∧ (m.wf = true → m'.wf = true)
      ∧ ∀ j, m'.read j = if i ≤ j ∧ j < i + bytes.length then bytes[j - i]? else m.read j := by
  induction bytes generalizing m i with
  | nil => exact ⟨m, rfl, id, fun j => by rw [if_neg (by simp)]⟩
  | cons b rest ih =>
    simp only [List.length_cons] at hs
    obtain ⟨m', hm, hwf, hread⟩ := ih (m := m.write i b) (i := i + 1) (by omega)
    refine ⟨m', by simp [writeRange, writeByte, show i < size by omega, hm], fun h => hwf (wf_write h), ?_⟩
    intro j
    rw [hread j]
    by_cases h1 : j = i
    · subst h1
      rw [if_neg (by omega), if_pos (by simp)]
      simp
    · by_cases h2 : i + 1 ≤ j ∧ j < i + 1 + rest.length
      · rw [if_pos h2, if_pos (by simp; omega)]
        obtain ⟨k, rfl⟩ : ∃ k, j = i + 1 + k := ⟨j - (i + 1), by omega⟩
        rw [show i + 1 + k - (i + 1) = k by omega, show i + 1 + k - i = k + 1 by omega, List.getElem?_cons_succ]
      · rw [if_neg h2, if_neg (by simp; omega), read_write_other h1]

end Sys2Proof.Laws
end

