-- ==== Sys2Proof/Laws/Units.lean ====
section
/-! SUPPORT. The checksum unit and the framer unit: small lemmas of their functions, and operand assembly as
spec/30_encoding.md R73 writes it. -/

namespace Sys2Proof.Laws

open Sys2Proof.Machine

/-! ### Checksum unit -/

@[simp] theorem csAbsorb_matched (c : Config) (u : CsUnit) (b : Byte) : (csAbsorb c u b).matched = u.matched := rfl

@[simp] theorem csAbsorb_acc (c : Config) (u : CsUnit) (b : Byte) : (csAbsorb c u b).acc = absorbStep c u.acc b := rfl

@[simp] theorem csCheck_acc (c : Config) (u : CsUnit) (b : Byte) : (csCheck c u b).acc = u.acc := rfl

@[simp] theorem csCheck_matched (c : Config) (u : CsUnit) (b : Byte) :
    (csCheck c u b).matched = (csResult c u == b) := rfl

@[simp] theorem csAbsorbAll_nil (c : Config) (u : CsUnit) : csAbsorbAll c u [] = u := rfl

@[simp] theorem csAbsorbAll_cons (c : Config) (u : CsUnit) (b : Byte) (l : List Byte) :
    csAbsorbAll c u (b :: l) = csAbsorbAll c (csAbsorb c u b) l := rfl

theorem csAbsorbAll_append (c : Config) (u : CsUnit) (l r : List Byte) :
    csAbsorbAll c u (l ++ r) = csAbsorbAll c (csAbsorbAll c u l) r := by
  simp [csAbsorbAll]

/-- The result depends on the accumulator alone. -/
theorem csResult_congr (c : Config) {u v : CsUnit} (h : u.acc = v.acc) : csResult c u = csResult c v := by
  unfold csResult
  split <;> simp [h]

/-- A checksum is the unit's result after `CS_CLR` and the bytes (R101). -/
theorem checksum_eq (c : Config) (l : List Byte) : checksum c l = csResult c (csAbsorbAll c (csClear c) l) := rfl

/-- The generator named is the one configured. -/
theorem checksumOf_of_kind {c : Config} {k : CsKind} (h : c.csKind = k) (l : List Byte) :
    checksumOf k c l = checksum c l := by
  subst h
  rfl

/-- `validate(B, k)` is the comparison with `checksum(B)` (R101). -/
theorem validate_eq (c : Config) (l : List Byte) (k : Byte) : validate c l k = (checksum c l == k) := rfl

/-- The `ADD8` step as R92 computes it with natural numbers. -/
theorem add8Step_toNat (a b : Byte) :
    (add8Step a b).toNat = if a.toNat + b.toNat ≤ 255 then a.toNat + b.toNat else a.toNat + b.toNat - 255 := by
  have ha := a.isLt
  have hb := b.isLt
  have h9 : (BitVec.zeroExtend 9 a + BitVec.zeroExtend 9 b).toNat = a.toNat + b.toNat := by
    simp only [BitVec.toNat_add, BitVec.truncate_eq_setWidth, BitVec.toNat_setWidth]
    omega
  have h255 : (a.toNat + b.toNat) &&& 255 = (a.toNat + b.toNat) % 256 := Nat.and_two_pow_sub_one_eq_mod _ 8
  have hs : (add8Step a b).toNat = ((BitVec.zeroExtend 9 a + BitVec.zeroExtend 9 b).toNat >>> 8
      + ((BitVec.zeroExtend 9 a + BitVec.zeroExtend 9 b).toNat &&& 255)) % 2 ^ 9 % 2 ^ 8 := rfl
  rw [hs, h9, h255, Nat.shiftRight_eq_div_pow]
  split <;> omega

/-! ### Framer unit -/

theorem encByte_end (c : Config) : encByte c c.fbEnd = [c.fbEsc, c.fbEscEnd] := by simp [encByte]

theorem encByte_esc {c : Config} (h : c.fbEsc ≠ c.fbEnd) : encByte c c.fbEsc = [c.fbEsc, c.fbEscEsc] := by
  simp [encByte, h]

theorem encByte_other {c : Config} {b : Byte} (h1 : b ≠ c.fbEnd) (h2 : b ≠ c.fbEsc) : encByte c b = [b] := by
  simp [encByte, h1, h2]

@[simp] theorem encodeEscape_nil (c : Config) : encodeEscape c [] = [] := rfl

@[simp] theorem encodeEscape_cons (c : Config) (b : Byte) (l : List Byte) :
    encodeEscape c (b :: l) = encByte c b ++ encodeEscape c l := by simp [encodeEscape]

@[simp] theorem decRun_nil (c : Config) (u : FrUnit) : decRun c u [] = (u, []) := rfl

theorem decRun_cons (c : Config) (u : FrUnit) (b : Byte) (l : List Byte) :
    decRun c u (b :: l) =
      ((decRun c (decStep c u b).1 l).1, (decStep c u b).2 :: (decRun c (decStep c u b).1 l).2) := rfl

/-- Running a decoder over two lists is running it over the first and then over the second. -/
theorem decRun_append (c : Config) (u : FrUnit) (l r : List Byte) :
    decRun c u (l ++ r) =
      ((decRun c (decRun c u l).1 r).1, (decRun c u l).2 ++ (decRun c (decRun c u l).1 r).2) := by
  induction l generalizing u with
  | nil => simp
  | cons b l ih => simp [decRun_cons, ih]

theorem decStep_hunt (c : Config) {u : FrUnit} (b : Byte) (h : u.st = .hunt) : decStep c u b = decHunt c u b := by
  simp [decStep, h]

theorem decStep_data (c : Config) {u : FrUnit} (b : Byte) (h : u.st = .data) : decStep c u b = decData c u b := by
  simp [decStep, h]

theorem decStep_esc (c : Config) {u : FrUnit} (b : Byte) (h : u.st = .esc) : decStep c u b = decEsc c u b := by
  simp [decStep, h]

/-- The outputs a decoder outside a frame can give (R115, R246). -/
theorem decStep_hunt_out (c : Config) {u : FrUnit} (b : Byte) (h : u.st = .hunt) :
    (decStep c u b = ({ st := .data, err := false, ne := false }, .frameStart)) ∨ (decStep c u b = (u, .nothing)) := by
  rw [decStep_hunt c b h]
  unfold decHunt
  split
  · exact .inl rfl
  · exact .inr rfl

/-- The outputs a decoder inside a frame can give (R116, R117, R246, R247): never `FrameStart`, data only with `DEC_NE` set
after it, a frame's end only into `D_HUNT`, and a good end only where data was delivered. -/
theorem decStep_inside (c : Config) {u : FrUnit} (b : Byte) (h : u.st ≠ .hunt) :
    ((decStep c u b).2 = .nothing ∧ (decStep c u b).1.st ≠ .hunt ∧ (decStep c u b).1.ne = u.ne)
      ∨ (∃ d, (decStep c u b).2 = .data d ∧ (decStep c u b).1.st ≠ .hunt ∧ (decStep c u b).1.ne = true)
      ∨ ((decStep c u b).2 = .frameEnd false ∧ (decStep c u b).1.st = .hunt)
      ∨ ((decStep c u b).2 = .frameEnd true ∧ (decStep c u b).1.st = .hunt ∧ u.ne = true) := by
  rcases hst : u.st with _ | _ | _
  · exact absurd hst h
  · rw [decStep_data c b hst]
    unfold decData
    split
    · split
      · left
        exact ⟨rfl, by simp [hst], rfl⟩
      · rename_i hn
        right
        right
        cases he : u.err
        · right
          refine ⟨by simp, rfl, ?_⟩
          cases hne : u.ne
          · exact absurd ⟨hne, he⟩ hn
          · rfl
        · left
          exact ⟨by simp, rfl⟩
    · split
      · left
        exact ⟨rfl, by simp, rfl⟩
      · right
        left
        exact ⟨b, rfl, by simp [hst], rfl⟩
  · rw [decStep_esc c b hst]
    unfold decEsc
    split
    · right
      left
      exact ⟨_, rfl, by simp, rfl⟩
    · split
      · right
        left
        exact ⟨_, rfl, by simp, rfl⟩
      · split
        · right
          right
          left
          exact ⟨rfl, rfl⟩
        · left
          exact ⟨rfl, by simp, rfl⟩

/-! ### Operand assembly (R73) -/

theorem ctlByte_eq (code dev : Nibble) : ctlByte code dev = (code.zeroExtend 8 <<< 4) ||| dev.zeroExtend 8 := by
  revert code dev
  decide

@[simp] theorem hiNibble_ctlByte (code dev : Nibble) : hiNibble (ctlByte code dev) = code := by
  revert code dev
  decide

@[simp] theorem loNibble_ctlByte (code dev : Nibble) : loNibble (ctlByte code dev) = dev := by
  revert code dev
  decide

@[simp] theorem ctlByte_nibbles (b : Byte) : ctlByte (hiNibble b) (loNibble b) = b := by
  revert b
  decide

/-- Appending is shifting and adding. -/
theorem append_toNat {w v : Nat} (x : BitVec w) (y : BitVec v) : (x ++ y).toNat = x.toNat * 2 ^ v + y.toNat := by
  rw [BitVec.toNat_append, ← Nat.shiftLeft_add_eq_or_of_lt y.isLt, Nat.shiftLeft_eq]

/-- A 16-bit quantity from its wire bytes (R73). -/
theorem join16_toNat (o : ByteOrder) (b0 b1 : Byte) : (join16 o b0 b1).toNat =
    match o with
    | .bigEndian => b0.toNat * 256 + b1.toNat
    | .littleEndian => b1.toNat * 256 + b0.toNat := by
  cases o
  · exact append_toNat b0 b1
  · exact append_toNat b1 b0

/-- A field from its wire bytes (R73). -/
theorem join32_toNat (o : ByteOrder) (b0 b1 b2 b3 : Byte) : (join32 o b0 b1 b2 b3).toNat =
    match o with
    | .bigEndian => ((b0.toNat * 256 + b1.toNat) * 256 + b2.toNat) * 256 + b3.toNat
    | .littleEndian => ((b3.toNat * 256 + b2.toNat) * 256 + b1.toNat) * 256 + b0.toNat := by
  cases o
  · exact (append_toNat _ _).trans (by rw [append_toNat, append_toNat]; rfl)
  · exact (append_toNat _ _).trans (by rw [append_toNat, append_toNat]; rfl)

/-- Splitting a 16-bit quantity into its wire bytes and joining them gives it back. -/
theorem join16_split16 (o : ByteOrder) (n : Half) : ∃ h l, split16 o n = [h, l] ∧ join16 o h l = n := by
  have := n.isLt
  cases o <;> refine ⟨_, _, rfl, ?_⟩ <;> apply BitVec.eq_of_toNat_eq <;>
    simp only [join16_toNat, BitVec.extractLsb'_toNat, Nat.shiftRight_eq_div_pow] <;> omega

/-- Splitting a field into its wire bytes and joining them gives it back. -/
theorem join32_split32 (o : ByteOrder) (f : Field) :
    ∃ b0 b1 b2 b3, split32 o f = [b0, b1, b2, b3] ∧ join32 o b0 b1 b2 b3 = f := by
  have := f.isLt
  cases o <;> refine ⟨_, _, _, _, rfl, ?_⟩ <;> apply BitVec.eq_of_toNat_eq <;>
    simp only [join32_toNat, BitVec.extractLsb'_toNat, Nat.shiftRight_eq_div_pow] <;> omega

theorem split16_join16 (o : ByteOrder) (b0 b1 : Byte) : split16 o (join16 o b0 b1) = [b0, b1] := by
  have h0 := b0.isLt
  have h1 := b1.isLt
  cases o <;> simp only [split16, List.cons.injEq, and_true] <;> constructor <;> apply BitVec.eq_of_toNat_eq <;>
    simp only [join16_toNat, BitVec.extractLsb'_toNat, Nat.shiftRight_eq_div_pow] <;> omega

theorem split32_join32 (o : ByteOrder) (b0 b1 b2 b3 : Byte) : split32 o (join32 o b0 b1 b2 b3) = [b0, b1, b2, b3] := by
  have h0 := b0.isLt
  have h1 := b1.isLt
  have h2 := b2.isLt
  have h3 := b3.isLt
  cases o <;> simp only [split32, List.cons.injEq, and_true] <;> refine ⟨?_, ?_, ?_, ?_⟩ <;> apply BitVec.eq_of_toNat_eq <;>
    simp only [join32_toNat, BitVec.extractLsb'_toNat, Nat.shiftRight_eq_div_pow] <;> omega

end Sys2Proof.Laws
end

