-- ==== Sys2Proof/Laws/Keeps.lean ====
section
/-! SUPPORT. What each shared operation of the engine does to the invariant `Inv`: from a state that meets what the operation
needs it answers a next state, and the invariant holds there. One lemma per operation. -/

namespace Sys2Proof.Laws

open Sys2Proof.Machine

/-- The part of `Inv` that does not look at the phase: what every way back to `IDLE` needs. -/
structure Base (s : State) : Prop where
  cfgValid : configValid s.cfg = true
  hdrForm : s.eng.hdrBuf.wf = true
  rxForm : s.eng.rxBuf.wf = true
  envForm : s.eng.envBuf.wf = true
  hdrBound : s.eng.hdrCnt.toNat ≤ hdrMax
  rxBound : s.eng.rxCnt.toNat ≤ rxMax s.cfg
  envBound : s.eng.envCnt.toNat ≤ envMax s.cfg
  hdrWritten : writtenBelow s.eng.hdrBuf s.eng.hdrCnt.toNat
  rxWritten : writtenBelow s.eng.rxBuf s.eng.rxCnt.toNat
  envWritten : writtenBelow s.eng.envBuf s.eng.envCnt.toNat
  lineReleased : s.eng.lineOut = false

/-- The part of `Inv` that does not look at the phase. -/
theorem Base.of_inv {s : State} (h : Inv s) : Base s :=
  { cfgValid := h.cfgValid, hdrForm := h.hdrForm, rxForm := h.rxForm, envForm := h.envForm, hdrBound := h.hdrBound,
    rxBound := h.rxBound, envBound := h.envBound, hdrWritten := h.hdrWritten, rxWritten := h.rxWritten,
    envWritten := h.envWritten, lineReleased := h.lineReleased }

/-- The part of `Inv` that looks at the phase. -/
structure PhasePart (s : State) : Prop where
  phaseOk : phaseLegal s.cfg s.eng.phase = true
  hdrOpen : s.eng.phase = .rxHdr → 1 ≤ s.eng.hdrCnt.toNat ∧ s.eng.hdrCnt.toNat ≤ 4
  hdrStart : s.eng.phase = .cmdDetect → s.eng.hdrCnt = 0
  noPayload : beforePayload s.eng.phase = true → s.eng.rxCnt = 0
  payloadOpen : s.eng.phase = .rxPayload → s.eng.rxCnt.toNat < s.eng.pLen.toNat ∧ s.eng.pLen.toNat ≤ rxMax s.cfg
  payloadDone : s.eng.phase = .rxPcsum → s.eng.rxCnt = s.eng.pLen
  writeHeld : afterHeader s.eng.phase = true → s.eng.frame.direction = .write
  lengthHeld : lengthKnown s.eng.phase = true → s.eng.pLen.toNat ≤ payloadCeiling s.cfg s.eng.frame.expectedLength
  decoderOk : s.cfg.bus = .fujibus → decoderFits s.eng.phase s.eng.fr
  lineHeld : detect s.cfg = .line → s.eng.phase = .cmdDetect ∨ s.eng.phase = .rxHdr → s.eng.linePrev = true

/-- The two parts of `Inv` together. -/
theorem Base.inv {s : State} (b : Base s) (p : PhasePart s) : Inv s :=
  { cfgValid := b.cfgValid, phaseOk := p.phaseOk, hdrForm := b.hdrForm, rxForm := b.rxForm, envForm := b.envForm,
    hdrBound := b.hdrBound, rxBound := b.rxBound, envBound := b.envBound, hdrWritten := b.hdrWritten,
    rxWritten := b.rxWritten, envWritten := b.envWritten, hdrOpen := p.hdrOpen, hdrStart := p.hdrStart,
    noPayload := p.noPayload, payloadOpen := p.payloadOpen, payloadDone := p.payloadDone,
    writeHeld := p.writeHeld, lengthHeld := p.lengthHeld, decoderOk := p.decoderOk,
    lineReleased := b.lineReleased, lineHeld := p.lineHeld }

/-- `Base` looks at the configuration, the buffers, their counters and the output line only. -/
theorem Base.congr {s t : State} (h : Base s) (hc : t.cfg = s.cfg)
    (h1 : t.eng.hdrBuf = s.eng.hdrBuf) (h2 : t.eng.hdrCnt = s.eng.hdrCnt) (h3 : t.eng.rxBuf = s.eng.rxBuf)
    (h4 : t.eng.rxCnt = s.eng.rxCnt) (h5 : t.eng.envBuf = s.eng.envBuf) (h6 : t.eng.envCnt = s.eng.envCnt)
    (h7 : t.eng.lineOut = s.eng.lineOut) : Base t := by
  constructor <;> simp only [hc, h1, h2, h3, h4, h5, h6, h7]
  exacts [h.cfgValid, h.hdrForm, h.rxForm, h.envForm, h.hdrBound, h.rxBound, h.envBound, h.hdrWritten, h.rxWritten,
    h.envWritten, h.lineReleased]

/-- Output lists that leave a released line released. -/
def releases (os : List Output) : Prop := os.foldl (fun v o => lineAfter o v) false = false

/-- Outputs that leave the line released keep `Base`. -/
theorem Base.emitAll {s : State} (h : Base s) {os : List Output} (ho : releases os) : Base (emitAll os s) := by
  refine h.congr (by simp) (by simp) (by simp) (by simp) (by simp) (by simp) (by simp) ?_
  rw [emitAll_eng]
  simpa [releases, h.lineReleased] using ho

/-- What `IDLE` asks for. -/
theorem PhasePart.idle {s : State} (hp : s.eng.phase = .idle) (hd : s.cfg.bus = .fujibus → s.eng.fr.st = .hunt) :
    PhasePart s := by
  constructor <;> simp [hp, phaseLegal, beforePayload, afterHeader, lengthKnown, decoderFits]
  exact hd

/-- What `DISPATCH` asks for. -/
theorem PhasePart.dispatch {s : State} (hp : s.eng.phase = .dispatch)
    (hd : s.cfg.bus = .fujibus → s.eng.fr.st = .hunt) : PhasePart s := by
  constructor <;> simp [hp, phaseLegal, beforePayload, afterHeader, lengthKnown, decoderFits]
  exact hd

/-- `to_idle()` (R134) leads to the invariant from any phase. -/
theorem Base.toIdle {s : State} (h : Base s) : Inv (toIdle s) := by
  refine Base.inv (h.congr rfl rfl rfl rfl rfl rfl rfl rfl) (PhasePart.idle rfl ?_)
  intro hb
  simp only [toIdle_cfg] at hb
  simp [idleFr, hb, decReset]

theorem Base.setErr {s : State} (h : Base s) (e : Err) : Base (setErr e s) :=
  h.congr rfl rfl rfl rfl rfl rfl rfl rfl

/-- `fail(E)` (R266) leads to the invariant from any phase. -/
theorem Base.fail {s : State} (h : Base s) (e : Err) : Inv (fail e s) := (h.setErr e).toIdle

/-- A failure with its action (R266) leads to the invariant from any phase. -/
theorem Base.failWith {s : State} (h : Base s) {os : List Output} (ho : releases os) (e : Err) :
    Inv (failWith os e s) := (h.emitAll ho).fail e

theorem releases_nil : releases [] := rfl
theorem releases_ackPulse : releases ackPulse := rfl
theorem releases_cmdAck (c : Config) : releases (cmdAck c) := by unfold cmdAck; split <;> rfl
theorem releases_payloadAck (c : Config) : releases (payloadAck c) := by unfold payloadAck; split <;> rfl
theorem releases_nak (c : Config) (e : Engine) : releases (nak c e) := by unfold nak; split <;> rfl
theorem releases_fbRespond (c : Config) (e : Engine) (st : Field) (d : List Byte) : releases (fbRespond c e st d) := rfl
theorem releases_unsupported (c : Config) (e : Engine) : releases (unsupported c e) := by unfold unsupported; split <;> rfl
theorem releases_response (c : Config) (e : Engine) (st : Byte) (d : List Byte) (nd ok : Bool) :
    releases (response c e st d nd ok).1 := by
  unfold response sioResponse iecResponse smartportResponse adamnetResponse fujibusResponse
  split <;> (repeat' (first | rfl | split)) 

/-- Only AdamNet waits for the host. -/
theorem response_waits {c : Config} {e : Engine} {st : Byte} {d : List Byte} {nd ok : Bool}
    (h : (response c e st d nd ok).2 = true) : c.bus = .adamnet := by
  unfold response at h
  split at h <;> simp_all

/-- `do_dispatch()` (R146). -/
theorem Base.doDispatch {s : State} (h : Base s) (hd : s.cfg.bus = .fujibus → s.eng.fr.st = .hunt) (fl : List Field) :
    ∃ t, doDispatch fl s = .next t ∧ Inv t := by
  obtain ⟨l, hl, -, -⟩ := readRange_below h.rxBound h.rxWritten
  refine ⟨_, by simp [Machine.doDispatch, hl]; rfl, ?_⟩
  refine Base.inv (h.congr (by simp) (by simp) (by simp) (by simp) (by simp) (by simp) (by simp) (by simp [lineAfter])) ?_
  exact PhasePart.dispatch (by simp) (by simpa using hd)

/-- `route()` (R141) after the table-length check. -/
theorem Base.route {s : State} (h : Base s) (hf : s.cfg.bus ≠ .fujibus) (hx : s.eng.rxCnt = 0)
    (ht : lenMode s.cfg = .table → s.eng.frame.expectedLength.toNat ≤ rxMax s.cfg) :
    ∃ t, route s = .next t ∧ Inv t := by
  have hb := h.emitAll (releases_cmdAck s.cfg)
  have hm : lenMode s.cfg ≠ .delimited := by
    intro hm; unfold lenMode at hm; split at hm <;> simp_all
  unfold Machine.route
  split
  · rename_i h1
    refine ⟨_, rfl, Base.inv (by exact hb.congr rfl rfl rfl rfl rfl rfl rfl rfl) ?_⟩
    constructor <;> simp [phaseLegal, beforePayload, afterHeader, lengthKnown, decoderFits, h1.1, h1.2, hx]
  · split
    · rename_i h1 h2
      have h3 : lenMode s.cfg = .table := by
        cases hl : lenMode s.cfg
        · rfl
        · exact absurd ⟨h2.1, hl⟩ h1
        · exact absurd hl hm
      refine ⟨_, rfl, Base.inv (by exact hb.congr rfl rfl rfl rfl rfl rfl rfl rfl) ?_⟩
      constructor <;> simp [phaseLegal, beforePayload, afterHeader, lengthKnown, decoderFits, hm, hx, h2.1]
      · exact ⟨h2.2, ht h3⟩
      · simpa [payloadCeiling, rxMax] using ht h3
    · exact hb.doDispatch (by simpa using fun hb => absurd hb hf) []

theorem firstFailure_releases {bad : Bool} {os os' : List Output} {e : Err} {s : State} (ho : releases os)
    (h : firstFailure bad os s = some (os', e)) : releases os' := by
  unfold firstFailure presenceFailure csumFailure at h
  split at h <;> split at h <;> split at h <;> simp at h <;> (obtain ⟨rfl, -⟩ := h) <;> first | exact ho | rfl

/-- `header_complete` (R140). -/
theorem Base.headerComplete {s : State} (h : Base s) (hf : s.cfg.bus ≠ .fujibus) (hx : s.eng.rxCnt = 0) (k : Bool) :
    ∃ t, headerComplete k s = .next t ∧ Inv t := by
  unfold Machine.headerComplete
  split
  · rename_i os e ho
    exact ⟨_, rfl, h.failWith (firstFailure_releases (releases_nak _ _) ho) e⟩
  · split
    · exact ⟨_, rfl, h.failWith (releases_unsupported _ _) .unsup⟩
    · rename_i ent _
      have hl : Base (loadEntry ent s) := h.congr rfl rfl rfl rfl rfl rfl rfl rfl
      unfold acceptEntry
      split
      · exact ⟨_, rfl, hl.failWith (releases_nak _ _) .len⟩
      · rename_i hlen
        refine hl.route hf hx ?_
        intro hm
        have hm : lenMode s.cfg = .table := hm
        have : ¬ rxMax s.cfg < ent.expectedLength.toNat := fun hlt => hlen ⟨hm, hlt⟩
        simpa using this

theorem hdrShape_bus {c : Config} (h : hdrShape c ≠ .envelope) : c.bus ≠ .fujibus := by
  unfold hdrShape at h
  split at h <;> simp_all

/-- `header_byte(b)` (R139) with at most four bytes stored. -/
theorem Base.headerByte {s : State} (h : Base s) (b : Byte) (hs : hdrShape s.cfg ≠ .envelope)
    (hc : s.eng.hdrCnt.toNat ≤ 4) (hp : s.eng.phase = .rxHdr) (hx : s.eng.rxCnt = 0)
    (hl : detect s.cfg = .line → s.eng.linePrev = true) : ∃ t, headerByte b s = .next t ∧ Inv t := by
  have hb := hdrShape_bus hs
  have hw : writeByte hdrMax s.eng.hdrBuf s.eng.hdrCnt.toNat b = .ok (s.eng.hdrBuf.write s.eng.hdrCnt.toNat b) := by
    simp [writeByte, hdrMax, show s.eng.hdrCnt.toNat < 5 by omega]
  have hcnt : (s.eng.hdrCnt + 1).toNat = s.eng.hdrCnt.toNat + 1 := by
    rw [BitVec.toNat_add]; simp; omega
  set m := s.eng.hdrBuf.write s.eng.hdrCnt.toNat b with hm
  have hB : Base (storeHeader m s) := by
    constructor <;> simp only [storeHeader_cfg, storeHeader_eng]
    exacts [h.cfgValid, wf_write h.hdrForm, h.rxForm, h.envForm, by rw [hcnt]; simp [hdrMax]; omega, h.rxBound, h.envBound,
      by rw [hcnt]; exact writtenBelow_write h.hdrWritten, h.rxWritten, h.envWritten, h.lineReleased]
  unfold Machine.headerByte
  simp only [hw]
  split
  · rename_i hshape
    split
    · rename_i h4
      refine ⟨_, rfl, Base.inv (by exact hB.congr rfl rfl rfl rfl rfl rfl rfl rfl) ?_⟩
      simp only [storeHeader_eng, hcnt] at h4
      have hd : phaseLegal s.cfg .rxHdr = true := by simp [phaseLegal, hshape]
      constructor <;> simp [hp, hd, beforePayload, afterHeader, lengthKnown, decoderFits, hx]
      · omega
      · simpa using hl
    · rename_i h4
      simp only [storeHeader_eng, hcnt] at h4
      unfold finishFiveByte
      obtain ⟨l, hr, hlen, -⟩ := readRange_below (size := hdrMax) (m := (engCheck b (storeHeader m s)).eng.hdrBuf) (n := 4)
        (by simp [hdrMax]) (by
          refine writtenBelow_mono hB.hdrWritten ?_
          simp only [storeHeader_eng, hcnt]; omega)
      simp only [hr]
      match l, hlen with
      | [d, cmd, a1, a2], _ =>
        exact Base.headerComplete (s := loadHeader d cmd a1 a2 (engCheck b (storeHeader m s)))
          (hB.congr rfl rfl rfl rfl rfl rfl rfl rfl) hb hx true
  · exact Base.headerComplete
      (s := loadHeader ((loNibble b).zeroExtend 8) ((hiNibble b).zeroExtend 8) 0 0 (storeHeader m s))
      (hB.congr rfl rfl rfl rfl rfl rfl rfl rfl) hb hx false
  · rename_i hshape
    exact absurd hshape hs

/-- The profile constants that say the same (R28). -/
theorem detect_shape {c : Config} : (detect c = .line ↔ hdrShape c = .fiveByte) ∧
    (detect c = .controlByte ↔ hdrShape c = .controlByte) ∧ (detect c = .delimiter ↔ c.bus = .fujibus) ∧ 
    (hdrShape c = .envelope ↔ c.bus = .fujibus) ∧ (lenMode c = .delimited ↔ c.bus = .fujibus) := by
  unfold detect hdrShape lenMode
  cases c.bus <;> simp

/-- `begin_frame()` (R136) empties the counters. -/
theorem Base.beginFrame {s : State} (h : Base s) : Base (beginFrame s) := by
  constructor <;> simp only [beginFrame_cfg, beginFrame_eng]
  exacts [h.cfgValid, h.hdrForm, h.rxForm, h.envForm, by simp, by simp, by simp, writtenBelow_zero _,
    writtenBelow_zero _, writtenBelow_zero _, h.lineReleased]

/-- `env_store(d)` (R247), called in `S_ENV` with the decoder inside a frame that has delivered a byte. -/
theorem Base.envStore {s : State} (h : Base s) (d : Byte) (hf : s.cfg.bus = .fujibus) (hp : s.eng.phase = .rxEnv)
    (hd : s.eng.fr.st ≠ .hunt ∧ s.eng.fr.ne = true) : ∃ t, envStore d s = .next t ∧ Inv t := by
  unfold Machine.envStore
  split
  · exact ⟨_, rfl, h.fail .overrun⟩
  · rename_i hne
    have hlt : s.eng.envCnt.toNat < envMax s.cfg := by have := h.envBound; omega
    have hw := writtenBelow_write (b := d) h.envWritten
    have hle : (envCntNext s).toNat ≤ s.eng.envCnt.toNat + 1 := by
      unfold envCntNext
      split
      · rename_i hf
        have : s.eng.envCnt.toNat = 65535 := by
          have := eq_of_beq hf
          simp [this]
        omega
      · exact le_trans (BitVec.toNat_add _ _ ▸ Nat.mod_le _ _) (by simp)
    simp only [writeByte, hlt, if_true]
    refine ⟨_, rfl, Base.inv ?_ ?_⟩
    · constructor <;> simp only [storeEnvelope_cfg, storeEnvelope_eng]
      exacts [h.cfgValid, h.hdrForm, h.rxForm, wf_write h.envForm, h.hdrBound, h.rxBound, by omega, h.hdrWritten,
        h.rxWritten, writtenBelow_mono hw hle, h.lineReleased]
    · constructor <;> simp [hp, phaseLegal, beforePayload, afterHeader, lengthKnown, decoderFits, hf, hd.1, hd.2]

/-- R248 and R249 on the bytes of a complete envelope. -/
theorem Base.parseEnvelope {s : State} (h : Base s) (hd : s.eng.fr.st = .hunt) (bytes : List Byte) :
    ∃ t, parseEnvelope bytes s = .next t ∧ Inv t := by
  have hmax : (rxMax s.cfg) < 65536 := by simp [rxMax]; omega
  unfold Machine.parseEnvelope
  split
  · rename_i seq command pc deviceId b4 more
    simp only []
    set u := loadEnvelope seq command pc deviceId ([seq, command, pc, deviceId] ++ (b4 :: more).dropLast)
      ((b4 :: more).getLast (List.cons_ne_nil b4 more)) s with hu
    have hB : Base u := h.congr rfl rfl rfl rfl rfl rfl rfl rfl
    have hud : u.eng.fr.st = .hunt := hd
    have huc : u.cfg = s.cfg := rfl
    unfold envelopeChecks
    split
    · rename_i os e ho
      exact ⟨_, rfl, hB.failWith (firstFailure_releases releases_nil ho) e⟩
    · split
      · exact ⟨_, rfl, hB.fail _⟩
      · simp only []
        set fl := takeFields u.cfg.fbFieldOrder pc.toNat (b4 :: more).dropLast
        set pay := List.drop (4 * pc.toNat) (b4 :: more).dropLast
        have hL : Base (loadAux fl u) := hB.congr rfl rfl rfl rfl rfl rfl rfl rfl
        unfold envelopeRoute
        split
        · exact ⟨_, rfl, hL.failWith (releases_unsupported _ _) _⟩
        · rename_i ent _
          have hE : Base (loadEntry ent (loadAux fl u)) := hL.congr rfl rfl rfl rfl rfl rfl rfl rfl
          simp only []
          split
          · exact ⟨_, rfl, hE.failWith (releases_fbRespond _ _ _ _) _⟩
          · split
            · exact ⟨_, rfl, hE.fail _⟩
            · rename_i hlen
              set v := loadEntry ent (loadAux fl u)
              have hvc : v.cfg = s.cfg := rfl
              have hpl : pay.length ≤ rxMax v.cfg := by
                have : payloadCeiling v.cfg ent.expectedLength ≤ rxMax v.cfg := by
                  simp [payloadCeiling, rxMax]
                omega
              unfold splitDispatch
              obtain ⟨m, hm, hwf, hrd⟩ := writeRange_ok (size := rxMax v.cfg) (m := v.eng.rxBuf) (i := 0) (bytes := pay)
                (by omega)
              simp only [hm]
              have hcnt : (BitVec.ofNat 16 pay.length).toNat = pay.length := by
                simp; rw [hvc] at hpl; omega
              refine Base.doDispatch ?_ (by exact fun _ => hud) fl
              constructor <;> simp only []
              exacts [hE.cfgValid, hE.hdrForm, hwf hE.rxForm, hE.envForm, hE.hdrBound, by rw [hcnt]; exact hpl, hE.envBound,
                hE.hdrWritten, by
                  rw [hcnt]; intro i hi
                  rw [hrd i, if_pos (by omega)]
                  simp [hi], hE.envWritten, hE.lineReleased]
  · exact ⟨_, rfl, h.fail _⟩

/-- The engine's decoder after a byte; nothing else of `Base` moves. -/
theorem Base.engDecode {s : State} (h : Base s) (b : Byte) : Base (engDecode b s).1 :=
  h.congr rfl rfl rfl rfl rfl rfl rfl rfl

/-- `EvRx` in `IDLE` (R135, R246). -/
theorem idleByte_keeps {s : State} (h : Inv s) (hp : s.eng.phase = .idle) (b : Byte) :
    ∃ t, idleByte b s = .next t ∧ Inv t := by
  have hB := Base.of_inv h
  unfold idleByte
  split
  · exact ⟨_, rfl, h⟩
  · rename_i hd
    split
    · refine Base.headerByte (by exact hB.beginFrame.congr rfl rfl rfl rfl rfl rfl rfl rfl) b ?_ ?_ (by rfl) (by rfl) ?_
      · have := (detect_shape.2.1).mp hd; simp [this]
      · simp
      · simp [hd]
    · exact ⟨_, rfl, h⟩
  · rename_i hd
    have hf := (detect_shape (c := s.cfg)).2.2.1.mp hd
    have hh : s.eng.fr.st = .hunt := by simpa [decoderFits, hp] using h.decoderOk hf
    unfold fujiIdleByte
    rcases decStep_hunt_out s.cfg b hh with he | he
    · simp only [Machine.engDecode, he]
      refine ⟨_, rfl, Base.inv (Base.beginFrame (by exact hB.congr rfl rfl rfl rfl rfl rfl rfl rfl)) ?_⟩
      constructor <;> simp [phaseLegal, beforePayload, afterHeader, lengthKnown, decoderFits, hd]
    · simp only [Machine.engDecode, he]
      exact ⟨_, rfl, h⟩

/-- `EvRx` in `CMD_DETECT` (R137, R246). -/
theorem detectByte_keeps {s : State} (h : Inv s) (hp : s.eng.phase = .cmdDetect) (b : Byte) :
    ∃ t, detectByte b s = .next t ∧ Inv t := by
  have hB := Base.of_inv h
  unfold detectByte
  split
  · rename_i hd
    refine Base.headerByte (by exact hB.congr rfl rfl rfl rfl rfl rfl rfl rfl) b ?_ ?_ (by rfl) ?_ ?_
    · have := (detect_shape.1).mp hd; simp [this]
    · simp [h.hdrStart hp]
    · simpa using h.noPayload (by simp [hp, beforePayload])
    · intro _; exact h.lineHeld hd (.inl hp)
  · rename_i hd
    have := h.phaseOk
    simp [hp, phaseLegal, hd] at this
  · rename_i hd
    have hf := (detect_shape (c := s.cfg)).2.2.1.mp hd
    have hdec : s.eng.fr.st ≠ .hunt ∧ s.eng.fr.ne = false := by simpa [decoderFits, hp] using h.decoderOk hf
    unfold fujiDetectByte
    have hout := decStep_inside s.cfg b hdec.1
    rcases hout with ⟨ho, h1, h2⟩ | ⟨d, ho, h1, h2⟩ | ⟨ho, h1⟩ | ⟨ho, h1, h2⟩
    · simp only [Machine.engDecode, ho]
      refine ⟨_, rfl, Base.inv (by exact hB.congr rfl rfl rfl rfl rfl rfl rfl rfl) ?_⟩
      constructor <;> simp [hp, phaseLegal, beforePayload, afterHeader, lengthKnown, decoderFits, hd, h.hdrStart hp, h.noPayload (by simp [hp, beforePayload]), h1, h2, hdec.2]
    · simp only [Machine.engDecode, ho]
      exact Base.envStore (s := setPhase .rxEnv _) (by exact hB.congr rfl rfl rfl rfl rfl rfl rfl rfl) d hf rfl (by exact ⟨h1, h2⟩)
    · simp only [Machine.engDecode, ho]
      exact ⟨_, rfl, Base.fail (by exact hB.congr rfl rfl rfl rfl rfl rfl rfl rfl) _⟩
    · rw [hdec.2] at h2; cases h2

/-- `EvRx` in `S_ENV` (R247). -/
theorem envelopeByte_keeps {s : State} (h : Inv s) (hp : s.eng.phase = .rxEnv) (b : Byte) :
    ∃ t, envelopeByte b s = .next t ∧ Inv t := by
  have hB := Base.of_inv h
  have hf : s.cfg.bus = .fujibus := by simpa [hp, phaseLegal] using h.phaseOk
  have hdec : s.eng.fr.st ≠ .hunt ∧ s.eng.fr.ne = true := by simpa [decoderFits, hp] using h.decoderOk hf
  unfold envelopeByte
  rcases decStep_inside s.cfg b hdec.1 with ⟨ho, h1, h2⟩ | ⟨d, ho, h1, h2⟩ | ⟨ho, h1⟩ | ⟨ho, h1, h2⟩
  · simp only [Machine.engDecode, ho]
    refine ⟨_, rfl, Base.inv (by exact hB.congr rfl rfl rfl rfl rfl rfl rfl rfl) ?_⟩
    constructor <;> simp [hp, phaseLegal, beforePayload, afterHeader, lengthKnown, decoderFits, hf, h1, h2, hdec.2]
  · simp only [Machine.engDecode, ho]
    exact Base.envStore (by exact hB.congr rfl rfl rfl rfl rfl rfl rfl rfl) d hf hp (by exact ⟨h1, h2⟩)
  · simp only [Machine.engDecode, ho]
    exact ⟨_, rfl, Base.fail (by exact hB.congr rfl rfl rfl rfl rfl rfl rfl rfl) _⟩
  · simp only [Machine.engDecode, ho, if_true]
    unfold envelopeComplete
    obtain ⟨l, hl, -, -⟩ := readRange_below hB.envBound hB.envWritten
    simp only [hl]
    exact Base.parseEnvelope (by exact hB.congr rfl rfl rfl rfl rfl rfl rfl rfl) (by exact h1) l

/-- `EvRx` in `S_PAYLOAD` (R144). -/
theorem payloadByte_keeps {s : State} (h : Inv s) (hp : s.eng.phase = .rxPayload) (b : Byte) :
    ∃ t, payloadByte b s = .next t ∧ Inv t := by
  have hB := Base.of_inv h
  obtain ⟨h1, h2⟩ := h.payloadOpen hp
  have hw := h.writeHeld (by simp [hp, afterHeader])
  have hk := h.lengthHeld (by simp [hp, lengthKnown])
  have hcnt : (s.eng.rxCnt + 1).toNat = s.eng.rxCnt.toNat + 1 := by
    rw [BitVec.toNat_add]; simp; omega
  have hlt : s.eng.rxCnt.toNat < rxMax s.cfg := by omega
  have hm : lenMode s.cfg ≠ .delimited := by simpa [hp, phaseLegal] using h.phaseOk
  have hf : s.cfg.bus ≠ .fujibus := fun hb => hm ((detect_shape).2.2.2.2.mpr hb)
  set m := s.eng.rxBuf.write s.eng.rxCnt.toNat b with hmm
  have hS : Base (engAbsorb b (storePayload m s)) := by
    constructor <;> simp only [storePayload_cfg, storePayload_eng, engAbsorb_cfg, engAbsorb_eng]
    exacts [h.cfgValid, h.hdrForm, wf_write h.rxForm, h.envForm, h.hdrBound, by omega, h.envBound, h.hdrWritten,
      by rw [hcnt]; exact writtenBelow_write h.rxWritten, h.envWritten, h.lineReleased]
  refine ⟨_, by simp only [payloadByte, writeByte, hlt, if_true]; rfl, ?_⟩
  split
  · rename_i he
    refine Base.inv (by exact hS.congr rfl rfl rfl rfl rfl rfl rfl rfl) ?_
    constructor <;> simp [phaseLegal, beforePayload, afterHeader, lengthKnown, decoderFits, hm, hw, hk]
    simpa using he
  · rename_i he
    refine Base.inv hS ?_
    constructor <;> simp [hp, phaseLegal, beforePayload, afterHeader, lengthKnown, decoderFits, hm, hw, hk]
    refine ⟨?_, h2⟩
    have hne : (s.eng.rxCnt + 1).toNat ≠ s.eng.pLen.toNat := fun hc => he (by simpa using BitVec.eq_of_toNat_eq hc)
    omega

/-- `EvRx` in `S_PCSUM` (R145). -/
theorem payloadChecksum_keeps {s : State} (h : Inv s) (hp : s.eng.phase = .rxPcsum) (b : Byte) :
    ∃ t, payloadChecksum b s = .next t ∧ Inv t := by
  have hB := Base.of_inv h
  have hm : lenMode s.cfg ≠ .delimited := by simpa [hp, phaseLegal] using h.phaseOk
  have hf : s.cfg.bus ≠ .fujibus := fun hb => hm ((detect_shape).2.2.2.2.mpr hb)
  have hC : Base (engCheck b s) := hB.congr rfl rfl rfl rfl rfl rfl rfl rfl
  unfold payloadChecksum
  simp only []
  split
  · exact (hC.emitAll (releases_payloadAck _)).doDispatch (by simpa using fun hb => absurd hb hf) []
  · exact ⟨_, rfl, hC.failWith (releases_nak _ _) _⟩

/-- `EvRx` in `S_LEN_HI` (R143). -/
theorem lenHiByte_keeps {s : State} (h : Inv s) (hp : s.eng.phase = .rxLenHi) (b : Byte) : Inv (lenHiByte b s) := by
  have hm : lenMode s.cfg = .prefixed := by simpa [hp, phaseLegal] using h.phaseOk
  refine Base.inv (by exact (Base.of_inv h).congr rfl rfl rfl rfl rfl rfl rfl rfl) ?_
  constructor <;> simp [phaseLegal, beforePayload, afterHeader, lengthKnown, decoderFits, hm,
    h.writeHeld (by simp [hp, afterHeader])]
  exact h.noPayload (by simp [hp, beforePayload])

/-- `EvRx` in `S_LEN_LO` (R143). -/
theorem lenLoByte_keeps {s : State} (h : Inv s) (hp : s.eng.phase = .rxLenLo) (b : Byte) : Inv (lenLoByte b s) := by
  have hm : lenMode s.cfg = .prefixed := by simpa [hp, phaseLegal] using h.phaseOk
  have hx := h.noPayload (by simp [hp, beforePayload])
  have hw := h.writeHeld (by simp [hp, afterHeader])
  have hB := Base.of_inv h
  unfold lenLoByte
  simp only []
  split
  · exact hB.failWith (releases_nak _ _) _
  · rename_i hlen
    have hle : (join16 s.cfg.lenPrefixOrder s.eng.lenHi b).toNat ≤ rxMax s.cfg := by
      have : payloadCeiling s.cfg s.eng.frame.expectedLength ≤ rxMax s.cfg := by simp [payloadCeiling, rxMax]
      omega
    refine Base.inv (by exact hB.congr rfl rfl rfl rfl rfl rfl rfl rfl) ?_
    split
    · rename_i h0
      constructor <;> simp [phaseLegal, beforePayload, afterHeader, lengthKnown, decoderFits, hm, hx, hw]
      · exact ⟨h0, hle⟩
      · omega
    · rename_i h0
      constructor <;> simp [phaseLegal, beforePayload, afterHeader, lengthKnown, decoderFits, hm, hx, hw]
      · apply BitVec.eq_of_toNat_eq
        simp; omega
      · omega

/-- `EvRx` in `S_WAIT_HOST_ACK` (R150). -/
theorem hostAckByte_keeps {s : State} (h : Inv s) (b : Byte) : Inv (hostAckByte b s) := by
  unfold hostAckByte
  split
  · exact (Base.of_inv h).toIdle
  · split
    · exact (Base.of_inv h).fail _
    · exact h

/-- `EvRx` in any phase (R156). -/
theorem rxByte_keeps {s : State} (h : Inv s) (b : Byte) : ∃ t, rxByte b s = .next t ∧ Inv t := by
  unfold rxByte
  split <;> rename_i hp
  · exact idleByte_keeps h hp b
  · exact detectByte_keeps h hp b
  · have hs : hdrShape s.cfg = .fiveByte := by simpa [hp, phaseLegal] using h.phaseOk
    exact Base.headerByte (Base.of_inv h) b (by simp [hs]) (h.hdrOpen hp).2 hp (h.noPayload (by simp [hp, beforePayload]))
      (fun hd => h.lineHeld hd (.inr hp))
  · exact ⟨_, rfl, lenHiByte_keeps h hp b⟩
  · exact ⟨_, rfl, lenLoByte_keeps h hp b⟩
  · exact payloadByte_keeps h hp b
  · exact payloadChecksum_keeps h hp b
  · exact envelopeByte_keeps h hp b
  · exact ⟨_, rfl, h⟩
  · exact ⟨_, rfl, hostAckByte_keeps h b⟩

/-- A run of `EvRx` (R42). -/
theorem rxBytes_keeps {s : State} (h : Inv s) (l : List Byte) : ∃ t, rxBytes l s = .next t ∧ Inv t := by
  induction l generalizing s with
  | nil => exact ⟨s, rfl, h⟩
  | cons b l ih =>
    obtain ⟨t, ht, hi⟩ := rxByte_keeps h b
    obtain ⟨u, hu, hj⟩ := ih hi
    exact ⟨u, by simp [rxBytes, andThen, ht, hu], hj⟩

/-- Changing what `Inv` does not look at. -/
theorem Inv_congr {s t : State} (h : Inv s) (hc : t.cfg = s.cfg) (he : t.eng = s.eng) : Inv t := by
  constructor <;> simp only [hc, he]
  exacts [h.cfgValid, h.phaseOk, h.hdrForm, h.rxForm, h.envForm, h.hdrBound, h.rxBound, h.envBound, h.hdrWritten, h.rxWritten, h.envWritten, h.hdrOpen, h.hdrStart, h.noPayload, h.payloadOpen, h.payloadDone, h.writeHeld, h.lengthHeld, h.decoderOk, h.lineReleased, h.lineHeld]

/-- The reading of a form off the transmit stream (R40). -/
theorem takeOff_keeps {s : State} (h : Inv s) (bs : List Bus) (l : List Byte) : ∃ t, takeOff bs l s = .next t ∧ Inv t := by
  refine ⟨_, rfl, ?_⟩
  split
  · exact Inv_congr h rfl rfl
  · exact h

/-- `EvLine` (R152). -/
theorem lineEvent_keeps {s : State} (h : Inv s) (v : Bool) : Inv (lineEvent v s) := by
  have hB := Base.of_inv h
  have hT : Base (setLinePrev v s) := hB.congr rfl rfl rfl rfl rfl rfl rfl rfl
  unfold lineEvent
  simp only []
  split
  · rename_i hd
    have hf : s.cfg.bus ≠ .fujibus := fun hb => by rw [(detect_shape).2.2.1.mpr hb] at hd; cases hd
    split
    · rename_i hh
      refine Base.inv hT.beginFrame ?_
      constructor <;> simp [phaseLegal, beforePayload, afterHeader, lengthKnown, decoderFits, hd, hf, hh.2.2]
    · split
      · exact hT.fail _
      · rename_i h1 h2
        refine Base.inv hT ?_
        constructor
        exacts [h.phaseOk, h.hdrOpen, h.hdrStart, h.noPayload, h.payloadOpen, h.payloadDone, h.writeHeld, h.lengthHeld, h.decoderOk, by
          intro _ hp
          have hp : s.eng.phase = .cmdDetect ∨ s.eng.phase = .rxHdr := hp
          show v = true
          cases v
          · exact absurd ⟨rfl, hp⟩ h2
          · rfl]
  · rename_i hd
    refine Base.inv hT ?_
    constructor
    exacts [h.phaseOk, h.hdrOpen, h.hdrStart, h.noPayload, h.payloadOpen, h.payloadDone, h.writeHeld, h.lengthHeld, h.decoderOk, fun hd' => absurd hd' hd]

/-- Response-Send (R149). -/
theorem sendResponse_keeps {s : State} (h : Inv s) (st : Byte) (d : List Byte) : Inv (sendResponse st d s) := by
  unfold sendResponse
  simp only []
  set ok := lenOk s.cfg s.eng d
  have hT := (Base.of_inv h).emitAll (releases_response s.cfg s.eng st d (needData s.eng) ok)
  set t := emitAll (response s.cfg s.eng st d (needData s.eng) ok).1 s with ht
  set u := (if st ≠ 0x00 ∨ ok = false then setErr .device t else t) with hu
  have hU : Base u := by rw [hu]; split; exact hT.setErr _; exact hT
  have hc : u.cfg = s.cfg := by rw [hu]; split <;> simp [ht]
  split
  · rename_i hw
    have ha := response_waits hw
    refine Base.inv (by exact hU.congr rfl rfl rfl rfl rfl rfl rfl rfl) ?_
    constructor <;> simp [phaseLegal, beforePayload, afterHeader, lengthKnown, decoderFits, hc, ha]
  · exact hU.toIdle

/-- `EvTimeout` (R151). -/
theorem timeoutEvent_keeps {s : State} (h : Inv s) : Inv (timeoutEvent s) := by
  unfold timeoutEvent
  split
  · exact (Base.of_inv h).fail _
  · exact h

/-- `EvReset` (R290). -/
theorem resetEngine_keeps {s : State} (h : Inv s) : Inv (resetEngine s) := by
  refine Base.inv ?_ (PhasePart.idle rfl ?_)
  · constructor <;> simp [Engine.reset, writtenBelow_zero, h.cfgValid]
  · intro hb
    have hb : s.cfg.bus = .fujibus := hb
    simp [idleFr, hb, decReset]

/-- One output that leaves the line released. -/
theorem emit_keeps {s : State} (h : Inv s) (o : Output) (ho : lineAfter o false = false) : Inv (emit o s) :=
  Inv_congr h rfl (by have := h.lineReleased; simp [this, ho]; cases he : s.eng; simp_all)

end Sys2Proof.Laws
end

