-- ==== Sys2Proof/Laws/Ops.lean ====
section
/-! SUPPORT. What each shared operation can do, said once: a lemma per operation, cited in place of its definition. -/

namespace Sys2Proof.Laws

open Sys2Proof.Machine

/-! ### Sequencing -/

@[simp] theorem andThen_next (s : State) (f : State → Res) : andThen (.next s) f = f s := rfl

/-- A continued meaning answers a next state only through one. -/
theorem andThen_eq_next {r : Res} {f : State → Res} {t : State} :
    andThen r f = .next t ↔ ∃ s, r = .next s ∧ f s = .next t := by
  cases r <;> simp [andThen]

theorem rxBytes_nil (s : State) : rxBytes [] s = .next s := rfl

theorem rxBytes_cons (b : Byte) (l : List Byte) (s : State) : rxBytes (b :: l) s = andThen (rxByte b s) (rxBytes l) :=
  rfl

/-- Bytes arrive one by one (R42): a list in two parts is the first part and then the second. -/
theorem rxBytes_append (l r : List Byte) (s : State) : rxBytes (l ++ r) s = andThen (rxBytes l s) (rxBytes r) := by
  induction l generalizing s with
  | nil => rfl
  | cons b l ih =>
    rw [List.cons_append, rxBytes_cons, rxBytes_cons]
    cases rxByte b s <;> simp [andThen]
    rw [ih]
    rfl

/-! ### Ports and the transmit stream -/

theorem atPort_home (u : UnitPort) (s t : State) : atPort u u s t = .next t := by simp [atPort]

theorem atPort_other {u home : UnitPort} (h : u ≠ home) (s t : State) : atPort u home s t = .next s := by
  simp [atPort, h]

/-- A form that comes next on the transmit stream of a bus that has it is read; nothing else moves (R40). -/
theorem takeOff_next {buses : List Bus} {bytes : List Byte} {s : State} (h : s.cfg.bus ∈ buses) (hb : bytes <+: unread s) :
    takeOff buses bytes s = .next { s with taken := s.taken + bytes.length } := by simp [takeOff, h, hb]

/-- A form that does not come next is not read. -/
theorem takeOff_other {buses : List Bus} {bytes : List Byte} {s : State}
    (h : ¬ (s.cfg.bus ∈ buses ∧ bytes <+: unread s)) : takeOff buses bytes s = .next s := by simp [takeOff, h]

/-- Reading a form moves nothing but the place in the transmit stream. -/
theorem takeOff_cases (buses : List Bus) (bytes : List Byte) (s : State) :
    ∃ n, takeOff buses bytes s = .next { s with taken := n } := by
  unfold takeOff
  split
  · exact ⟨_, rfl⟩
  · exact ⟨s.taken, rfl⟩

/-! ### Dispatch and routing (R141, R146) -/

/-- `do_dispatch()` answers a next state exactly where the payload can be read, and then it is this one. -/
theorem doDispatch_eq_next {fields : List Field} {s t : State} :
    doDispatch fields s = .next t ↔
      ∃ payload, readRange (rxMax s.cfg) s.eng.rxBuf 0 s.eng.rxCnt.toNat = .ok payload
        ∧ t = emit (.dispatch s.eng.frame fields payload) (setPhase .dispatch s) := by
  unfold doDispatch
  split
  · rename_i f hf
    simp [hf]
  · rename_i p hp
    simp [hp, eq_comm]

/-- The three ways of `route()`. -/
theorem route_cases (s : State) :
    (s.eng.frame.direction = .write ∧ lenMode s.cfg = .prefixed
        ∧ route s = .next (awaitPrefix (emitAll (cmdAck s.cfg) s)))
      ∨ (s.eng.frame.direction = .write ∧ lenMode s.cfg ≠ .prefixed ∧ 0 < s.eng.frame.expectedLength.toNat
        ∧ route s = .next (awaitPayload s.eng.frame.expectedLength (emitAll (cmdAck s.cfg) s)))
      ∨ ((s.eng.frame.direction ≠ .write ∨ lenMode s.cfg ≠ .prefixed ∧ s.eng.frame.expectedLength.toNat = 0)
        ∧ route s = doDispatch [] (emitAll (cmdAck s.cfg) s)) := by
  unfold route
  by_cases hw : s.eng.frame.direction = .write <;> by_cases hm : lenMode s.cfg = .prefixed <;>
    by_cases h0 : 0 < s.eng.frame.expectedLength.toNat <;> simp [hw, hm, h0] <;> omega

/-! ### Header checks (R140) -/

/-- The first failing check of steps (1) and (2), in either order (R140, R270). -/
theorem firstFailure_eq (bad : Bool) (os : List Output) (s : State) :
    firstFailure bad os s =
      if slotPresent s.cfg s.eng.frame.deviceId = true then (if bad then some (os, .csum) else none)
      else if bad = true ∧ s.cfg.checkOrder = .csumFirst then some (os, .csum)
      else some ([], .nodev) := by
  unfold firstFailure presenceFailure csumFailure
  cases s.cfg.checkOrder <;> cases bad <;> cases slotPresent s.cfg s.eng.frame.deviceId <;> rfl

/-- What `header_complete` does with a header that passes steps (1) to (3). -/
theorem headerComplete_accepted {k : Bool} {s : State} {ent : CmdEntry}
    (hp : slotPresent s.cfg s.eng.frame.deviceId = true) (hm : (k && !s.eng.cs.matched) = false)
    (he : cmdEntry s.cfg s.eng.frame.command = some ent) : headerComplete k s = acceptEntry ent s := by
  unfold headerComplete
  rw [firstFailure_eq, hm]
  simp [hp, he]

/-! ### Stores (R144, R247) -/

/-- A payload byte answers a next state exactly where `RXBUF` has the index, and then it is this one (R144). -/
theorem payloadByte_eq_next {b : Byte} {s t : State} :
    payloadByte b s = .next t ↔
      s.eng.rxCnt.toNat < rxMax s.cfg
        ∧ t = (let u := engAbsorb b (storePayload (s.eng.rxBuf.write s.eng.rxCnt.toNat b) s)
               if u.eng.rxCnt = u.eng.pLen then setPhase .rxPcsum u else u) := by
  unfold payloadByte writeByte
  by_cases h : s.eng.rxCnt.toNat < rxMax s.cfg <;> simp [h, eq_comm]

/-- `env_store(d)` answers a next state exactly where `ENVBUF` is full, or has the index, and then it is this one (R247). -/
theorem envStore_eq_next {d : Byte} {s t : State} :
    envStore d s = .next t ↔
      (s.eng.envCnt.toNat = envMax s.cfg ∧ t = fail .overrun s)
        ∨ (s.eng.envCnt.toNat < envMax s.cfg
          ∧ t = storeEnvelope (s.eng.envBuf.write s.eng.envCnt.toNat d) s) := by
  unfold envStore writeByte
  by_cases h : s.eng.envCnt.toNat = envMax s.cfg
  · simp [h, eq_comm]
  · by_cases h2 : s.eng.envCnt.toNat < envMax s.cfg <;> simp [h, h2, eq_comm]

/-- Below the last value of `ENVCNT` storing a byte counts it (R247). -/
theorem storeEnvelope_room {s : State} (h : s.eng.envCnt.toNat < 65535) (m : Memory) :
    storeEnvelope m s = { s with eng := { s.eng with envBuf := m, envCnt := s.eng.envCnt + 1 } } := by
  have : envCntFull s = false := by
    simp only [envCntFull, beq_eq_false_iff_ne]
    intro hc
    simp [hc] at h
  simp [storeEnvelope, envCntNext, this]

/-! ### The output trace -/

/-- `DRV_EN` is 1 at a position exactly where the output there is a burst (R43). -/
theorem drvEn_iff (outs : List Output) (n : Nat) : drvEn outs n = true ↔ ∃ bytes, outs[n]? = some (.tx bytes) := by
  unfold drvEn
  split <;> simp_all

/-- `DRV_EN` is 0 between events. -/
@[simp] theorem drvEn_end (outs : List Output) : drvEn outs outs.length = false := by simp [drvEn]

/-- The transmit stream of two parts of a trace is the stream of the first and then of the second (R43). -/
@[simp] theorem transmitStream_append (l r : List Output) :
    transmitStream (l ++ r) = transmitStream l ++ transmitStream r := List.flatMap_append

/-! ### One step -/

theorem step_waits {s : State} (h : s.script = []) : step s = .next s := by simp [step, h]

theorem step_takes {s : State} {x : Stimulus} {rest : List Stimulus} (h : s.script = x :: rest) :
    step s = takeInput x { s with script := rest } := by simp [step, h]

/-- An input that decodes is run. -/
theorem takeInput_decoded {x : Stimulus} {s : State} {i : Instr} (h : decode s.cfg x = .ok i) :
    takeInput x s = exec i s := by
  cases x <;> simp only [decode, Except.ok.injEq, reduceCtorEq] at h <;> simp [takeInput, h]

/-- An input of the machine other than a change of the tables that does not decode is refused by name. -/
theorem takeInput_rejected {f : WireForm} {bytes : List Byte} {s : State} {why : Reject}
    (h : decodeWire s.cfg f bytes = .error why) : takeInput (.wire f bytes) s = .refused (.undecodable why) := by
  simp [takeInput, h]

end Sys2Proof.Laws
end

