-- ==== Sys2Proof/Laws/PerInstr.lean ====
section
/-! SUPPORT. Statements about every instruction as syntax, one lemma per constructor of `Instr`. -/

namespace Sys2Proof.Laws

open Sys2Proof.Machine

/-- What carries an instruction: a unit port, the engine port, or the wire in one of its forms (spec/30_encoding.md R60). -/
inductive Carrier where
  | unit (u : UnitPort)
  | engine
  | wire (f : WireForm)
  | environment
  deriving DecidableEq, Repr

/-- What carries an input. -/
def carrierOf (x : Stimulus) : Carrier :=
  match x with
  | .op u _ => .unit u
  | .ev _ _ => .engine
  | .wire f _ => .wire f
  | .tables _ _ => .environment

/-- The carrier of an instruction by its row (R60, R63 to R72, R74, R75). -/
def EncodesOnItsForm.carrier (i : Instr) : Carrier :=
  match i with
  | .nop u _ | .csClr u _ | .csAbs u _ | .csRd u _ | .csChk u _ | .encBegin u _ | .encByte u _ | .encEnd u _
  | .decByte u _ | .decRst u _ | .reservedOp5 u _ | .reservedOp6 u _ | .reservedOp7 u _ | .reservedOpB u _
  | .reservedOpE u _ | .reservedOpF u _ => .unit u
  | .evNone _ | .evReset _ | .evLine _ _ _ | .evRx _ _ | .evTimeout _ | .evDispatchDone _ _ | .evDispatchNodevice _
  | .evPoll _ | .reservedEv7 _ => .engine
  | .sioAck | .sioNak | .sioComplete | .sioError => .wire .sym
  | .sioCmdR | .sioCmdW | .sioCmdS => .wire .cmdByte
  | .mnReset _ | .mnStatus _ | .mnAck _ | .mnClr _ | .mnReceive _ | .mnCancel _ | .mnSend _ | .mnNack _ | .mnReady _
  | .ctlUnassignedE _ | .ctlUnassignedF _ => .wire .ctlHost
  | .nmStatus _ | .nmAck _ | .nmCancel _ | .nmSend _ | .nmNack _ => .wire .ctlDev
  | .fbEnd | .fbEsc | .fbEscEnd | .fbEscEsc => .wire .stuffByte
  | .fHdr5 _ _ _ _ _ => .wire .hdr5
  | .fData (.received _) _ => .wire .dataIn
  | .fData .sent _ => .wire .dataOut
  | .fCtl .toDevice _ _ => .wire .ctlIn
  | .fCtl .toHost _ _ => .wire .ctlOut
  | .fLpkt (.hostSend _) _ _ => .wire .lpktIn
  | .fLpkt .devStatus _ _ | .fLpkt .devSend _ _ => .wire .lpktOut
  | .fIecd _ _ => .wire .iecd
  | .fIecs _ _ => .wire .iecs
  | .fSpr _ _ => .wire .spr
  | .fStuff .toDevice _ => .wire .stuffIn
  | .fStuff .toHost _ => .wire .stuffOut
  | .fEnv _ _ _ _ _ _ => .wire .env
  | .fEnvResp _ _ _ _ _ => .wire .envResp

/-- Whatever the configuration, the encoder puts an instruction on the carrier of its row. -/
def EncodesOnItsForm.Statement (i : Instr) : Prop := ∀ c, carrierOf (encode c i) = EncodesOnItsForm.carrier i

theorem EncodesOnItsForm.nop (u : UnitPort) (x : Byte) : EncodesOnItsForm.Statement (.nop u x) := fun _ => rfl

theorem EncodesOnItsForm.csClr (u : UnitPort) (x : Byte) : EncodesOnItsForm.Statement (.csClr u x) := fun _ => rfl

theorem EncodesOnItsForm.csAbs (u : UnitPort) (b : Byte) : EncodesOnItsForm.Statement (.csAbs u b) := fun _ => rfl

theorem EncodesOnItsForm.csRd (u : UnitPort) (x : Byte) : EncodesOnItsForm.Statement (.csRd u x) := fun _ => rfl

theorem EncodesOnItsForm.csChk (u : UnitPort) (b : Byte) : EncodesOnItsForm.Statement (.csChk u b) := fun _ => rfl

theorem EncodesOnItsForm.encBegin (u : UnitPort) (x : Byte) : EncodesOnItsForm.Statement (.encBegin u x) := fun _ => rfl

theorem EncodesOnItsForm.encByte (u : UnitPort) (b : Byte) : EncodesOnItsForm.Statement (.encByte u b) := fun _ => rfl

theorem EncodesOnItsForm.encEnd (u : UnitPort) (x : Byte) : EncodesOnItsForm.Statement (.encEnd u x) := fun _ => rfl

theorem EncodesOnItsForm.decByte (u : UnitPort) (b : Byte) : EncodesOnItsForm.Statement (.decByte u b) := fun _ => rfl

theorem EncodesOnItsForm.decRst (u : UnitPort) (x : Byte) : EncodesOnItsForm.Statement (.decRst u x) := fun _ => rfl

theorem EncodesOnItsForm.reservedOp5 (u : UnitPort) (x : Byte) : EncodesOnItsForm.Statement (.reservedOp5 u x) :=
  fun _ => rfl

theorem EncodesOnItsForm.reservedOp6 (u : UnitPort) (x : Byte) : EncodesOnItsForm.Statement (.reservedOp6 u x) :=
  fun _ => rfl

theorem EncodesOnItsForm.reservedOp7 (u : UnitPort) (x : Byte) : EncodesOnItsForm.Statement (.reservedOp7 u x) :=
  fun _ => rfl

theorem EncodesOnItsForm.reservedOpB (u : UnitPort) (x : Byte) : EncodesOnItsForm.Statement (.reservedOpB u x) :=
  fun _ => rfl

theorem EncodesOnItsForm.reservedOpE (u : UnitPort) (x : Byte) : EncodesOnItsForm.Statement (.reservedOpE u x) :=
  fun _ => rfl

theorem EncodesOnItsForm.reservedOpF (u : UnitPort) (x : Byte) : EncodesOnItsForm.Statement (.reservedOpF u x) :=
  fun _ => rfl

theorem EncodesOnItsForm.evNone (x : BitVec 9) : EncodesOnItsForm.Statement (.evNone x) := fun _ => rfl

theorem EncodesOnItsForm.evReset (x : BitVec 9) : EncodesOnItsForm.Statement (.evReset x) := fun _ => rfl

theorem EncodesOnItsForm.evLine (v : Bool) (x : Nibble) (l : Nibble) : EncodesOnItsForm.Statement (.evLine v x l) :=
  fun _ => rfl

theorem EncodesOnItsForm.evRx (x : Bool) (b : Byte) : EncodesOnItsForm.Statement (.evRx x b) := fun _ => rfl

theorem EncodesOnItsForm.evTimeout (x : BitVec 9) : EncodesOnItsForm.Statement (.evTimeout x) := fun _ => rfl

theorem EncodesOnItsForm.evDispatchDone (status : Byte) (data : List Byte) :
    EncodesOnItsForm.Statement (.evDispatchDone status data) :=
  fun _ => rfl

theorem EncodesOnItsForm.evDispatchNodevice (x : Byte) : EncodesOnItsForm.Statement (.evDispatchNodevice x) :=
  fun _ => rfl

theorem EncodesOnItsForm.evPoll (x : BitVec 9) : EncodesOnItsForm.Statement (.evPoll x) := fun _ => rfl

theorem EncodesOnItsForm.reservedEv7 (x : BitVec 9) : EncodesOnItsForm.Statement (.reservedEv7 x) := fun _ => rfl

theorem EncodesOnItsForm.sioAck : EncodesOnItsForm.Statement .sioAck := fun _ => rfl

theorem EncodesOnItsForm.sioNak : EncodesOnItsForm.Statement .sioNak := fun _ => rfl

theorem EncodesOnItsForm.sioComplete : EncodesOnItsForm.Statement .sioComplete := fun _ => rfl

theorem EncodesOnItsForm.sioError : EncodesOnItsForm.Statement .sioError := fun _ => rfl

theorem EncodesOnItsForm.sioCmdR : EncodesOnItsForm.Statement .sioCmdR := fun _ => rfl

theorem EncodesOnItsForm.sioCmdW : EncodesOnItsForm.Statement .sioCmdW := fun _ => rfl

theorem EncodesOnItsForm.sioCmdS : EncodesOnItsForm.Statement .sioCmdS := fun _ => rfl

theorem EncodesOnItsForm.mnReset (dev : Nibble) : EncodesOnItsForm.Statement (.mnReset dev) := fun _ => rfl

theorem EncodesOnItsForm.mnStatus (dev : Nibble) : EncodesOnItsForm.Statement (.mnStatus dev) := fun _ => rfl

theorem EncodesOnItsForm.mnAck (dev : Nibble) : EncodesOnItsForm.Statement (.mnAck dev) := fun _ => rfl

theorem EncodesOnItsForm.mnClr (dev : Nibble) : EncodesOnItsForm.Statement (.mnClr dev) := fun _ => rfl

theorem EncodesOnItsForm.mnReceive (dev : Nibble) : EncodesOnItsForm.Statement (.mnReceive dev) := fun _ => rfl

theorem EncodesOnItsForm.mnCancel (dev : Nibble) : EncodesOnItsForm.Statement (.mnCancel dev) := fun _ => rfl

theorem EncodesOnItsForm.mnSend (dev : Nibble) : EncodesOnItsForm.Statement (.mnSend dev) := fun _ => rfl

theorem EncodesOnItsForm.mnNack (dev : Nibble) : EncodesOnItsForm.Statement (.mnNack dev) := fun _ => rfl

theorem EncodesOnItsForm.mnReady (dev : Nibble) : EncodesOnItsForm.Statement (.mnReady dev) := fun _ => rfl

theorem EncodesOnItsForm.nmStatus (dev : Nibble) : EncodesOnItsForm.Statement (.nmStatus dev) := fun _ => rfl

theorem EncodesOnItsForm.nmAck (dev : Nibble) : EncodesOnItsForm.Statement (.nmAck dev) := fun _ => rfl

theorem EncodesOnItsForm.nmCancel (dev : Nibble) : EncodesOnItsForm.Statement (.nmCancel dev) := fun _ => rfl

theorem EncodesOnItsForm.nmSend (dev : Nibble) : EncodesOnItsForm.Statement (.nmSend dev) := fun _ => rfl

theorem EncodesOnItsForm.nmNack (dev : Nibble) : EncodesOnItsForm.Statement (.nmNack dev) := fun _ => rfl

theorem EncodesOnItsForm.ctlUnassignedE (dev : Nibble) : EncodesOnItsForm.Statement (.ctlUnassignedE dev) :=
  fun _ => rfl

theorem EncodesOnItsForm.ctlUnassignedF (dev : Nibble) : EncodesOnItsForm.Statement (.ctlUnassignedF dev) :=
  fun _ => rfl

theorem EncodesOnItsForm.fbEnd : EncodesOnItsForm.Statement .fbEnd := fun _ => rfl

theorem EncodesOnItsForm.fbEsc : EncodesOnItsForm.Statement .fbEsc := fun _ => rfl

theorem EncodesOnItsForm.fbEscEnd : EncodesOnItsForm.Statement .fbEscEnd := fun _ => rfl

theorem EncodesOnItsForm.fbEscEsc : EncodesOnItsForm.Statement .fbEscEsc := fun _ => rfl

theorem EncodesOnItsForm.fHdr5 (deviceId command aux1 aux2 k : Byte) :
    EncodesOnItsForm.Statement (.fHdr5 deviceId command aux1 aux2 k) :=
  fun _ => rfl

theorem EncodesOnItsForm.fData (w : DataWay) (data : List Byte) : EncodesOnItsForm.Statement (.fData w data) :=
  fun _ => by cases w <;> rfl

theorem EncodesOnItsForm.fCtl (w : Way) (op dev : Nibble) : EncodesOnItsForm.Statement (.fCtl w op dev) :=
  fun _ => by cases w <;> rfl

theorem EncodesOnItsForm.fLpkt (h : LpktHead) (dev : Nibble) (data : List Byte) :
    EncodesOnItsForm.Statement (.fLpkt h dev data) :=
  fun _ => by cases h <;> rfl

theorem EncodesOnItsForm.fIecd (dev : Nibble) (data : List Byte) : EncodesOnItsForm.Statement (.fIecd dev data) :=
  fun _ => rfl

theorem EncodesOnItsForm.fIecs (dev : Nibble) (status : Byte) : EncodesOnItsForm.Statement (.fIecs dev status) :=
  fun _ => rfl

theorem EncodesOnItsForm.fSpr (status : Byte) (data : List Byte) : EncodesOnItsForm.Statement (.fSpr status data) :=
  fun _ => rfl

theorem EncodesOnItsForm.fStuff (w : Way) (body : List Byte) : EncodesOnItsForm.Statement (.fStuff w body) :=
  fun _ => by cases w <;> rfl

theorem EncodesOnItsForm.fEnv (seq command deviceId : Byte) (fields : List Field) (payload : List Byte) (k : Byte) :
    EncodesOnItsForm.Statement (.fEnv seq command deviceId fields payload k) :=
  fun _ => rfl

theorem EncodesOnItsForm.fEnvResp (seq command deviceId : Byte) (status : Field) (data : List Byte) :
    EncodesOnItsForm.Statement (.fEnvResp seq command deviceId status data) :=
  fun _ => rfl

end Sys2Proof.Laws
end

