-- ==== Sys2Proof/Laws/Streams.lean ====
section
/-! SUPPORT. What a run of received bytes does: a payload into `RXBUF`, a stuffed body into `ENVBUF`, and the parts of a
format taken apart again. One lemma per stream, cited in place of an induction over `rxBytes`. -/

namespace Sys2Proof.Laws

open Sys2Proof.Machine

/-! ### Outputs and routing -/

/-- The acknowledgements leave the output line released (R192, R211). -/
theorem payloadAck_level (c : Config) : (payloadAck c).foldl (fun v o => lineAfter o v) false = false := by
  unfold payloadAck; split <;> rfl

theorem cmdAck_level (c : Config) : (cmdAck c).foldl (fun v o => lineAfter o v) false = false := by
  unfold cmdAck; split <;> rfl

/-- Outputs that release the line again only lengthen the trace. -/
theorem emitAll_released (os : List Output) (s : State) (h : s.eng.lineOut = false)
   (ho : os.foldl (fun v o => lineAfter o v) false = false) : emitAll os s = { s with trace := s.trace ++ os } := by
  rw [emitAll_eq, h, ho, ← h]

/-- The three ways of `route()` as equations (R141). -/
theorem route_prefix (s : State) (h : s.eng.frame.direction = .write) (hl : lenMode s.cfg = .prefixed) :
  route s = .next (awaitPrefix (emitAll (cmdAck s.cfg) s)) := by simp [route, h, hl]
theorem route_payload (s : State) (h : s.eng.frame.direction = .write ∧ 0 < s.eng.frame.expectedLength.toNat)
    (hl : lenMode s.cfg ≠ .prefixed) :
  route s = .next (awaitPayload s.eng.frame.expectedLength (emitAll (cmdAck s.cfg) s)) := by simp [route, h, hl]
theorem route_disp (s : State) (h : ¬ (s.eng.frame.direction = .write ∧ (lenMode s.cfg = .prefixed ∨ 0 <
    s.eng.frame.expectedLength.toNat))) :
  route s = doDispatch [] (emitAll (cmdAck s.cfg) s) := by
  unfold route; rw [if_neg, if_neg] <;> tauto

/-! ### Buffers -/

/-- The bytes of a list written one after another from an index. -/
def writeAll (m : Memory) (i : Nat) : List Byte → Memory
  | [] => m
  | b :: l => writeAll (m.write i b) (i + 1) l

/-- A run of writes is seen at its own indices and nowhere else. -/
theorem writeAll_read (m : Memory) (i : Nat) (l : List Byte) (j : Nat) :
   (writeAll m i l).read j = if i ≤ j ∧ j < i + l.length then l[j - i]? else m.read j := by
  induction l generalizing m i with
  | nil => simp [writeAll]
  | cons b l ih =>
    rw [writeAll, ih, read_write]
    simp only [List.length_cons]
    by_cases h1 : j = i
    · subst h1; rw [if_neg (by omega), if_pos rfl, if_pos (by omega)]; simp
    · by_cases h2 : i + 1 ≤ j ∧ j < i + 1 + l.length
      · rw [if_pos h2, if_pos (by omega), show j - i = (j - (i+1)) + 1 by omega, List.getElem?_cons_succ]
      · rw [if_neg h2, if_neg h1, if_neg (by omega)]

/-! ### A payload (R144, R145) -/

/-- The bytes of a payload that fills `PLEN`. -/
theorem rxBytes_payload (l : List Byte) (s : State) (hp : s.eng.phase = .rxPayload) (hl : s.eng.rxCnt.toNat + l.length
    = s.eng.pLen.toNat)
   (hm : s.eng.pLen.toNat ≤ s.cfg.maxPayload.toNat) (hne : l ≠ []) :
   rxBytes l s = .next { s with eng := { s.eng with
     rxBuf := writeAll s.eng.rxBuf s.eng.rxCnt.toNat l, rxCnt := s.eng.pLen, phase := .rxPcsum,
     cs := csAbsorbAll s.cfg s.eng.cs l } } := by
  induction l generalizing s with
  | nil => exact absurd rfl hne
  | cons b l ih =>
    have h1 : rxByte b s = payloadByte b s := by simp [rxByte, hp]
    simp only [List.length_cons] at hl
    have hlt := s.eng.pLen.isLt
    have hadd : (s.eng.rxCnt + 1).toNat = s.eng.rxCnt.toNat + 1 := by
      rw [BitVec.toNat_add]; simp; omega
    have h2 : payloadByte b s = .next { s with eng := { s.eng with
          rxBuf := s.eng.rxBuf.write s.eng.rxCnt.toNat b, rxCnt := s.eng.rxCnt + 1,
          cs := csAbsorb s.cfg s.eng.cs b,
          phase := if s.eng.rxCnt + 1 = s.eng.pLen then .rxPcsum else .rxPayload } } := by
      rw [payloadByte_eq_next]
      refine ⟨by simp [rxMax]; omega, ?_⟩
      dsimp only [engAbsorb, storePayload, csAbsorb]
      split <;> simp [setPhase, hp]
    rw [rxBytes_cons, h1, h2, andThen_next]
    cases l with
    | nil =>
      have : s.eng.rxCnt + 1 = s.eng.pLen := by
        apply BitVec.eq_of_toNat_eq; rw [hadd]; simpa using hl
      rw [rxBytes_nil]
      simp [writeAll, csAbsorbAll]
      exact this
    | cons c l =>
      have : ¬ (s.eng.rxCnt + 1 = s.eng.pLen) := by
        intro h; have := congrArg BitVec.toNat h; rw [hadd] at this; simp at hl; omega
      simp only [this, if_false]
      rw [ih _ (by rfl) (by simp only [hadd]; omega) (by exact hm) (by simp)]
      simp only [writeAll, hadd, csAbsorbAll, List.foldl]

/-- The checksum byte of a payload whose bytes stand in `RXBUF`. -/
theorem rxByte_pcsum (s : State) (k : Byte) (data : List Byte) (hp : s.eng.phase = .rxPcsum) (hlo : s.eng.lineOut =
    false)
   (hn : s.eng.rxCnt.toNat = data.length) (hd : data.length ≤ s.cfg.maxPayload.toNat)
   (hr : ∀ i < data.length, s.eng.rxBuf.read i = data[i]?) :
   rxByte k s = if csResult s.cfg s.eng.cs = k then .next { s with
            trace := s.trace ++ payloadAck s.cfg ++ [.dispatch s.eng.frame [] data],
            eng := { s.eng with phase := .dispatch, cs := { acc := s.eng.cs.acc, matched := true } } }
      else .next (failWith (nak s.cfg s.eng) .csum
          { s with eng := { s.eng with cs := { acc := s.eng.cs.acc, matched := false } } }) := by
  have hx : rxByte k s = payloadChecksum k s := by simp [rxByte, hp]
  rw [hx]
  by_cases h : csResult s.cfg s.eng.cs = k
  · have hw : writtenBelow s.eng.rxBuf s.eng.rxCnt.toNat := by
      intro i hi; rw [hn] at hi; rw [hr i hi]; simp [hi]
    obtain ⟨l, h1, h2, h3⟩ := readRange_below (size := rxMax s.cfg) (by rw [hn]; exact hd) hw
    have : l = data := by
      apply List.ext_getElem? 
      intro i
      by_cases hi : i < data.length
      · rw [h3 i (by omega), hr i hi]
      · rw [List.getElem?_eq_none (by omega), List.getElem?_eq_none (by omega)]
    subst this
    rw [if_pos h]
    simp only [payloadChecksum, engCheck, csCheck, h, beq_self_eq_true, if_true]
    rw [emitAll_released _ _ (by exact hlo) (payloadAck_level _), doDispatch_eq_next]
    exact ⟨l, h1, rfl⟩
  · simp only [payloadChecksum, engCheck, csCheck]
    have : (csResult s.cfg s.eng.cs == k) = false := by simpa using h
    simp [this, h, nak, frameDev]

/-! ### A stuffed body (R246, R247) -/

/-- One encoded byte inside an envelope stores the byte it encodes. -/
theorem rxBytes_encByte (s : State) (b : Byte) (hn : (framingBytes s.cfg).Nodup) (hp : s.eng.phase = .rxEnv)
    (hst : s.eng.fr.st = .data)
   (hc : s.eng.envCnt.toNat < envMax s.cfg) (hr : s.eng.envCnt.toNat < 65535) :
   rxBytes (encByte s.cfg b) s = .next { s with eng := { s.eng with
     envBuf := s.eng.envBuf.write s.eng.envCnt.toNat b, envCnt := s.eng.envCnt + 1,
     fr := { st := .data, err := s.eng.fr.err, ne := true } } } := by
  simp only [framingBytes, List.nodup_cons, List.mem_cons, not_or, List.not_mem_nil, not_false_eq_true, and_true] at hn
  obtain ⟨⟨n1, n2, n3⟩, ⟨n4, n5⟩, n6, _⟩ := hn
  have hesc : rxByte s.cfg.fbEsc s = .next { s with eng := { s.eng with fr := { s.eng.fr with st := .esc } } } := by
    have hdec : decStep s.cfg s.eng.fr s.cfg.fbEsc = ({ s.eng.fr with st := .esc }, .nothing) := by
      rw [decStep_data _ _ hst]; simp [decData, Ne.symm n1]
    simp [rxByte, hp, envelopeByte, engDecode, hdec]
  by_cases h1 : b = s.cfg.fbEnd
  · subst h1
    rw [encByte_end, rxBytes_cons, hesc, andThen_next]
    generalize hu : ({ s with eng := { s.eng with fr := { s.eng.fr with st := .esc } } } : State) = u
    have h2 : decStep u.cfg u.eng.fr u.cfg.fbEscEnd = ({ u.eng.fr with st := .data, ne := true }, .data u.cfg.fbEnd)
        := by
      rw [decStep_esc _ _ (by rw [← hu])]; simp [decEsc]
    have hpu : u.eng.phase = .rxEnv := by rw [← hu]; exact hp
    have hcu : u.cfg = s.cfg := by rw [← hu]
    have : rxByte s.cfg.fbEscEnd u = .next (storeEnvelope (u.eng.envBuf.write u.eng.envCnt.toNat u.cfg.fbEnd) { u with
        eng := { u.eng with fr := { u.eng.fr with st := .data, ne := true } } }) := by
      rw [hcu] at h2
      simp only [rxByte, hpu, envelopeByte, engDecode, hcu, h2]
      rw [envStore_eq_next]; right; exact ⟨by rw [← hu]; exact hc, rfl⟩
    rw [rxBytes_cons, this, andThen_next, rxBytes_nil, storeEnvelope_room (by rw [← hu]; exact hr), ← hu]
  · by_cases h2 : b = s.cfg.fbEsc
    · subst h2
      rw [encByte_esc h1, rxBytes_cons, hesc, andThen_next]
      generalize hu : ({ s with eng := { s.eng with fr := { s.eng.fr with st := .esc } } } : State) = u
      have hcu : u.cfg = s.cfg := by rw [← hu]
      have h2 : decStep u.cfg u.eng.fr u.cfg.fbEscEsc = ({ u.eng.fr with st := .data, ne := true }, .data u.cfg.fbEsc)
          := by
        rw [decStep_esc _ _ (by rw [← hu]), hcu]; simp [decEsc, Ne.symm n6]
      have hpu : u.eng.phase = .rxEnv := by rw [← hu]; exact hp
      have : rxByte s.cfg.fbEscEsc u = .next (storeEnvelope (u.eng.envBuf.write u.eng.envCnt.toNat u.cfg.fbEsc) { u
          with eng := { u.eng with fr := { u.eng.fr with st := .data, ne := true } } }) := by
        rw [hcu] at h2
        simp only [rxByte, hpu, envelopeByte, engDecode, hcu, h2]
        rw [envStore_eq_next]; right; exact ⟨by rw [← hu]; exact hc, rfl⟩
      rw [rxBytes_cons, this, andThen_next, rxBytes_nil, storeEnvelope_room (by rw [← hu]; exact hr), ← hu]
    · rw [encByte_other h1 h2]
      have h3 : decStep s.cfg s.eng.fr b = ({ s.eng.fr with ne := true }, .data b) := by
        rw [decStep_data _ _ hst]; simp [decData, h1, h2]
      have : rxByte b s = .next (storeEnvelope (s.eng.envBuf.write s.eng.envCnt.toNat b) { s with eng := { s.eng with
          fr := { s.eng.fr with ne := true } } }) := by
        simp only [rxByte, hp, envelopeByte, engDecode, h3]
        rw [envStore_eq_next]; right; exact ⟨hc, rfl⟩
      rw [rxBytes_cons, this, andThen_next, rxBytes_nil, storeEnvelope_room (by exact hr)]; simp [hst]

/-- A stuffed body inside an envelope is stored whole. -/
theorem rxBytes_encodeEscape (l : List Byte) (s : State) (hn : (framingBytes s.cfg).Nodup) (hp : s.eng.phase = .rxEnv)
    (hst : s.eng.fr.st = .data)
   (hne : s.eng.fr.ne = true) (hc : s.eng.envCnt.toNat + l.length ≤ envMax s.cfg) (hm : s.eng.envCnt.toNat + l.length < 65536) :
   rxBytes (encodeEscape s.cfg l) s = .next { s with eng := { s.eng with
     envBuf := writeAll s.eng.envBuf s.eng.envCnt.toNat l, envCnt := BitVec.ofNat 16 (s.eng.envCnt.toNat + l.length) }
         } := by
  induction l generalizing s with
  | nil => simp [encodeEscape, rxBytes_nil, writeAll]
  | cons b l ih =>
    simp only [List.length_cons] at hc hm
    have hadd : (s.eng.envCnt + 1).toNat = s.eng.envCnt.toNat + 1 := by
      rw [BitVec.toNat_add]; simp; omega
    rw [encodeEscape_cons, rxBytes_append, rxBytes_encByte s b hn hp hst (by omega) (by omega), andThen_next]
    generalize hu : ({ s with eng := { s.eng with
     envBuf := s.eng.envBuf.write s.eng.envCnt.toNat b, envCnt := s.eng.envCnt + 1,
     fr := { st := .data, err := s.eng.fr.err, ne := true } } } : State) = u
    have hcu : u.cfg = s.cfg := by rw [← hu]
    have hcn : u.eng.envCnt.toNat = s.eng.envCnt.toNat + 1 := by rw [← hu]; exact hadd
    have := ih u (by rw [hcu]; exact hn) (by rw [← hu]; exact hp) (by rw [← hu]) (by rw [← hu])
        (by rw [hcn, hcu]; omega) (by rw [hcn]; omega)
    rw [hcu] at this
    rw [this, hcn, ← hu]
    simp only [writeAll, List.length_cons, show s.eng.envCnt.toNat + 1 + l.length = s.eng.envCnt.toNat + (l.length +
        1) by omega]
    rw [← hst, ← hne]

/-- The delimiter and the first encoded byte, in `IDLE`. -/
theorem rxBytes_first (s : State) (b : Byte) (hn : (framingBytes s.cfg).Nodup) (hb : s.cfg.bus = .fujibus)
    (hp : s.eng.phase = .idle) (hst : s.eng.fr.st = .hunt) :
   rxBytes (s.cfg.fbEnd :: encByte s.cfg b) s = .next { s with eng := { s.eng with
     hdrCnt := 0, rxCnt := 0, pLen := 0, lenHi := 0, err := .noError, cs := csClear s.cfg, phase := .rxEnv,
     envBuf := s.eng.envBuf.write 0 b, envCnt := 1, fr := { st := .data, err := false, ne := true } } } := by
  have hd : detect s.cfg = .delimiter := by simp [detect, hb]
  simp only [framingBytes, List.nodup_cons, List.mem_cons, not_or, List.not_mem_nil, not_false_eq_true, and_true] at hn
  obtain ⟨⟨n1, n2, n3⟩, ⟨n4, n5⟩, n6, _⟩ := hn
  have hdec : decStep s.cfg s.eng.fr s.cfg.fbEnd = ({ st := .data, err := false, ne := false }, .frameStart) := by
    rw [decStep_hunt _ _ hst]; simp [decHunt]
  have h0 : rxByte s.cfg.fbEnd s = .next (beginFrame { s with eng := { s.eng with fr := decInside } }) := by
    simp [rxByte, hp, idleByte, hd, fujiIdleByte, engDecode, hdec, decInside]
  rw [rxBytes_cons, h0, andThen_next]
  generalize hv : beginFrame { s with eng := { s.eng with fr := decInside } } = v
  have hvc : v.cfg = s.cfg := by rw [← hv]; rfl
  have hvp : v.eng.phase = .cmdDetect := by rw [← hv]; rfl
  have hvf : v.eng.fr = decInside := by rw [← hv]; rfl
  have hvn : v.eng.envCnt = 0 := by rw [← hv]; rfl
  have hdv : detect v.cfg = .delimiter := by rw [hvc, hd]
  have hx : ∀ c, rxByte c v = fujiDetectByte c v := by intro c; simp [rxByte, hvp, detectByte, hdv]
  -- data case
  have hstore : ∀ d, ∀ w : State, w.cfg = s.cfg → w.eng.envCnt = 0 → envStore d (setPhase .rxEnv w) = .next
      (storeEnvelope (w.eng.envBuf.write 0 d) (setPhase .rxEnv w)) := by
    intro d w hw hwn
    rw [envStore_eq_next]; right
    refine ⟨?_, ?_⟩
    · simp [hwn, hw, envMax]
    · simp [hwn]
  have hesc : rxByte s.cfg.fbEsc v = .next { v with eng := { v.eng with fr := { decInside with st := .esc } } } := by
    rw [hx]
    simp [fujiDetectByte, engDecode, hvf, hvc, decStep, decInside, decData, Ne.symm n1]
  have hesc2 : ∀ c d, decStep s.cfg { decInside with st := .esc } c = ({ decInside with st := .data, ne := true },
      .data d) →
     rxByte c { v with eng := { v.eng with fr := { decInside with st := .esc } } } = .next (storeEnvelope
         (v.eng.envBuf.write 0 d) (setPhase .rxEnv { v with eng := { v.eng with fr := { decInside with ne := true } }
         })) := by
    intro c d hdd
    have : rxByte c { v with eng := { v.eng with fr := { decInside with st := .esc } } } = fujiDetectByte c { v with
        eng := { v.eng with fr := { decInside with st := .esc } } } := by
      simp [rxByte, hvp, detectByte, hdv]
    rw [this]
    simp only [fujiDetectByte, engDecode, hvc, hdd]
    rw [hstore _ _ (by rfl) (by exact hvn)]
    simp [decInside]
  by_cases h1 : b = s.cfg.fbEnd
  · subst h1
    rw [encByte_end, rxBytes_cons, hesc, andThen_next, rxBytes_cons, hesc2 s.cfg.fbEscEnd s.cfg.fbEnd
        (by simp [decStep, decEsc]), andThen_next, rxBytes_nil, ← hv]
    rfl
  · by_cases h2 : b = s.cfg.fbEsc
    · subst h2
      rw [encByte_esc h1, rxBytes_cons, hesc, andThen_next, rxBytes_cons, hesc2 s.cfg.fbEscEsc s.cfg.fbEsc
          (by simp [decStep, decEsc, Ne.symm n6]), andThen_next, rxBytes_nil, ← hv]
      rfl
    · rw [encByte_other h1 h2]
      have : rxByte b v = .next (storeEnvelope (v.eng.envBuf.write 0 b) (setPhase .rxEnv { v with eng := { v.eng with
          fr := { decInside with ne := true } } })) := by
        rw [hx]
        have hdd : decStep s.cfg decInside b = ({ decInside with ne := true }, .data b) := by
          simp [decStep, decInside, decData, h1, h2]
        simp only [fujiDetectByte, engDecode, hvf, hvc, hdd]
        rw [hstore _ _ (by rfl) (by exact hvn)]
      rw [rxBytes_cons, this, andThen_next, rxBytes_nil, ← hv]
      rfl

/-- An engine that has received a body whole, just before the envelope is checked (R248). -/
def receivedBody (s : State) (body : List Byte) : State := { s with eng := { s.eng with
     hdrCnt := 0, rxCnt := 0, pLen := 0, lenHi := 0, err := .noError, cs := csClear s.cfg, phase := .rxEnv,
     envBuf := writeAll s.eng.envBuf 0 body, envCnt := BitVec.ofNat 16 body.length,
     fr := { st := .hunt, err := false, ne := true } } }

/-- A stuffed frame that fits `ENVBUF` and whose length fits `ENVCNT`, on an idle FujiBus engine, is parsed as its body. -/
theorem rxBytes_frame (s : State) (body : List Byte) (hv : configValid s.cfg = true) (hb : s.cfg.bus = .fujibus)
    (hp : s.eng.phase = .idle)
    (hst : s.eng.fr.st = .hunt) (hne : body ≠ []) (hl : body.length ≤ envMax s.cfg) (hm : body.length < 65536) :
    rxBytes (frameBytes s.cfg body) s = parseEnvelope body (receivedBody s body) := by
  have hn : (framingBytes s.cfg).Nodup := by simp [configValid] at hv; simp [hv]
  cases body with
  | nil => exact absurd rfl hne
  | cons b l =>
    simp only [List.length_cons] at hl hm
    have : frameBytes s.cfg (b :: l) = (s.cfg.fbEnd :: encByte s.cfg b) ++ (encodeEscape s.cfg l ++ [s.cfg.fbEnd]) := by
      simp [frameBytes, encBegin, encEnd]
    rw [this, rxBytes_append, rxBytes_first s b hn hb hp hst, andThen_next]
    rw [rxBytes_append]
    generalize hu : ({ s with eng := { s.eng with
     hdrCnt := 0, rxCnt := 0, pLen := 0, lenHi := 0, err := .noError, cs := csClear s.cfg, phase := .rxEnv,
     envBuf := s.eng.envBuf.write 0 b, envCnt := 1, fr := { st := .data, err := false, ne := true } } } : State) = u
    have hcu : u.cfg = s.cfg := by rw [← hu]
    have hcn : u.eng.envCnt.toNat = 1 := by rw [← hu]; rfl
    have h2 := rxBytes_encodeEscape l u (by rw [hcu]; exact hn) (by rw [← hu]) (by rw [← hu]) (by rw [← hu])
        (by rw [hcn, hcu]; omega) (by rw [hcn]; omega)
    rw [hcu] at h2
    rw [h2, andThen_next, hcn]
    generalize hw : ({ u with cfg := s.cfg, eng := { u.eng with
      envBuf := writeAll u.eng.envBuf 1 l, envCnt := BitVec.ofNat 16 (1 + l.length) } } : State) = w
    have hfr : w.eng.fr = { st := .data, err := false, ne := true } := by rw [← hw, ← hu]
    have hcw : w.cfg = s.cfg := by rw [← hw]
    have hpw : w.eng.phase = .rxEnv := by rw [← hw, ← hu]
    have hdec : decStep w.cfg w.eng.fr s.cfg.fbEnd = ({ st := .hunt, err := false, ne := true }, .frameEnd true) := by
      rw [hfr, hcw]; simp [decStep, decData]
    have hx : rxByte s.cfg.fbEnd w = envelopeComplete { w with eng := { w.eng with
      fr := { st := .hunt, err := false, ne := true } } } := by
      simp only [rxByte, hpw, envelopeByte, engDecode, hdec]
      rfl
    have he : ({ w with eng := { w.eng with fr := { st := .hunt, err := false, ne := true } } } : State) =
        receivedBody s (b :: l) := by
      rw [← hw, ← hu]; simp [receivedBody, writeAll, Nat.add_comm]
    rw [rxBytes_cons, hx, he]
    have hcomp : envelopeComplete (receivedBody s (b :: l)) = parseEnvelope (b :: l) (receivedBody s (b :: l)) := by
      unfold envelopeComplete
      have hlen : (receivedBody s (b :: l)).eng.envCnt.toNat = (b :: l).length := by
        simp [receivedBody]; omega
      have hrd : ∀ i < (b :: l).length, (receivedBody s (b::l)).eng.envBuf.read i = (b :: l)[i]? := by
        intro i hi; simp only [receivedBody]; rw [writeAll_read]; rw [if_pos (by omega)]; simp
      obtain ⟨r, h1, h2, h3⟩ := readRange_below (size := envMax (receivedBody s (b :: l)).cfg) (m := (receivedBody s
          (b :: l)).eng.envBuf) (n := (b :: l).length) (by exact hl)
        (by intro i hi; rw [hrd i hi]; simp [List.length_cons] at hi ⊢; exact hi)
      have : r = b :: l := by
        apply List.ext_getElem?
        intro i
        by_cases hi : i < (b :: l).length
        · rw [h3 i (by omega), hrd i hi]
        · rw [List.getElem?_eq_none (by omega), List.getElem?_eq_none (by omega)]
      rw [hlen, h1, this]
    rw [hcomp]
    cases parseEnvelope (b :: l) (receivedBody s (b :: l)) <;> rfl

/-! ### Parts of a format -/

theorem parseEnvelope_eq (seq cmd pc dev k : Byte) (rest : List Byte) (u : State) :
   parseEnvelope ([seq, cmd, pc, dev] ++ rest ++ [k]) u = envelopeChecks pc.toNat rest (loadEnvelope seq cmd pc dev
       ([seq, cmd, pc, dev] ++ rest) k u) := by
  cases h : rest ++ [k] with
  | nil => simp at h
  | cons b4 more =>
    simp only [List.cons_append, List.nil_append, h, parseEnvelope]
    have h1 : (b4 :: more).dropLast = rest := by rw [← h]; simp
    have h2 : (b4 :: more).getLast (List.cons_ne_nil b4 more) = k := by
      have : (rest ++ [k]).getLast (by simp) = k := by simp
      simp only [h] at this; exact this
    rw [h1, h2]

theorem parseEnvelope_short (l : List Byte) (u : State) (h : l.length < 5) : parseEnvelope l u = .next (fail .trunc u)
    := by
  rcases l with _ | ⟨a, _ | ⟨b, _ | ⟨c, _ | ⟨d, _ | ⟨e, l⟩⟩⟩⟩⟩ <;> first | rfl | (simp at h; omega)

theorem takeFields_flatMap (o : ByteOrder) (fl : List Field) (r : List Byte) : takeFields o fl.length (fl.flatMap
    (split32 o) ++ r) = fl := by
  induction fl with
  | nil => cases r <;> rfl
  | cons f fl ih =>
    obtain ⟨a, b, c, d, h, hj⟩ := join32_split32 o f
    simp [h, takeFields, hj, ih]

theorem length_flatMap_split32 (o : ByteOrder) (fl : List Field) : (fl.flatMap (split32 o)).length = 4 * fl.length := by
  induction fl with
  | nil => rfl
  | cons f fl ih => 
    have : (split32 o f).length = 4 := by cases o <;> rfl
    simp [this, ih]; omega

theorem drop_flatMap_split32 (o : ByteOrder) (fl : List Field) (pl : List Byte) : (fl.flatMap (split32 o) ++ pl).drop
    (4 * fl.length) = pl := by
  rw [← length_flatMap_split32 o fl]; simp

theorem splitLast_snoc (l : List Byte) (k : Byte) : splitLast (l ++ [k]) = some (l, k) := by
  induction l with
  | nil => rfl
  | cons b l ih =>
    cases h : l ++ [k] with
    | nil => simp at h
    | cons c m => 
      rw [List.cons_append, h, splitLast]
      · rw [← h, ih]
      · simp

theorem checked_snoc (c : Config) (l : List Byte) (cov : List Byte → List Byte) (f : List Byte → Instr) :
   checked c (l ++ [checksum c (cov l)]) cov f = .ok (f l) := by
  simp [checked, splitLast_snoc]

theorem lookup_of_nodup {α : Type} [DecidableEq α] (l : List (α × Instr)) (h : (l.map Prod.fst).Nodup) (k : α)
    (v : Instr) (hm : (k, v) ∈ l) (r : List (α × Instr)) :
   (l ++ r).lookup k = some v := by
  induction l with
  | nil => simp at hm
  | cons p l ih =>
    simp only [List.map_cons, List.nodup_cons] at h
    rcases List.mem_cons.1 hm with rfl | hm
    · simp
    · have : k ≠ p.1 := by
        rintro rfl; exact h.1 (List.mem_map.2 ⟨_, hm, rfl⟩)
      rw [List.cons_append, List.lookup_cons, beq_eq_false_iff_ne.2 this]
      simp only
      exact ih h.2 hm

theorem lookup_skip {α : Type} [DecidableEq α] (l : List (α × Instr)) (k : α) (h : k ∉ l.map Prod.fst) (r : List (α ×
    Instr)) :
   (l ++ r).lookup k = r.lookup k := by
  induction l with
  | nil => rfl
  | cons p l ih =>
    simp only [List.map_cons, List.mem_cons, not_or] at h
    rw [List.cons_append, List.lookup_cons, beq_eq_false_iff_ne.2 h.1]
    exact ih h.2

end Sys2Proof.Laws
end

