-- ==== Sys2Proof/Tests/Slice0.lean ====
section
/-! SUPPORT. Checks of the model against words written out from spec/30_encoding.md and vectors of
spec/95_test_vectors.md (their names in brackets), and a state that meets the hypotheses of each statement that has
any. -/

namespace Sys2Proof.Tests

open Sys2Proof.Machine

/-! ### Small states -/

/-- The SIO configuration of the E and Q vectors. -/
def sioCfg : Config := { Config.ofBus .sio with
  slots := [0x31]
  cmdTable := some [(0x52, ⟨.read, 128, 0⟩), (0x57, ⟨.write, 4, 0⟩), (0x53, ⟨.read, 4, 0⟩), (0x21, ⟨.noData, 0, 0⟩),
    (0x50, ⟨.write, 257, 0⟩)] }

/-- The IEC configuration of the I vectors. -/
def iecCfg : Config := { Config.ofBus .iec with slots := [0x08] }

/-- The SmartPort configuration of the P vectors. -/
def spCfg : Config := { Config.ofBus .smartport with
  slots := [0x01], cmdTable := some [(0x00, ⟨.read, 4, 0⟩), (0x01, ⟨.read, 8, 0⟩), (0x02, ⟨.write, 4, 0⟩)] }

/-- The AdamNet configuration of the A vectors. -/
def adamCfg : Config := { Config.ofBus .adamnet with slots := [0x04] }

/-- The FujiBus configuration of the F vectors. -/
def fujiCfg : Config := { Config.ofBus .fujibus with
  slots := [0x70], cmdTable := some [(0x10, ⟨.write, 16, 0⟩), (0x11, ⟨.read, 16, 0⟩), (0x12, ⟨.noData, 0, 0⟩)] }

/-- An engine in a phase, everything else as after reset, with an empty trace. -/
def st (c : Config) (p : Phase) : State :=
  { State.resetOf c with trace := [], eng := { Engine.reset with phase := p } }

/-- The stand-alone checksum unit at an accumulator value. -/
def csAt (c : Config) (acc : Byte) (m : Bool) : State := { st c .idle with cs := ⟨acc, m⟩ }

/-- The stand-alone framer unit at decoder registers. -/
def frAt (d : DecSt) (err ne : Bool) : State := { st (Config.ofBus .sio) .idle with fr := ⟨d, err, ne⟩ }

/-- An engine in `IDLE` that has sent the given bursts, none of them read yet. -/
def sentAt (c : Config) (os : List Output) : State := { st c .idle with trace := os }

/-- An engine with a changed frame register. -/
def withFrame (f : Frame) (s : State) : State := { s with eng := { s.eng with frame := f } }

/-- What is looked at after one step: phase, error, output trace, accumulator of the engine. -/
structure View where
  phase : Phase
  err : Err
  trace : List Output
  acc : Byte
  deriving DecidableEq, Repr

/-- The view of a next state. -/
def view (r : Res) : Option View :=
  match r with
  | .next s => some ⟨s.eng.phase, s.eng.err, s.trace, s.eng.cs.acc⟩
  | .fault _ => none
  | .refused _ => none

/-- What a step adds to the trace, and how far the transport has read. -/
def reading (r : Res) : Option (List Output × Nat) :=
  match r with
  | .next s => some (s.trace, s.taken)
  | .fault _ => none
  | .refused _ => none

/-- The stand-alone units after one step. -/
def units (r : Res) : Option (CsUnit × FrUnit × List Returned) :=
  match r with
  | .next s => some (s.cs, s.fr, s.returned)
  | .fault _ => none
  | .refused _ => none

/-- `FRAME` of a command without data. -/
def frameOf (dev cmd aux1 aux2 : Byte) (d : Direction) (n : Half) : Frame := ⟨dev, cmd, aux1, aux2, d, n, 0⟩

/-! ### Ill-formed terms are refused -/

theorem test_wf_empty_data : wellFormed sioCfg (.fData .sent []) = false
    ∧ wellFormed sioCfg (.fData (.received 0x00) []) = false ∧ wellFormed sioCfg (.fData .sent [0x00]) = true := by decide

theorem test_wf_long_prefix (h : LpktHead) (dev : Nibble) (data : List Byte) (hd : data.length = 65536) :
    wellFormed adamCfg (.fLpkt h dev data) = false := by
  simp [wellFormed, hd]

theorem test_wf_many_fields (fields : List Field) (hf : fields.length = 256) (k : Byte) :
    wellFormed fujiCfg (.fEnv 0 0 0 fields [] k) = false := by
  simp [wellFormed, hf]

theorem test_wf_unassigned : wellFormed { adamCfg with mnReady := 0xE } (.ctlUnassignedE 4) = false
    ∧ wellFormed { adamCfg with mnReset := 0xF } (.ctlUnassignedF 4) = false
    ∧ wellFormed adamCfg (.ctlUnassignedE 4) = true ∧ wellFormed adamCfg (.ctlUnassignedF 4) = true := by decide

/-- R66: the engine never sends CANCEL, nor a code of the host. -/
theorem test_wf_never_sent : wellFormed adamCfg (.fCtl .toHost 0xA 4) = false
    ∧ wellFormed adamCfg (.fCtl .toHost 0x6 4) = false ∧ wellFormed adamCfg (.fCtl .toHost 0x9 4) = true
    ∧ decode adamCfg (.wire .ctlOut [0xA4]) = .error .badHead := by decide

theorem test_config_refused : configValid { sioCfg with sioNak := 0x41 } = false
    ∧ configValid { fujiCfg with fbEscEnd := 0xC0 } = false ∧ configValid { iecCfg with slots := [0x31] } = false
    ∧ configValid { sioCfg with maxPayload := 0 } = false ∧ configValid { adamCfg with mnReady := 0x6 } = false := by
  decide

theorem test_configs_valid : configValid sioCfg = true ∧ configValid iecCfg = true ∧ configValid spCfg = true
    ∧ configValid adamCfg = true ∧ configValid fujiCfg = true ∧ configValid State.reset.cfg = true
    ∧ configValid { fujiCfg with maxPayload := 0xFFFF } = true
    ∧ configValid { sioCfg with slots := List.replicate 9 0x31 } = true := by decide

/-! ### Words written out from the encoding (R61 to R75) -/

theorem test_decode_cs_words :
    decode sioCfg (.op .cs 0b000010100101) = .ok (.nop .cs 0xA5) ∧ decode sioCfg (.op .cs 0b000100000000) = .ok (.csClr .cs 0)
    ∧ decode sioCfg (.op .cs 0b001001010100) = .ok (.csAbs .cs 0x54)
    ∧ decode sioCfg (.op .cs 0b001100000000) = .ok (.csRd .cs 0)
    ∧ decode sioCfg (.op .cs 0b010010000100) = .ok (.csChk .cs 0x84) := by decide

theorem test_decode_fr_words :
    decode sioCfg (.op .fr 0b100000000000) = .ok (.encBegin .fr 0)
    ∧ decode sioCfg (.op .fr 0b100111000000) = .ok (.encByte .fr 0xC0)
    ∧ decode sioCfg (.op .fr 0b101000000000) = .ok (.encEnd .fr 0)
    ∧ decode sioCfg (.op .fr 0b110011011011) = .ok (.decByte .fr 0xDB)
    ∧ decode sioCfg (.op .fr 0b110100000000) = .ok (.decRst .fr 0) := by decide

theorem test_decode_reserved_ops :
    decode sioCfg (.op .cs 0b010100000001) = .ok (.reservedOp5 .cs 1)
    ∧ decode sioCfg (.op .cs 0b011000000010) = .ok (.reservedOp6 .cs 2)
    ∧ decode sioCfg (.op .fr 0b011100000100) = .ok (.reservedOp7 .fr 4)
    ∧ decode sioCfg (.op .fr 0b101100001000) = .ok (.reservedOpB .fr 8)
    ∧ decode sioCfg (.op .fr 0b111000010000) = .ok (.reservedOpE .fr 16)
    ∧ decode sioCfg (.op .fr 0b111110000000) = .ok (.reservedOpF .fr 128) := by decide

theorem test_decode_events :
    decode sioCfg (.ev 0b000100000001 []) = .ok (.evNone 257) ∧ decode sioCfg (.ev 0b001000000000 []) = .ok (.evReset 0)
    ∧ decode sioCfg (.ev 0b010100100011 []) = .ok (.evLine true 2 3)
    ∧ decode sioCfg (.ev 0b011001010011 []) = .ok (.evRx false 0x53)
    ∧ decode sioCfg (.ev 0b100000000000 []) = .ok (.evTimeout 0)
    ∧ decode sioCfg (.ev 0b101010010000 [0x01, 0x02]) = .ok (.evDispatchDone 0x90 [0x01, 0x02])
    ∧ decode sioCfg (.ev 0b101100000000 []) = .ok (.evDispatchNodevice 0)
    ∧ decode sioCfg (.ev 0b110000000000 []) = .ok (.evPoll 0)
    ∧ decode sioCfg (.ev 0b111000000001 []) = .ok (.reservedEv7 1) := by decide

theorem test_decode_sio_symbols :
    decode sioCfg (.wire .sym [0x41]) = .ok .sioAck ∧ decode sioCfg (.wire .sym [0x4E]) = .ok .sioNak
    ∧ decode sioCfg (.wire .sym [0x43]) = .ok .sioComplete ∧ decode sioCfg (.wire .sym [0x45]) = .ok .sioError
    ∧ decode sioCfg (.wire .cmdByte [0x52]) = .ok .sioCmdR ∧ decode sioCfg (.wire .cmdByte [0x57]) = .ok .sioCmdW
    ∧ decode sioCfg (.wire .cmdByte [0x53]) = .ok .sioCmdS := by decide

theorem test_decode_host_codes :
    decode adamCfg (.wire .ctlHost [0x04]) = .ok (.mnReset 4) ∧ decode adamCfg (.wire .ctlHost [0x14]) = .ok (.mnStatus 4)
    ∧ decode adamCfg (.wire .ctlHost [0x24]) = .ok (.mnAck 4) ∧ decode adamCfg (.wire .ctlHost [0x34]) = .ok (.mnClr 4)
    ∧ decode adamCfg (.wire .ctlHost [0x44]) = .ok (.mnReceive 4)
    ∧ decode adamCfg (.wire .ctlHost [0x54]) = .ok (.mnCancel 4) ∧ decode adamCfg (.wire .ctlHost [0x64]) = .ok (.mnSend 4)
    ∧ decode adamCfg (.wire .ctlHost [0x74]) = .ok (.mnNack 4) ∧ decode adamCfg (.wire .ctlHost [0xD5]) = .ok (.mnReady 5)
    ∧ decode adamCfg (.wire .ctlHost [0xE4]) = .ok (.ctlUnassignedE 4)
    ∧ decode adamCfg (.wire .ctlHost [0xF4]) = .ok (.ctlUnassignedF 4) := by decide

theorem test_decode_device_codes :
    decode adamCfg (.wire .ctlDev [0x84]) = .ok (.nmStatus 4) ∧ decode adamCfg (.wire .ctlDev [0x94]) = .ok (.nmAck 4)
    ∧ decode adamCfg (.wire .ctlDev [0xA4]) = .ok (.nmCancel 4) ∧ decode adamCfg (.wire .ctlDev [0xB4]) = .ok (.nmSend 4)
    ∧ decode adamCfg (.wire .ctlDev [0xC4]) = .ok (.nmNack 4)
    ∧ decode adamCfg (.wire .ctlIn [0x68]) = .ok (.fCtl .toDevice 6 8)
    ∧ decode adamCfg (.wire .ctlOut [0x94]) = .ok (.fCtl .toHost 9 4) := by decide

theorem test_decode_framing_bytes :
    decode fujiCfg (.wire .stuffByte [0xC0]) = .ok .fbEnd ∧ decode fujiCfg (.wire .stuffByte [0xDB]) = .ok .fbEsc
    ∧ decode fujiCfg (.wire .stuffByte [0xDC]) = .ok .fbEscEnd
    ∧ decode fujiCfg (.wire .stuffByte [0xDD]) = .ok .fbEscEsc := by decide

theorem test_decode_formats :
    decode sioCfg (.wire .hdr5 [0x31, 0x57, 0x01, 0x00, 0x89]) = .ok (.fHdr5 0x31 0x57 0x01 0x00 0x89)
    ∧ decode sioCfg (.wire .dataIn [0xDE, 0xAD, 0xBE, 0xEF, 0x00]) = .ok (.fData (.received 0x00) [0xDE, 0xAD, 0xBE, 0xEF])
    ∧ decode sioCfg (.wire .dataOut [0xDE, 0xAD, 0xBE, 0xEF, 0x3B]) = .ok (.fData .sent [0xDE, 0xAD, 0xBE, 0xEF]) := by decide

theorem test_decode_more_formats :
    decode adamCfg (.wire .lpktIn [0x64, 0x00, 0x02, 0x4F, 0x4B, 0x04]) = .ok (.fLpkt (.hostSend 0x04) 4 [0x4F, 0x4B])
    ∧ decode adamCfg (.wire .lpktOut [0xB4, 0x00, 0x02, 0x4F, 0x4B, 0x04]) = .ok (.fLpkt .devSend 4 [0x4F, 0x4B]) := by decide

theorem test_decode_iec_formats :
    decode iecCfg (.wire .iecd [0xB8, 0x4C, 0xE3]) = .ok (.fIecd 8 [0x4C])
    ∧ decode iecCfg (.wire .iecs [0x88, 0x3E]) = .ok (.fIecs 8 0x3E)
    ∧ decode spCfg (.wire .spr [0x2B, 0x2B]) = .ok (.fSpr 0x2B []) := by decide

theorem test_decode_fujibus_formats :
    decode fujiCfg (.wire .stuffIn [0xC0, 0x00, 0xDB, 0xDC, 0xDB, 0xDD, 0xFF, 0xC0]) =
      .ok (.fStuff .toDevice [0x00, 0xC0, 0xDB, 0xFF])
    ∧ decode fujiCfg (.wire .env [0x05, 0x10, 0x01, 0x70, 0x78, 0x56, 0x34, 0x12, 0xC0, 0xDB, 0x41, 0x79]) =
      .ok (.fEnv 0x05 0x10 0x70 [0x12345678] [0xC0, 0xDB, 0x41] 0x79)
    ∧ decode fujiCfg (.wire .envResp [0x06, 0x11, 0x01, 0x70, 0x05, 0x00, 0x00, 0x00, 0x8D]) =
      .ok (.fEnvResp 0x06 0x11 0x70 5 []) := by decide

theorem test_decode_rejects :
    decode spCfg (.wire .spr [0x2B, 0x2C]) = .error .badChecksum ∧ decode sioCfg (.wire .sym [0x42]) = .error .unknownSymbol
    ∧ decode fujiCfg (.wire .stuffIn [0xC0, 0xDB, 0x41, 0xC0]) = .error .badStuffing
    ∧ decode sioCfg (.wire .hdr5 [0x31]) = .error .badLength
    ∧ decode adamCfg (.wire .lpktIn [0x34, 0x00, 0x00, 0x00]) = .error .badHead
    ∧ decode sioCfg (.tables [] none) = .error .notAnInstruction := by decide

theorem test_table_words :
    decodeTableWord 16 0x254 = some (.csAbs .cs 0x54) ∧ decodeTableWord 16 0x653 = some (.evRx false 0x53)
    ∧ decodeTableWord 8 0x43 = some .sioComplete ∧ decodeTableWord 8 0x64 = some (.mnSend 4)
    ∧ decodeTableWord 8 0xDB = some .fbEsc ∧ decodeTableWord 40 0x3153000084 = some (.fHdr5 0x31 0x53 0x00 0x00 0x84)
    ∧ decodeTableWord 16 0x883E = some (.fIecs 8 0x3E) :=
  ⟨rfl, rfl, rfl, rfl, rfl, rfl, rfl⟩

/-- The word placed for the fetch is the one the next step runs. -/
theorem test_fetch_word : units (Sys2Proof.Machine.step (State.reset.withFetchWord 16 0x241)) =
    some (⟨0x41, false⟩, ⟨.hunt, false, false⟩, []) := by decide

/-! ### Unit operations (vectors of 2.1 and 2.2) -/

theorem test_csClr : units (exec (.csClr .cs 0) (csAt sioCfg 0x5A true)) = some (⟨0x00, false⟩, decReset, []) := by decide

theorem test_csAbs_add8 : units (exec (.csAbs .cs 0x54) (csAt sioCfg 0xDC true)) = some (⟨0x31, true⟩, decReset, []) := by
  decide

theorem test_csAbs_kinds : units (exec (.csAbs .cs 0x49) (csAt iecCfg 0x00 false)) = some (⟨0xF8, false⟩, decReset, [])
    ∧ units (exec (.csAbs .cs 0x52) (csAt spCfg 0x49 false)) = some (⟨0x1B, false⟩, decReset, []) := by decide

theorem test_csRd : units (exec (.csRd .cs 0) (csAt sioCfg 0x84 false)) = some (⟨0x84, false⟩, decReset, [.byte 0x84])
    ∧ units (exec (.csRd .cs 0) (csAt { iecCfg with crcXorOut := 0xFF } 0x16 false)) =
      some (⟨0x16, false⟩, decReset, [.byte 0xE9]) := by decide

theorem test_csChk : units (exec (.csChk .cs 0x84) (csAt sioCfg 0x84 false)) = some (⟨0x84, true⟩, decReset, [.bit true])
    ∧ units (exec (.csChk .cs 0x85) (csAt sioCfg 0x84 true)) = some (⟨0x84, false⟩, decReset, [.bit false]) := by decide

theorem test_encoder : units (exec (.encBegin .fr 0) (csAt sioCfg 0 false)) = some (csReset, decReset, [.bytes [0xC0]])
    ∧ units (exec (.encByte .fr 0xC0) (csAt sioCfg 0 false)) = some (csReset, decReset, [.bytes [0xDB, 0xDC]])
    ∧ units (exec (.encByte .fr 0xDB) (csAt sioCfg 0 false)) = some (csReset, decReset, [.bytes [0xDB, 0xDD]])
    ∧ units (exec (.encEnd .fr 0) (csAt sioCfg 0 false)) = some (csReset, decReset, [.bytes [0xC0]]) := by decide

theorem test_decByte_hunt_data : units (exec (.decByte .fr 0xC0) (frAt .hunt true true)) =
      some (csReset, ⟨.data, false, false⟩, [.decoder .frameStart])
    ∧ units (exec (.decByte .fr 0xC0) (frAt .data false false)) = some (csReset, ⟨.data, false, false⟩, [.decoder .nothing])
    ∧ units (exec (.decByte .fr 0xC0) (frAt .data true true)) =
      some (csReset, ⟨.hunt, true, true⟩, [.decoder (.frameEnd false)])
    ∧ units (exec (.decByte .fr 0xDC) (frAt .data false false)) =
      some (csReset, ⟨.data, false, true⟩, [.decoder (.data 0xDC)]) := by decide

theorem test_decByte_esc : units (exec (.decByte .fr 0xDC) (frAt .esc false true)) =
      some (csReset, ⟨.data, false, true⟩, [.decoder (.data 0xC0)])
    ∧ units (exec (.decByte .fr 0xDB) (frAt .esc false false)) = some (csReset, ⟨.data, true, false⟩, [.decoder .nothing])
    ∧ units (exec (.decByte .fr 0xC0) (frAt .esc false false)) =
      some (csReset, ⟨.hunt, true, false⟩, [.decoder (.frameEnd false)]) := by decide

theorem test_decRst : units (exec (.decRst .fr 0) (frAt .esc true true)) = some (csReset, decReset, [.decoder .nothing])
    ∧ units (exec (.decRst .cs 0) (frAt .esc true true)) = some (csReset, ⟨.esc, true, true⟩, []) := by decide

/-- S1, and rows of the table of 2.1. -/
theorem test_checksums : checksumOf .add8 sioCfg [0x49, 0x52, 0x41, 0x54, 0x41] = 0x72
    ∧ checksumOf .add8 sioCfg [0x01, 0xFE] = 0xFF ∧ checksumOf .xor8 sioCfg [0xDE, 0xAD, 0xBE, 0xEF] = 0x22
    ∧ checksumOf .crc8 sioCfg [0x49] = 0xF8 := ⟨rfl, rfl, rfl, rfl⟩

/-- S2. -/
theorem test_sio_checksum : sioChecksum sioCfg [0x49, 0x52, 0x41, 0x54, 0x41, 0x2E, 0x4F, 0x4E, 0x4C, 0x49, 0x4E, 0x45,
    0x3A, 0x38, 0x30, 0x30, 0x35] 17 = 0x6F := rfl

/-! ### Engine events and rows (vectors of 2.3 to 2.9) -/

/-- The engine just after `line CMD 1`, or the same on SmartPort. -/
def detected (c : Config) : State := let s := st c .cmdDetect; { s with eng := { s.eng with linePrev := true } }

/-- The table's frame of an SIO status command. -/
def statusFrame : Frame := frameOf 0x31 0x53 0 0 .read 4

theorem test_evLine : view (exec (.evLine true 0 0) (st sioCfg .idle)) = some ⟨.cmdDetect, .noError, [], 0⟩
    ∧ view (exec (.evLine false 0 0) (detected sioCfg)) = some ⟨.idle, .trunc, [], 0⟩ := by decide

/-- E1, E2. -/
theorem test_idle_events : view (exec (.evRx false 0x55) (st sioCfg .idle)) = some ⟨.idle, .noError, [], 0⟩
    ∧ view (exec (.evTimeout 0) (st sioCfg .idle)) = some ⟨.idle, .noError, [], 0⟩
    ∧ view (exec (.evPoll 0) (st sioCfg .idle)) = some ⟨.idle, .noError, [.idleTick], 0⟩ := by decide

/-- E4, E3. -/
theorem test_hdr5_refused : view (exec (.fHdr5 0x31 0x53 0 0 0x85) (detected sioCfg)) =
      some ⟨.idle, .csum, [.tx [0x4E]], 0x84⟩
    ∧ view (exec (.fHdr5 0x32 0x53 0 0 0x85) (detected sioCfg)) = some ⟨.idle, .nodev, [], 0x85⟩ := by decide

/-- Q1 up to the dispatch, Q4 up to the acknowledgement. -/
theorem test_hdr5_accepted : view (exec (.fHdr5 0x31 0x53 0 0 0x84) (detected sioCfg)) =
      some ⟨.dispatch, .noError, [.tx [0x41], .dispatch statusFrame [] []], 0x84⟩
    ∧ view (exec (.fHdr5 0x31 0x57 0x01 0 0x89) (detected sioCfg)) =
      some ⟨.rxPayload, .noError, [.tx [0x41]], 0x00⟩ := by decide

/-- Q1, Q7. -/
theorem test_dispatch_done_sio :
    view (exec (.evDispatchDone 0x00 [0x10, 0xFF, 0xE0, 0x00]) (withFrame statusFrame (st sioCfg .dispatch))) =
      some ⟨.idle, .noError, [.tx [0x43, 0x10, 0xFF, 0xE0, 0x00, 0xF0]], 0⟩
    ∧ view (exec (.evDispatchDone 0x90 [0x01, 0x02, 0x03, 0x04]) (withFrame statusFrame (st sioCfg .dispatch))) =
      some ⟨.idle, .device, [.tx [0x45, 0x01, 0x02, 0x03, 0x04, 0x0A]], 0⟩ := by decide

/-- I5 on IEC, P4 on SmartPort: a broken length contract. -/
theorem test_dispatch_done_short :
    view (exec (.evDispatchDone 0x00 [0x01]) (withFrame (frameOf 8 3 0 0 .read 4) (st iecCfg .dispatch))) =
      some ⟨.idle, .device, [.tx [0x88, 0xFF]], 0⟩
    ∧ view (exec (.evDispatchDone 0x00 [0xA0]) (withFrame (frameOf 1 1 5 0 .read 8) (st spCfg .dispatch))) =
      some ⟨.idle, .device, [.tx [0xFF, 0xFF]], 0⟩ := by decide

/-- I10, A13: RESET, ACK, CANCEL, NACK and the unassigned codes in `IDLE`. -/
theorem test_codes_discarded : view (exec (.mnReset 8) (st iecCfg .idle)) = some ⟨.idle, .noError, [], 0⟩
    ∧ view (exec (.mnCancel 8) (st iecCfg .idle)) = some ⟨.idle, .noError, [], 0⟩
    ∧ view (exec (.ctlUnassignedE 4) (st adamCfg .idle)) = some ⟨.idle, .noError, [], 0⟩
    ∧ view (exec (.ctlUnassignedF 4) (st adamCfg .idle)) = some ⟨.idle, .noError, [], 0⟩ := by decide

/-- I2, I8. -/
theorem test_receive_and_absent : view (exec (.mnReceive 8) (st iecCfg .idle)) = some ⟨.dispatch, .noError,
      [.line .ackl true, .line .ackl false, .dispatch (frameOf 8 4 0 0 .noData 0) [] []], 0⟩
    ∧ view (exec (.mnSend 9) (st iecCfg .idle)) = some ⟨.idle, .nodev, [], 0⟩ := by decide

/-- A6, A11, A10: CLR, STATUS and READY on AdamNet. -/
theorem test_adamnet_requests : view (exec (.mnClr 4) (st adamCfg .idle)) =
      some ⟨.dispatch, .noError, [.dispatch (frameOf 4 3 0 0 .read 512) [] []], 0⟩
    ∧ view (exec (.mnStatus 4) (st adamCfg .idle)) =
      some ⟨.dispatch, .noError, [.dispatch (frameOf 4 1 0 0 .read 4) [] []], 0⟩
    ∧ view (exec (.mnReady 4) (st adamCfg .idle)) =
      some ⟨.dispatch, .noError, [.dispatch (frameOf 4 13 0 0 .noData 0) [] []], 0⟩ := by decide

/-- A6, A7. -/
theorem test_host_ack : view (exec (.mnAck 4) (withFrame (frameOf 4 3 0 0 .read 512) (st adamCfg .waitHostAck))) =
      some ⟨.idle, .noError, [], 0⟩
    ∧ view (exec (.mnNack 4) (withFrame (frameOf 4 3 0 0 .read 512) (st adamCfg .waitHostAck))) =
      some ⟨.idle, .hostnak, [], 0⟩ := by decide

/-- A6, and A11, which ends at once. -/
theorem test_dispatch_done_adamnet :
    view (exec (.evDispatchDone 0x00 [0x4F, 0x4B]) (withFrame (frameOf 4 3 0 0 .read 512) (st adamCfg .dispatch))) =
      some ⟨.waitHostAck, .noError, [.tx [0xB4, 0x00, 0x02, 0x4F, 0x4B, 0x04]], 0⟩
    ∧ view (exec (.evDispatchDone 0x00 [0x00, 0x02, 0x01, 0x00])
        (withFrame (frameOf 4 1 0 0 .read 4) (st adamCfg .dispatch))) =
      some ⟨.idle, .noError, [.tx [0x84, 0x00, 0x04, 0x00, 0x02, 0x01, 0x00, 0x03]], 0⟩ := by decide

/-- A2, and the dispatch of script 2. -/
theorem test_lpkt : view (exec (.fLpkt (.hostSend 0x00) 4 [0x48, 0x49, 0xC0]) (st adamCfg .idle)) =
      some ⟨.idle, .csum, [.tx [0xC4]], 0xC1⟩
    ∧ view (exec (.fLpkt (.hostSend 0x04) 4 [0x4F, 0x4B]) (st adamCfg .idle)) =
      some ⟨.dispatch, .noError, [.dispatch (frameOf 4 6 0 0 .write 512) [] [0x4F, 0x4B]], 0x04⟩ := by decide

/-- A payload awaited by the SIO command 'W'. -/
def awaiting : State :=
  let s := withFrame (frameOf 0x31 0x57 0x01 0 .write 4) (st sioCfg .rxPayload)
  { s with eng := { s.eng with pLen := 4 } }

/-- Q4, Q5. -/
theorem test_data_block : view (exec (.fData (.received 0x3B) [0xDE, 0xAD, 0xBE, 0xEF]) awaiting) = some ⟨.dispatch, .noError,
      [.tx [0x41], .dispatch (frameOf 0x31 0x57 0x01 0 .write 4) [] [0xDE, 0xAD, 0xBE, 0xEF]], 0x3B⟩
    ∧ view (exec (.fData (.received 0x00) [0xDE, 0xAD, 0xBE, 0xEF]) awaiting) =
      some ⟨.idle, .csum, [.tx [0x4E]], 0x3B⟩ := by decide

/-- F2, F4. -/
theorem test_env : view (exec (.fEnv 0x06 0x11 0x70 [] [] 0x87) (st fujiCfg .idle)) =
      some ⟨.dispatch, .noError, [.dispatch (frameOf 0x70 0x11 0 0 .read 16) [] []], 0x87⟩
    ∧ view (exec (.fEnv 0x07 0x11 0x70 [] [] 0x00) (st fujiCfg .idle)) = some ⟨.idle, .csum, [], 0x88⟩ := by decide

/-- F6, F8. -/
theorem test_stuffed : view (exec (.fStuff .toDevice [0x08, 0x12, 0x00, 0x70, 0x99, 0x24]) (st fujiCfg .idle)) =
      some ⟨.idle, .dir, [.tx [0xC0, 0x08, 0x12, 0x01, 0x70, 0x02, 0x00, 0x00, 0x00, 0x8D, 0xC0]], 0x24⟩
    ∧ view (exec (.fStuff .toDevice [0x01, 0x02]) (st fujiCfg .idle)) = some ⟨.idle, .trunc, [], 0⟩ := by decide

/-- F2: the response, with a stuffed data byte, read off the transmit stream. -/
theorem test_env_resp : reading (exec (.fEnvResp 0x06 0x11 0x70 0 [0xC0, 0x01]) (sentAt fujiCfg
      [.tx [0xC0, 0x06, 0x11, 0x01, 0x70, 0x00, 0x00, 0x00, 0x00, 0xDB, 0xDC, 0x01, 0x4A, 0xC0]])) =
    some ([.tx [0xC0, 0x06, 0x11, 0x01, 0x70, 0x00, 0x00, 0x00, 0x00, 0xDB, 0xDC, 0x01, 0x4A, 0xC0]], 14) := by decide

/-- What the device sends: I2, A1 and P3, read where they come next. -/
theorem test_sent :
    reading (exec (.fIecs 8 0x00) (sentAt iecCfg [.line .ackl true, .line .ackl false, .tx [0x88, 0x00]])) =
      some ([.line .ackl true, .line .ackl false, .tx [0x88, 0x00]], 2)
    ∧ reading (exec (.nmAck 4) (sentAt adamCfg [.tx [0x94]])) = some ([.tx [0x94]], 1)
    ∧ reading (exec (.fSpr 0x2B []) (sentAt spCfg [.tx [0x2B, 0x2B]])) = some ([.tx [0x2B, 0x2B]], 2) := by decide

/-- R301, R66: a row of a form that does not come next sends nothing and reads nothing, in `IDLE` or elsewhere; nor does CANCEL. -/
theorem test_nothing_unasked : reading (exec .sioComplete (st sioCfg .idle)) = some ([], 0)
    ∧ reading (exec (.fData .sent [0x01]) (st sioCfg .dispatch)) = some ([], 0)
    ∧ reading (exec .sioComplete (sentAt iecCfg [.tx [0x43]])) = some ([.tx [0x43]], 0)
    ∧ reading (exec (.nmCancel 4) (sentAt adamCfg [.tx [0xA4]])) = some ([.tx [0xA4]], 0) := by decide

/-- R43, on the trace of I2. -/
theorem test_drvEn : (List.range 5).map (drvEn [.line .ackl true, .tx [0x88, 0x00], .idleTick, .tx [0x88]]) =
    [false, true, false, true, false] := by decide

/-- Z1. -/
theorem test_evReset :
    view (exec (.evReset 0) awaiting) = some ⟨.idle, .noError, [], 0⟩
    ∧ view (exec (.evReset 0) (st iecCfg .dispatch)) = some ⟨.idle, .noError, [.line .ackl false], 0⟩ := by decide

/-! ### States that meet the hypotheses of the statements

One theorem per statement with hypotheses, a clause for each of its cases at a boundary of its range. -/

theorem witness_CsAbsAppliesTheGenerator : (csAt sioCfg 0xFF false).cfg.csKind = .add8 ∧ (csAt spCfg 0xFF false).cfg.csKind = .xor8
    ∧ (csAt iecCfg 0xFF false).cfg.csKind = .crc8 := by decide

theorem witness_DecByteAndDecRst : (frAt .hunt false false).fr.st = .hunt ∧ (frAt .data true true).fr.st = .data
    ∧ (frAt .esc true false).fr.st = .esc := by decide

theorem witness_UnitWordsLeaveTheEngine : (UnitPort.cs = .cs) ∧ (UnitPort.fr = .fr) := by decide

theorem witness_Add8ClosedForm : (∀ b ∈ ([0x00, 0x00] : List Byte), b = 0x00) ∧ (∃ b ∈ ([0x00, 0xFF] : List Byte), b ≠ 0x00)
    ∧ ([0xFF, 0x01] : List Byte).Perm [0x01, 0xFF] ∧ checksumOf .add8 sioCfg [0x00] = 0x00
    ∧ (fun t : Nat => t / 256 + t % 256)^[1] (([0xFF, 0x01] : List Byte).map BitVec.toNat).sum < 256 := by decide

theorem witness_Add8ErrorDetection : (0 < 8) ∧ (7 < 8) ∧ (0x00 : Byte) ≠ 0xFF := by decide

theorem witness_Xor8AndCrc8Laws : ([0xFF, 0x01] : List Byte).Perm [0x01, 0xFF]
    ∧ ([0x80, 0x01] : List Byte).length = ([0x01, 0x00] : List Byte).length ∧ 7 < 8
    ∧ (iecCfg.crcPoly = 0x07 ∧ iecCfg.crcInit = 0x00 ∧ iecCfg.crcXorOut = 0x00 ∧ (0x01 : Byte) ≠ 0x81)
    ∧ (iecCfg.crcPoly = 0x07 ∧ iecCfg.crcInit = 0x00 ∧ iecCfg.crcXorOut = 0x00 ∧ (0x80 : Byte) ≠ 0x00 ∧ 8 ≤ 8) := by decide

theorem witness_EncodeEscapeShape : (framingBytes fujiCfg).Nodup ∧ encodeEscape fujiCfg [0xC0, 0x41] = [] ++ fujiCfg.fbEsc :: [0xDC, 0x41]
    ∧ decReset.st = .hunt := by decide

theorem witness_EscapeRoundTrip : (framingBytes fujiCfg).Nodup ∧ ([0xC0] : List Byte) ≠ [] ∧ decReset.st = .hunt := by decide

theorem witness_EscapeBijection : (framingBytes fujiCfg).Nodup
    ∧ encodeEscape fujiCfg [0xDB, 0xC0] = encodeEscape fujiCfg [0xDB, 0xC0]
    ∧ wellStuffed fujiCfg [0xDB, 0xDD, 0xDC] = true ∧ wellStuffed fujiCfg [0x41, 0xDB] = false
    ∧ wellStuffed fujiCfg [0x41, 0xC0] = false := by decide

theorem witness_DecoderResynchronises : (framingBytes fujiCfg).Nodup ∧ fujiCfg.fbEnd ∉ ([0xDB, 0x41, 0x42] : List Byte)
    ∧ ∃ d, .data d ∈ (decRun fujiCfg decInside [0xDB, 0x41, 0x42]).2 :=
  ⟨by decide, by decide, 0x42, by decide⟩

/-- A table supplied; none on a bus without a default; the defaults of IEC and AdamNet. -/
theorem witness_DefaultParametersAndTables : (∃ table, sioCfg.cmdTable = some table)
    ∧ ((Config.ofBus .fujibus).cmdTable = none ∧ (Config.ofBus .fujibus).bus = .fujibus)
    ∧ (iecCfg.cmdTable = none ∧ iecCfg.mnStatus = 0x1 ∧ iecCfg.mnClr = 0x3 ∧ iecCfg.mnReceive = 0x4 ∧ iecCfg.mnSend = 0x6
      ∧ iecCfg.mnReady = 0xD ∧ iecCfg.bus = .iec)
    ∧ (adamCfg.cmdTable = none ∧ adamCfg.mnStatus = 0x1 ∧ adamCfg.mnClr = 0x3 ∧ adamCfg.mnReceive = 0x4
      ∧ adamCfg.mnSend = 0x6 ∧ adamCfg.mnReady = 0xD ∧ adamCfg.bus = .adamnet) := by
  refine ⟨⟨_, rfl⟩, ?_⟩
  decide

theorem witness_FailureReturnsToIdle :
    [Output.tx [0x4E]].foldl (fun v o => lineAfter o v) (st sioCfg .rxHdr).eng.lineOut = (st sioCfg .rxHdr).eng.lineOut
    ∧ (ackPulse ++ [Output.tx [0x01, 0x01]]).foldl (fun v o => lineAfter o v) (st spCfg .rxHdr).eng.lineOut =
      (st spCfg .rxHdr).eng.lineOut := by decide

theorem witness_DispatchWaitsForTheAnswer : (st sioCfg .dispatch).eng.phase = .dispatch
    ∧ (st sioCfg .idle).eng.phase ≠ .dispatch ∧ (st adamCfg .waitHostAck).eng.phase ≠ .dispatch := by decide

theorem witness_DoneSendsTheResponse : (withFrame statusFrame (st sioCfg .dispatch)).eng.phase = .dispatch := by decide

theorem witness_SioProfileFunctions : sioCfg.bus = .sio ∧ sioCfg.csKind = .add8 := by decide

theorem witness_IecProfileFunctions : iecCfg.bus = .iec ∧ iecCfg.csKind = .crc8 := by decide

theorem witness_SmartportProfileFunctions : spCfg.bus = .smartport ∧ spCfg.csKind = .xor8 := by decide

theorem witness_AdamnetProfileFunctions : adamCfg.bus = .adamnet ∧ adamCfg.csKind = .xor8
    ∧ adamCfg.lenPrefixOrder = .bigEndian ∧ adamCfg.nmStatus ≠ adamCfg.nmSend ∧ ([0x4F, 0x4B] : List Byte).length < 65536 := by
  decide

theorem witness_FujibusProfileFunctions : fujiCfg.bus = .fujibus ∧ fujiCfg.csKind = .add8
    ∧ fujiCfg.fbFieldOrder = .littleEndian ∧ fujiCfg.fbStUnsupported = 1 := by decide

theorem witness_IdleDiscardsWhatStartsNoFrame : (st sioCfg .idle).eng.phase = .idle ∧ sioCfg.bus = .sio
    ∧ ((st adamCfg .idle).eng.phase = .idle ∧ adamCfg.bus = .adamnet ∧ hiNibble 0x24 ∉
        [adamCfg.mnStatus, adamCfg.mnClr, adamCfg.mnReceive, adamCfg.mnSend, adamCfg.mnReady]
      ∧ configValid adamCfg = true ∧ wellFormed adamCfg (.ctlUnassignedE 4) = true
      ∧ wellFormed adamCfg (.ctlUnassignedF 4) = true)
    ∧ ((st fujiCfg .idle).eng.phase = .idle ∧ fujiCfg.bus = .fujibus ∧ (st fujiCfg .idle).eng.fr.st = .hunt
      ∧ (0x55 : Byte) ≠ fujiCfg.fbEnd) := by decide

/-- An engine with `HDRCNT` header bytes received. -/
def headerAt (c : Config) (n : BitVec 3) : State := let s := st c .rxHdr; { s with eng := { s.eng with hdrCnt := n } }

theorem witness_HeaderBytesAreStoredAndSummed : sioCfg.bus = .sio
    ∧ ((detected sioCfg).eng.phase = .cmdDetect ∧ (detected sioCfg).eng.hdrCnt = 0)
    ∧ ((headerAt sioCfg 0).eng.phase = .rxHdr ∧ (headerAt sioCfg 0).eng.hdrCnt.toNat < 4)
    ∧ ((headerAt sioCfg 3).eng.phase = .rxHdr ∧ (headerAt sioCfg 3).eng.hdrCnt.toNat < 4) := by decide

/-- A complete header of a device and a command, with the checksum unit's verdict. -/
def headed (c : Config) (dev cmd : Byte) (ok : Bool) : State :=
  let s := withFrame (frameOf dev cmd 0 0 .noData 0) (st c .rxHdr)
  { s with eng := { s.eng with cs := ⟨0, ok⟩ } }

/-- Absent; bad checksum; both, in either order; no entry. -/
theorem witness_HeaderVerdict_refused :
    (slotPresent sioCfg (headed sioCfg 0x32 0x53 true).eng.frame.deviceId = false ∧ (headed sioCfg 0x32 0x53 true).eng.cs.matched = true)
    ∧ (slotPresent sioCfg (headed sioCfg 0x31 0x53 false).eng.frame.deviceId = true
      ∧ (headed sioCfg 0x31 0x53 false).eng.cs.matched = false)
    ∧ (slotPresent sioCfg (headed sioCfg 0x32 0x53 false).eng.frame.deviceId = false
      ∧ (headed sioCfg 0x32 0x53 false).eng.cs.matched = false ∧ sioCfg.checkOrder = .devFirst
      ∧ { sioCfg with checkOrder := .csumFirst }.checkOrder = .csumFirst)
    ∧ (slotPresent sioCfg (headed sioCfg 0x31 0x5A true).eng.frame.deviceId = true
      ∧ cmdEntry sioCfg (headed sioCfg 0x31 0x5A true).eng.frame.command = none) := by decide

/-- A table length of the maximum plus one; a prefix; a table length above 0; no payload. -/
theorem witness_HeaderVerdict_accepted :
    (slotPresent sioCfg 0x31 = true ∧ cmdEntry sioCfg 0x50 = some ⟨.write, 257, 0⟩ ∧ lenMode sioCfg = .table
      ∧ sioCfg.maxPayload.toNat < (257 : Half).toNat)
    ∧ (slotPresent adamCfg 4 = true ∧ cmdEntry adamCfg 6 = some ⟨.write, 512, 0⟩ ∧ lenMode adamCfg = .prefixed)
    ∧ (slotPresent sioCfg 0x31 = true ∧ cmdEntry sioCfg 0x57 = some ⟨.write, 4, 0⟩ ∧ (4 : Half).toNat ≤ sioCfg.maxPayload.toNat
      ∧ lenMode sioCfg ≠ .prefixed ∧ 0 < (4 : Half).toNat)
    ∧ (slotPresent sioCfg 0x31 = true ∧ cmdEntry sioCfg 0x53 = some ⟨.read, 4, 0⟩ ∧ Direction.read ≠ .write) := by decide

/-- The engine after `CMD_DETECT`, with its unit cleared. -/
theorem witness_FiveByteHeaderRefused : sioCfg.bus = .sio ∧ (detected sioCfg).eng.phase = .cmdDetect
    ∧ (detected sioCfg).eng.hdrCnt = 0 ∧ (detected sioCfg).eng.cs = csClear sioCfg
    ∧ (slotPresent sioCfg 0x32 = false ∧ checksum sioCfg [0x32, 0x53, 0, 0] = 0x85)
    ∧ (checksum sioCfg [0x31, 0x53, 0, 0] ≠ 0x85 ∧ slotPresent sioCfg 0x31 = true)
    ∧ (checksum sioCfg [0x31, 0x5A, 0, 0] = 0x8B ∧ cmdEntry sioCfg 0x5A = none)
    ∧ (checksum sioCfg [0x31, 0x50, 0, 0] = 0x81 ∧ cmdEntry sioCfg 0x50 = some ⟨.write, 257, 0⟩
      ∧ sioCfg.maxPayload.toNat < (257 : Half).toNat) := by decide

theorem witness_FiveByteHeaderAccepted : sioCfg.bus = .sio ∧ (detected sioCfg).eng.phase = .cmdDetect
    ∧ (detected sioCfg).eng.hdrCnt = 0 ∧ (detected sioCfg).eng.cs = csClear sioCfg ∧ (detected sioCfg).eng.rxCnt = 0
    ∧ (detected sioCfg).eng.lineOut = false ∧ slotPresent sioCfg 0x31 = true
    ∧ cmdEntry sioCfg 0x53 = some ⟨.read, 4, 0⟩ ∧ cmdEntry sioCfg 0x57 = some ⟨.write, 4, 0⟩
    ∧ (4 : Half).toNat ≤ sioCfg.maxPayload.toNat ∧ 0 < (4 : Half).toNat := by decide

theorem starts_send : startsFrame adamCfg 4 (.mnSend 4) 6 := .inr (.inr (.inr (.inl ⟨rfl, rfl⟩)))

theorem starts_ctl : startsFrame iecCfg 8 (.fCtl .toDevice 4 8) 4 :=
  .inr (.inr (.inr (.inr (.inr ⟨rfl, by decide⟩))))

theorem starts_send_iec : startsFrame iecCfg 8 (.mnSend 8) 6 := .inr (.inr (.inr (.inl ⟨rfl, rfl⟩)))

/-- Absent; no entry; a table length of the maximum plus one. -/
theorem witness_ControlByteRefused : (adamCfg.bus = .adamnet ∧ (st adamCfg .idle).eng.phase = .idle
      ∧ startsFrame { adamCfg with slots := [] } 4 (.mnSend 4) 6 ∧ slotPresent { adamCfg with slots := [] } 4 = false)
    ∧ (startsFrame { adamCfg with cmdTable := some [] } 4 (.mnSend 4) 6
      ∧ slotPresent { adamCfg with cmdTable := some [] } 4 = true ∧ cmdEntry { adamCfg with cmdTable := some [] } 6 = none)
    ∧ (startsFrame { iecCfg with maxPayload := 2 } 8 (.mnSend 8) 6 ∧ slotPresent { iecCfg with maxPayload := 2 } 8 = true
      ∧ cmdEntry { iecCfg with maxPayload := 2 } 6 = some ⟨.write, 3, 0⟩
      ∧ { iecCfg with maxPayload := 2 }.maxPayload.toNat < (3 : Half).toNat) :=
  ⟨⟨rfl, rfl, starts_send, rfl⟩, ⟨starts_send, rfl, rfl⟩, starts_send_iec, by decide, by decide, by decide⟩

theorem witness_ControlByteAccepted : (iecCfg.bus = .iec ∧ (st iecCfg .idle).eng.phase = .idle
      ∧ (st iecCfg .idle).eng.lineOut = false ∧ startsFrame iecCfg 8 (.fCtl .toDevice 4 8) 4 ∧ slotPresent iecCfg 8 = true
      ∧ cmdEntry iecCfg 4 = some ⟨.noData, 0, 0⟩ ∧ (0 : Half).toNat ≤ iecCfg.maxPayload.toNat)
    ∧ (startsFrame iecCfg 8 (.mnSend 8) 6 ∧ cmdEntry iecCfg 6 = some ⟨.write, 3, 0⟩
      ∧ (3 : Half).toNat ≤ iecCfg.maxPayload.toNat ∧ 0 < (3 : Half).toNat)
    ∧ (adamCfg.bus = .adamnet ∧ startsFrame adamCfg 4 (.mnSend 4) 6 ∧ slotPresent adamCfg 4 = true
      ∧ cmdEntry adamCfg 6 = some ⟨.write, 512, 0⟩) :=
  ⟨⟨rfl, rfl, rfl, starts_ctl, by decide, by decide, by decide⟩, ⟨starts_send_iec, by decide, by decide, by decide⟩, rfl,
    starts_send, by decide, by decide⟩

/-- An AdamNet engine that awaits the low byte of a prefix. -/
def prefixAt (hi : Byte) : State :=
  let s := withFrame (frameOf 4 6 0 0 .write 512) (st adamCfg .rxLenLo)
  { s with eng := { s.eng with lenHi := hi } }

/-- The high byte; the ceiling plus one; the ceiling; 0. -/
theorem witness_LengthPrefixIsChecked : adamCfg.lenPrefixOrder = .bigEndian ∧ (st adamCfg .rxLenHi).eng.phase = .rxLenHi
    ∧ (prefixAt 0x02).eng.phase = .rxLenLo
    ∧ min (prefixAt 0x02).eng.frame.expectedLength.toNat adamCfg.maxPayload.toNat
        < (prefixAt 0x02).eng.lenHi.toNat * 256 + (0x01 : Byte).toNat
    ∧ (prefixAt 0x02).eng.lenHi.toNat * 256 + (0x00 : Byte).toNat
        ≤ min (prefixAt 0x02).eng.frame.expectedLength.toNat adamCfg.maxPayload.toNat
    ∧ (prefixAt 0x00).eng.lenHi.toNat * 256 + (0x00 : Byte).toNat
        ≤ min (prefixAt 0x00).eng.frame.expectedLength.toNat adamCfg.maxPayload.toNat := by decide

/-- A payload of the maximum length with its last byte, or its first, to come. -/
def payloadAt (n m : Half) : State :=
  let s := st sioCfg .rxPayload
  { s with eng := { s.eng with rxCnt := n, pLen := m } }

theorem witness_PayloadByteIsStoredAndSummed : (payloadAt 255 256).eng.phase = .rxPayload
    ∧ (payloadAt 255 256).eng.rxCnt.toNat < (payloadAt 255 256).eng.pLen.toNat
    ∧ (payloadAt 255 256).eng.pLen.toNat ≤ sioCfg.maxPayload.toNat
    ∧ (payloadAt 0 1).eng.rxCnt.toNat < (payloadAt 0 1).eng.pLen.toNat := by decide

/-- A payload of one byte `0x3B` with its checksum to come. -/
def pcsumAt : State :=
  let s := withFrame (frameOf 0x31 0x57 0 0 .write 1) (st sioCfg .rxPcsum)
  { s with eng := { s.eng with rxBuf := [(0, 0x3B)], rxCnt := 1, pLen := 1, cs := ⟨0x3B, false⟩ } }

theorem witness_PayloadChecksumDecides : pcsumAt.eng.phase = .rxPcsum ∧ pcsumAt.eng.lineOut = false
    ∧ pcsumAt.eng.rxCnt.toNat ≤ pcsumAt.cfg.maxPayload.toNat ∧ writtenBelow pcsumAt.eng.rxBuf pcsumAt.eng.rxCnt.toNat
    ∧ csResult pcsumAt.cfg pcsumAt.eng.cs = 0x3B ∧ csResult pcsumAt.cfg pcsumAt.eng.cs ≠ 0x00 := by
  refine ⟨by decide, by decide, by decide, fun i hi => ?_, by decide, by decide⟩
  have : i = 0 := Nat.lt_one_iff.mp hi
  subst this
  decide

theorem witness_DataBlockIsReceived : awaiting.eng.phase = .rxPayload ∧ awaiting.eng.rxCnt = 0
    ∧ awaiting.eng.cs = csClear awaiting.cfg ∧ awaiting.eng.pLen.toNat = ([0xDE, 0xAD, 0xBE, 0xEF] : List Byte).length
    ∧ ([0xDE, 0xAD, 0xBE, 0xEF] : List Byte) ≠ []
    ∧ ([0xDE, 0xAD, 0xBE, 0xEF] : List Byte).length ≤ awaiting.cfg.maxPayload.toNat ∧ awaiting.eng.lineOut = false
    ∧ checksum sioCfg [0xDE, 0xAD, 0xBE, 0xEF] = 0x3B ∧ checksum sioCfg [0xDE, 0xAD, 0xBE, 0xEF] ≠ 0x00 := by decide

theorem witness_AdamnetSendPacketIsReceived : adamCfg.bus = .adamnet ∧ (st adamCfg .idle).eng.phase = .idle
    ∧ (st adamCfg .idle).eng.lineOut = false ∧ slotPresent adamCfg 4 = true
    ∧ cmdEntry adamCfg (adamCfg.mnSend.zeroExtend 8) = some ⟨.write, 512, 0⟩
    ∧ ([0x4F, 0x4B] : List Byte).length ≤ min (512 : Half).toNat adamCfg.maxPayload.toNat
    ∧ ([] : List Byte).length ≤ min (512 : Half).toNat adamCfg.maxPayload.toNat
    ∧ checksum adamCfg [0x4F, 0x4B] = 0x04 ∧ checksum adamCfg [0x4F, 0x4B] ≠ 0x05 := by decide

theorem witness_HostAcknowledgementEndsTheWait : adamCfg.bus = .adamnet ∧ adamCfg.mnAck ≠ adamCfg.mnNack
    ∧ (withFrame (frameOf 4 3 0 0 .read 512) (st adamCfg .waitHostAck)).eng.phase = .waitHostAck
    ∧ 4 = loNibble (withFrame (frameOf 4 3 0 0 .read 512) (st adamCfg .waitHostAck)).eng.frame.deviceId
    ∧ (0x99 : Byte) ≠ ctlByte adamCfg.mnAck 4 ∧ (0x99 : Byte) ≠ ctlByte adamCfg.mnNack 4 := by decide

/-- A FujiBus engine in a phase, its decoder at a state. -/
def fujiAt (p : Phase) (u : FrUnit) : State := let s := st fujiCfg p; { s with eng := { s.eng with fr := u } }

theorem witness_OpeningByteFollowsTheDecoder : (fujiAt .idle decReset).cfg.bus = .fujibus
    ∧ (fujiAt .idle decReset).eng.phase = .idle ∧ (fujiAt .idle decReset).eng.fr.st = .hunt
    ∧ (decStep fujiCfg decReset 0xC0).2 = .frameStart ∧ (decStep fujiCfg decReset 0x55).2 = .nothing
    ∧ (fujiAt .cmdDetect decInside).eng.phase = .cmdDetect ∧ (fujiAt .cmdDetect decInside).eng.fr.st ≠ .hunt
    ∧ (fujiAt .cmdDetect decInside).eng.fr.ne = false ∧ (fujiAt .cmdDetect decInside).eng.envCnt = 0
    ∧ (decStep fujiCfg decInside 0xC0).2 = .nothing ∧ (decStep fujiCfg decInside 0x05).2 = .data 0x05
    ∧ (decStep fujiCfg ⟨.esc, false, false⟩ 0xC0).2 = .frameEnd false := by decide

/-- A FujiBus engine inside an envelope, `ENVCNT` at a value. -/
def envAt (n : Half) (u : FrUnit) : State :=
  let s := fujiAt .rxEnv u
  { s with eng := { s.eng with envCnt := n } }

/-- The same under the largest maximum R294 allows: `ENV_MAX` is 66560. -/
def bigEnv (n : Half) (u : FrUnit) : State := { envAt n u with cfg := { fujiCfg with maxPayload := 0xFFFF } }

/-- `ENV_MAX` is 1537 at the default maximum of 512. -/
theorem witness_FramingBytesOpenAndEscape : fujiCfg.bus = .fujibus ∧ (framingBytes fujiCfg).Nodup
    ∧ (fujiAt .idle decReset).eng.phase = .idle ∧ (fujiAt .idle decReset).eng.fr.st = .hunt
    ∧ (envAt 3 ⟨.data, false, true⟩).eng.phase = .rxEnv ∧ (envAt 3 ⟨.data, false, true⟩).eng.fr.st = .data
    ∧ (envAt 1536 ⟨.esc, false, true⟩).eng.phase = .rxEnv ∧ (envAt 1536 ⟨.esc, false, true⟩).eng.fr.st = .esc
    ∧ (envAt 1536 ⟨.esc, false, true⟩).eng.envCnt.toNat < envMax fujiCfg
    ∧ (bigEnv 0xFFFF ⟨.esc, false, true⟩).eng.phase = .rxEnv ∧ (bigEnv 0xFFFF ⟨.esc, false, true⟩).eng.fr.st = .esc
    ∧ (bigEnv 0xFFFF ⟨.esc, false, true⟩).eng.envCnt.toNat < envMax (bigEnv 0xFFFF ⟨.esc, false, true⟩).cfg := by decide

theorem witness_EnvelopeByteFollowsTheDecoder : (envAt 1537 ⟨.data, false, true⟩).eng.phase = .rxEnv
    ∧ (envAt 1537 ⟨.data, false, true⟩).eng.envCnt.toNat = envMax fujiCfg
    ∧ (envAt 1536 ⟨.data, false, true⟩).eng.envCnt.toNat < envMax fujiCfg
    ∧ (decStep fujiCfg ⟨.data, false, true⟩ 0xDB).2 = .nothing ∧ (decStep fujiCfg ⟨.data, true, true⟩ 0xC0).2 = .frameEnd false
    ∧ (decStep fujiCfg ⟨.data, false, true⟩ 0xC0).2 = .frameEnd true
    ∧ (decStep fujiCfg ⟨.data, false, true⟩ 0x41).2 = .data 0x41
    ∧ (bigEnv 0xFFFF ⟨.data, false, true⟩).eng.phase = .rxEnv ∧ (bigEnv 0xFFFF ⟨.data, false, true⟩).eng.envCnt = 0xFFFF
    ∧ (bigEnv 0xFFFF ⟨.data, false, true⟩).eng.envCnt.toNat < envMax (bigEnv 0xFFFF ⟨.data, false, true⟩).cfg := by decide

/-- F8, and F10: two fields declared, room for one. -/
theorem witness_StuffedFrameIsReceivedWhole : configValid fujiCfg = true ∧ fujiCfg.bus = .fujibus
    ∧ (fujiAt .idle decReset).eng.phase = .idle ∧ (fujiAt .idle decReset).eng.fr.st = .hunt
    ∧ (([0x01, 0x02] : List Byte) ≠ [] ∧ ([0x01, 0x02] : List Byte).length ≤ envMax fujiCfg
      ∧ ([0x01, 0x02] : List Byte).length < 65536
      ∧ ([0x01, 0x02] : List Byte).length < 5)
    ∧ (([0x0A, 0x10, 0x02, 0x70, 0x01, 0x00, 0x00, 0x00, 0x8D] : List Byte) =
        [0x0A, 0x10, 0x02, 0x70] ++ [0x01, 0x00, 0x00, 0x00] ++ [0x8D]
      ∧ ([0x01, 0x00, 0x00, 0x00] : List Byte).length < 4 * (0x02 : Byte).toNat ∧ slotPresent fujiCfg 0x70 = true
      ∧ checksum fujiCfg ([0x0A, 0x10, 0x02, 0x70] ++ [0x01, 0x00, 0x00, 0x00]) = 0x8D) := by decide

/-- F5, F4, F7, F6, and a payload of one byte above the ceiling. -/
theorem witness_EnvelopeRefused : configValid fujiCfg = true ∧ fujiCfg.bus = .fujibus
    ∧ (fujiAt .idle decReset).eng.phase = .idle ∧ (fujiAt .idle decReset).eng.fr.st = .hunt
    ∧ ([] : List Field).length < 256 ∧ (envBytes fujiCfg 0x08 0x12 0x70 [] [0x99] 0x24).length ≤ envMax fujiCfg
    ∧ (envBytes fujiCfg 0x08 0x12 0x70 [] [0x99] 0x24).length < 65536
    ∧ (slotPresent fujiCfg 0x71 = false
      ∧ checksum fujiCfg (envBytes fujiCfg 0x07 0x11 0x71 [] [] 0x89).dropLast = 0x89)
    ∧ checksum fujiCfg (envBytes fujiCfg 0x07 0x11 0x70 [] [] 0x00).dropLast ≠ 0x00
    ∧ (checksum fujiCfg (envBytes fujiCfg 0x09 0x44 0x70 [] [] 0xBD).dropLast = 0xBD ∧ cmdEntry fujiCfg 0x44 = none)
    ∧ (checksum fujiCfg (envBytes fujiCfg 0x08 0x12 0x70 [] [0x99] 0x24).dropLast = 0x24
      ∧ cmdEntry fujiCfg 0x12 = some ⟨.noData, 0, 0⟩ ∧ Direction.noData ≠ .write ∧ ([0x99] : List Byte) ≠ [])
    ∧ (cmdEntry fujiCfg 0x10 = some ⟨.write, 16, 0⟩
      ∧ min (16 : Half).toNat fujiCfg.maxPayload.toNat < (List.replicate 17 (0x00 : Byte)).length) := by decide

/-- F1. -/
theorem witness_EnvelopeAccepted : configValid fujiCfg = true ∧ fujiCfg.bus = .fujibus
    ∧ (fujiAt .idle decReset).eng.phase = .idle ∧ (fujiAt .idle decReset).eng.fr.st = .hunt
    ∧ ([0x12345678] : List Field).length < 256 ∧ ([0xC0, 0xDB, 0x41] : List Byte).length ≤ fujiCfg.maxPayload.toNat
    ∧ slotPresent fujiCfg 0x70 = true ∧ cmdEntry fujiCfg 0x10 = some ⟨.write, 16, 0⟩
    ∧ (Direction.write ≠ .write → ([0xC0, 0xDB, 0x41] : List Byte) = [])
    ∧ ([0xC0, 0xDB, 0x41] : List Byte).length ≤ (16 : Half).toNat
    ∧ 5 + 4 * ([0x12345678] : List Field).length + ([0xC0, 0xDB, 0x41] : List Byte).length < 65536 := by decide

/-- A form that comes next on a bus that has it, and one that does not; codes that are sent and not; a data block. -/
theorem witness_SentFormsAreReadOffTheStream :
    (adamCfg.bus ∈ [Bus.iec, .adamnet] ∧ [ctlByte adamCfg.nmNack 4] <+: unread (sentAt adamCfg [.tx [0xC4]])
      ∧ adamCfg.nmNack ∈ sentCodes adamCfg ∧ adamCfg.nmCancel ∉ sentCodes adamCfg)
    ∧ ¬ (sioCfg.bus ∈ [Bus.sio] ∧ [sioCfg.sioAck] <+: unread (sentAt sioCfg [.tx [0x4E]]))
    ∧ ([0x01] : List Byte) ≠ [] := by decide

/-- What the clauses speak of: an answer to the dispatcher, an answer to a byte, the line, a data block of SIO, a control-byte bus. -/
theorem witness_EngineSendsOnlyInAnswer :
    (∃ t, exec (.evDispatchDone 0x00 [0x10, 0xFF, 0xE0, 0x00]) (withFrame statusFrame (st sioCfg .dispatch)) = .next t
      ∧ t.trace = [] ++ [.tx [0x43, 0x10, 0xFF, 0xE0, 0x00, 0xF0]] ∧ sioCfg.bus = .sio)
    ∧ (∃ t, exec (.evRx false 0x00) (st adamCfg .rxPcsum) = .next t)
    ∧ (∃ t, exec (.evReset 0) (st iecCfg .idle) = .next t ∧ .line .ackl false ∈ t.trace ∧ iecCfg.bus = .iec) :=
  ⟨⟨_, rfl, rfl, rfl⟩, ⟨_, rfl⟩, _, rfl, by decide, rfl⟩

theorem witness_ReceivedFormsAreTheirBytes : ([0x01] : List Byte) ≠ [] := by decide

/-- An engine that rests in a phase without a header, a payload or an envelope in progress. -/
theorem inv_st {c : Config} (h : configValid c = true) {p : Phase} (hp : p = .idle ∨ p = .dispatch) : Inv (st c p) := by
  rcases hp with rfl | rfl <;>
  constructor <;> simp_all [st, State.resetOf, Engine.reset, phaseLegal, Laws.writtenBelow_zero, hdrMax, beforePayload,
    afterHeader, lengthKnown, decoderFits, decReset]

/-- An AdamNet engine that awaits a `Write`'s checksum, or its prefix, no byte of payload received. -/
def writing (p : Phase) : State := withFrame (frameOf 4 6 0 0 .write 512) (st adamCfg p)

theorem inv_writing {p : Phase} (hp : p = .rxPcsum ∨ p = .rxLenHi) : Inv (writing p) := by
  rcases hp with rfl | rfl <;>
  constructor <;> first | exact Laws.writtenBelow_zero _ | decide | (intro; contradiction)

theorem witness_EveryStepKeepsTheInvariant : ∃ t, Inv State.reset ∧ Sys2Proof.Machine.step State.reset = .next t :=
  ⟨_, by
    have h : Inv (st (Config.ofBus .sio) .idle) := inv_st (by decide) (.inl rfl)
    exact h, rfl⟩

theorem witness_InvariantHoldsAtReset : configValid adamCfg = true := by decide

theorem witness_EngineNeverBlocksAndNeverFaults : Inv (st sioCfg .dispatch) := inv_st (by decide) (.inr rfl)

/-- A transition in one event, a control byte that begins a frame, and an answer. -/
theorem witness_PhaseTransitions :
    (Inv (st sioCfg .idle) ∧ ∃ t, exec (decodeEv 0x500 []) (st sioCfg .idle) = .next t ∧ t.eng.phase = .cmdDetect)
    ∧ (Inv (st adamCfg .idle) ∧ ∃ t, exec (decodeEv 0x664 []) (st adamCfg .idle) = .next t ∧ t.eng.phase = .rxLenHi)
    ∧ (Inv (st sioCfg .dispatch) ∧ (st sioCfg .dispatch).eng.phase = .dispatch
      ∧ ∃ t, exec (.evDispatchDone 0x00 []) (st sioCfg .dispatch) = .next t ∧ t.eng.phase ≠ .dispatch) :=
  ⟨⟨inv_st (by decide) (.inl rfl), _, rfl, rfl⟩, ⟨inv_st (by decide) (.inl rfl), _, rfl, rfl⟩,
    inv_st (by decide) (.inr rfl), rfl, _, rfl, by decide⟩

/-- A dispatch out of a checked header, out of a checked payload, a byte that enters a payload phase, one inside it, one that
dispatches nothing, and an instruction that is no byte. -/
theorem witness_DispatchOnlyAfterEveryCheck :
    (Inv (st iecCfg .idle) ∧ ∃ t, exec (.evRx false 0x48) (st iecCfg .idle) = .next t ∧ t.eng.phase = .dispatch)
    ∧ (Inv (writing .rxPcsum) ∧ ∃ t, exec (.evRx false 0x00) (writing .rxPcsum) = .next t ∧ t.eng.phase = .dispatch)
    ∧ (Inv (st adamCfg .idle) ∧ ∃ t, exec (.evRx false 0x64) (st adamCfg .idle) = .next t
      ∧ afterHeader t.eng.phase = true)
    ∧ (Inv (writing .rxLenHi) ∧ ∃ t, exec (.evRx false 0x00) (writing .rxLenHi) = .next t
      ∧ afterHeader t.eng.phase = true)
    ∧ (Inv (st sioCfg .idle) ∧ ∃ t, exec (.evRx false 0x48) (st sioCfg .idle) = .next t ∧ t.eng.phase ≠ .dispatch)
    ∧ (Inv (st sioCfg .dispatch) ∧ fromHost (.evTimeout 0) = false
      ∧ ∃ t, exec (.evTimeout 0) (st sioCfg .dispatch) = .next t ∧ t.eng.phase = .dispatch) :=
  ⟨⟨inv_st (by decide) (.inl rfl), _, rfl, rfl⟩, ⟨inv_writing (.inl rfl), _, rfl, rfl⟩,
    ⟨inv_st (by decide) (.inl rfl), _, rfl, rfl⟩, ⟨inv_writing (.inr rfl), _, rfl, rfl⟩,
    ⟨inv_st (by decide) (.inl rfl), _, rfl, by decide⟩, inv_st (by decide) (.inr rfl), rfl, _, rfl, rfl⟩

theorem witness_ExecKeepsConfigurationAndAppendsOutputs :
    (∃ t, exec (.evPoll 0) (st sioCfg .idle) = .next t) ∧ ∀ u w, Instr.evPoll 0 ≠ decodeOp u w :=
  ⟨⟨_, rfl⟩, fun u w h => by
    revert h
    unfold decodeOp
    dsimp only
    split <;> exact Instr.noConfusion⟩

theorem witness_DecodeInvertsEncode : configValid adamCfg = true ∧ wellFormed adamCfg (.fLpkt .devSend 4 [0x4F, 0x4B]) = true
    ∧ wellFormed adamCfg (.ctlUnassignedE 15) = true := by decide

/-- An engine with one input delivered. -/
def given (x : Stimulus) : State := { st sioCfg .idle with script := [x] }

theorem witness_StepRunsTheDecodedInstruction : (given (.ev 0x500 [])).script = [.ev 0x500 []]
    ∧ decode (given (.ev 0x500 [])).cfg (.ev 0x500 []) = .ok (.evLine true 0 0)
    ∧ wellFormed sioCfg (.evLine true 0 0) = true ∧ State.reset.script = [] := by decide

theorem witness_TablesChangeAndBadInputIsRefused : (given (.tables [] none)).script = [.tables [] none]
    ∧ configValid { sioCfg with slots := [], cmdTable := none } = true
    ∧ configValid { iecCfg with slots := [0x10], cmdTable := none } = false
    ∧ (given (.wire .sym [0x42])).script = [.wire .sym [0x42]]
    ∧ decode sioCfg (.wire .sym [0x42]) = .error .unknownSymbol := by decide

end Sys2Proof.Tests
end

section
/-! The parameters at their defaults (R7, R66, R294), the profile constants (R28), and what `CMD_TABLE[BUS]` looks up (R133):
the table supplied, else the default of R191 or R226. -/

namespace Sys2Proof.Laws

open Sys2Proof.Machine

/-! ### Defaults and profile constants -/

/-- The codes and framing bytes of the defaults are distinct, no slot is populated, and every bus takes a payload (R294). -/
theorem configValid_ofBus (b : Bus) : configValid (Config.ofBus b) = true := by
  cases b <;> decide

/-- The table of R28. -/
theorem profile_of_bus (c : Config) : (detect c, hdrShape c, lenMode c, inLine c, outLine c) =
    (match c.bus with
      | .sio => (.line, .fiveByte, .table, some .cmd, none)
      | .iec => (.controlByte, .controlByte, .table, none, some .ackl)
      | .smartport => (.line, .fiveByte, .table, some .req, some .ackl)
      | .adamnet => (.controlByte, .controlByte, .prefixed, none, none)
      | .fujibus => (.delimiter, .envelope, .delimited, none, none)) := by
  unfold detect hdrShape lenMode inLine outLine
  cases c.bus <;> rfl

/-! ### The command table looked up -/

theorem cmdEntry_of_supplied {c : Config} {table : CmdTable} (h : c.cmdTable = some table) (cmd : Byte) :
    cmdEntry c cmd = table.lookup cmd := by
  simp [cmdEntry, h]

theorem cmdEntry_of_unsupplied {c : Config} (h : c.cmdTable = none) (cmd : Byte) :
    cmdEntry c cmd = (defaultCmdTable c).lookup cmd := by
  simp [cmdEntry, h]

/-- SIO, SmartPort and FujiBus have no default table (R191 and R226 print one for IEC and AdamNet alone). -/
theorem defaultCmdTable_eq_nil {c : Config} (h : c.bus = .sio ∨ c.bus = .smartport ∨ c.bus = .fujibus) :
    defaultCmdTable c = [] := by
  obtain h | h | h := h <;> simp [defaultCmdTable, h]

/-- The operation codes that key a default table have the values R191 and R226 print. -/
structure PrintedKeys (c : Config) : Prop where
  status : c.mnStatus = 0x1
  clr : c.mnClr = 0x3
  receive : c.mnReceive = 0x4
  send : c.mnSend = 0x6
  ready : c.mnReady = 0xD

/-- A table keyed as R191 and R226 print theirs, RECEIVE and READY with the same entry. -/
def printedTable (status clr quiet send : CmdEntry) : CmdTable :=
  [(0x01, status), (0x03, clr), (0x04, quiet), (0x06, send), (0x0D, quiet)]

/-- `List.lookup` tries the rows in order. -/
theorem lookup_cons_eq_ite (cmd k : Byte) (e : CmdEntry) (l : CmdTable) :
    List.lookup cmd ((k, e) :: l) = if cmd = k then some e else l.lookup cmd := by
  by_cases h : cmd = k
  · simp [h]
  · simp [List.lookup_cons, beq_false_of_ne h, h]

/-- The keys are distinct, so the rows may be tried in any order: here READY beside RECEIVE, before SEND. -/
theorem lookup_printedTable (status clr quiet send : CmdEntry) (cmd : Byte) :
    (printedTable status clr quiet send).lookup cmd =
      if cmd = 0x01 then some status
      else if cmd = 0x03 then some clr
      else if cmd = 0x04 ∨ cmd = 0x0D then some quiet
      else if cmd = 0x06 then some send
      else none := by
  simp only [printedTable, lookup_cons_eq_ite, List.lookup_nil]
  by_cases hready : cmd = 0x0D
  · simp [hready]
  · simp only [hready, or_false, if_false]

/-- The default table of IEC (R191). -/
theorem defaultCmdTable_iec {c : Config} (hb : c.bus = .iec) (hk : PrintedKeys c) :
    defaultCmdTable c = printedTable ⟨.read, 2, c.defaultTimeoutMs⟩ ⟨.read, 4, c.defaultTimeoutMs⟩
      ⟨.noData, 0, c.defaultTimeoutMs⟩ ⟨.write, 3, c.defaultTimeoutMs⟩ := by
  obtain ⟨hstatus, hclr, hreceive, hsend, hready⟩ := hk
  simp [defaultCmdTable, printedTable, hb, hstatus, hclr, hreceive, hsend, hready]

/-- The default table of AdamNet (R226). -/
theorem defaultCmdTable_adamnet {c : Config} (hb : c.bus = .adamnet) (hk : PrintedKeys c) :
    defaultCmdTable c = printedTable ⟨.read, 4, c.defaultTimeoutMs⟩ ⟨.read, c.maxPayload, c.defaultTimeoutMs⟩
      ⟨.noData, 0, c.defaultTimeoutMs⟩ ⟨.write, c.maxPayload, c.defaultTimeoutMs⟩ := by
  obtain ⟨hstatus, hclr, hreceive, hsend, hready⟩ := hk
  simp [defaultCmdTable, printedTable, hb, hstatus, hclr, hreceive, hsend, hready]

/-- Settles O3: the defaults bus by bus, the profile constants, and the lookup in the table supplied, in none, and in the two
default tables. -/
theorem defaultParametersAndTables : Obligations.DefaultParametersAndTables := by
  unfold Obligations.DefaultParametersAndTables
  refine ⟨fun b => ?defaults, profile_of_bus, fun c cmd =>
    ⟨fun _ h => cmdEntry_of_supplied h cmd, fun h hb => ?noDefault,
      fun h hstatus hclr hreceive hsend hready => ?printed⟩⟩
  case defaults =>
    simp only [configValid_ofBus]
    cases b <;> decide
  case noDefault => rw [cmdEntry_of_unsupplied h, defaultCmdTable_eq_nil hb, List.lookup_nil]
  case printed =>
    have hk : PrintedKeys c := ⟨hstatus, hclr, hreceive, hsend, hready⟩
    rw [cmdEntry_of_unsupplied h]
    constructor <;> intro hb
    · rw [defaultCmdTable_iec hb hk, lookup_printedTable]
    · rw [defaultCmdTable_adamnet hb hk, lookup_printedTable]

end Sys2Proof.Laws
end

section
/-! What runs an instruction (R60): a word of a unit port, a word of the engine port, bytes the engine receives, or a form
the transport reads off the transmit stream. One lemma says which it is for every row; the statements about every
instruction follow from one lemma per kind. -/

namespace Sys2Proof.Laws

open Sys2Proof.Machine

/-! ### The rows by kind -/

@[simp] theorem opWord_op (op : Nibble) (d : Byte) : (opWord op d).extractLsb' 8 4 = op :=
  BitVec.extractLsb'_append_eq_left

@[simp] theorem opWord_data (op : Nibble) (d : Byte) : (opWord op d).extractLsb' 0 8 = d :=
  BitVec.extractLsb'_append_eq_right

/-- A row that the encoder puts on a unit port is the row its word decodes to (R74). -/
theorem decodeOp_of_encode {c : Config} {i : Instr} {u : UnitPort} {w : PortWord} (h : encode c i = .op u w) :
    decodeOp u w = i := by
  cases i
  case fData way _ | fCtl way _ _ | fLpkt way _ _ | fStuff way _ => cases way <;> cases h
  all_goals cases h <;> simp [decodeOp]

/-- The rows of the engine port (R75). -/
inductive EventRow : Instr → Prop
  | none (x : BitVec 9) : EventRow (.evNone x)
  | reset (x : BitVec 9) : EventRow (.evReset x)
  | line (v : Bool) (x l : Nibble) : EventRow (.evLine v x l)
  | rx (x : Bool) (b : Byte) : EventRow (.evRx x b)
  | timeout (x : BitVec 9) : EventRow (.evTimeout x)
  | done (status : Byte) (data : List Byte) : EventRow (.evDispatchDone status data)
  | nodevice (x : Byte) : EventRow (.evDispatchNodevice x)
  | poll (x : BitVec 9) : EventRow (.evPoll x)
  | reserved (x : BitVec 9) : EventRow (.reservedEv7 x)

/-- Every word of the engine port is an event (R75). -/
theorem decodeEv_eventRow (w : PortWord) (beside : List Byte) : EventRow (decodeEv w beside) := by
  unfold decodeEv
  dsimp only
  split
  · exact .none _
  · exact .reset _
  · exact .line _ _ _
  · exact .rx _ _
  · exact .timeout _
  · split
    · exact .nodevice _
    · exact .done _ _
  · exact .poll _
  · exact .reserved _

/-- What runs an instruction in a state. -/
inductive RowKind (i : Instr) (s : State) : Prop
  /-- a word of a unit port (R74) -/
  | unit (u : UnitPort) (w : PortWord) (h : i = decodeOp u w)
  /-- a word of the engine port (R75) -/
  | event (h : EventRow i)
  /-- bytes that arrive one by one (R42) -/
  | received (bytes : List Byte) (h : exec i s = rxBytes bytes s)
  /-- a form read off the transmit stream (R40), or nothing to read -/
  | sent (n : Nat) (h : exec i s = .next { s with taken := n })

theorem rxByte_eq_rxBytes (b : Byte) (s : State) : rxByte b s = rxBytes [b] s := by
  rw [rxBytes_cons]
  cases rxByte b s <;> rfl

theorem RowKind.of_unit {i : Instr} {s : State} {u : UnitPort} {w : PortWord} (h : encode s.cfg i = .op u w) :
    RowKind i s :=
  .unit u w (decodeOp_of_encode h).symm

theorem RowKind.of_byte {i : Instr} {s : State} {b : Byte} (h : exec i s = rxByte b s) : RowKind i s :=
  .received [b] (h.trans (rxByte_eq_rxBytes b s))

theorem RowKind.of_takeOff {i : Instr} {s : State} {buses : List Bus} {bytes : List Byte}
    (h : exec i s = takeOff buses bytes s) : RowKind i s := by
  obtain ⟨n, hn⟩ := takeOff_cases buses bytes s
  exact .sent n (h.trans hn)

/-- Every row is of one of the four kinds (R42, R60, R74, R75; log entries 8, 9). -/
theorem rowKind (i : Instr) (s : State) : RowKind i s := by
  cases i
  case nop | csClr | csAbs | csRd | csChk | encBegin | encByte | encEnd | decByte | decRst | reservedOp5 | reservedOp6
    | reservedOp7 | reservedOpB | reservedOpE | reservedOpF => exact .of_unit rfl
  case evNone | evReset | evLine | evRx | evTimeout | evDispatchDone | evDispatchNodevice | evPoll | reservedEv7 =>
    exact .event (by constructor)
  case sioCmdR | sioCmdW | sioCmdS | mnReset | mnStatus | mnAck | mnClr | mnReceive | mnCancel | mnSend | mnNack
    | mnReady | ctlUnassignedE | ctlUnassignedF | fbEnd | fbEsc | fbEscEnd | fbEscEsc => exact .of_byte rfl
  case sioAck | sioNak | sioComplete | sioError | nmStatus | nmAck | nmSend | nmNack | fIecd | fIecs | fSpr
    | fEnvResp => exact .of_takeOff rfl
  case nmCancel => exact .sent s.taken rfl
  case fHdr5 | fEnv => exact .received _ rfl
  case fData way data =>
    by_cases h : data = []
    · exact .sent s.taken (if_pos h)
    · cases way with
      | received k => exact .received _ (if_neg h)
      | sent => exact .of_takeOff (if_neg h)
  case fCtl way op dev =>
    cases way with
    | toDevice => exact .of_byte rfl
    | toHost =>
      by_cases h : op ∈ sentCodes s.cfg
      · exact .of_takeOff (if_pos h)
      · exact .sent s.taken (if_neg h)
  case fLpkt head dev data =>
    cases head with
    | hostSend k => exact .received _ rfl
    | devStatus => exact .of_takeOff rfl
    | devSend => exact .of_takeOff rfl
  case fStuff way body =>
    cases way with
    | toDevice => exact .received _ rfl
    | toHost => exact .of_takeOff rfl

/-! ### Words of a unit port (R74) -/

/-- What a word of a unit port can change: that port's unit, and the list of returned values, which grows. -/
structure UnitFrame (u : UnitPort) (s t : State) : Prop where
  eng : t.eng = s.eng
  cfg : t.cfg = s.cfg
  trace : t.trace = s.trace
  script : t.script = s.script
  otherFr : u = .cs → t.fr = s.fr
  otherCs : u = .fr → t.cs = s.cs
  returned : s.returned <+: t.returned

theorem UnitFrame.refl (u : UnitPort) (s : State) : UnitFrame u s s :=
  ⟨rfl, rfl, rfl, rfl, fun _ => rfl, fun _ => rfl, List.prefix_rfl⟩

theorem UnitFrame.setCs (x : CsUnit) (s : State) : UnitFrame .cs s (setCs x s) :=
  ⟨rfl, rfl, rfl, rfl, fun _ => rfl, nofun, List.prefix_rfl⟩

theorem UnitFrame.setFr (x : FrUnit) (s : State) : UnitFrame .fr s (setFr x s) :=
  ⟨rfl, rfl, rfl, rfl, nofun, fun _ => rfl, List.prefix_rfl⟩

/-- A unit that returns a value after what it did to its registers. -/
theorem UnitFrame.giveBack {u : UnitPort} {s t : State} (h : UnitFrame u s t) (r : Returned) :
    UnitFrame u s (giveBack r t) :=
  ⟨h.eng, h.cfg, h.trace, h.script, h.otherFr, h.otherCs, h.returned.trans (List.prefix_append _ _)⟩

/-- A port answers with its unit's operation, or with the state as it is (R76). -/
theorem UnitFrame.atPort {u home : UnitPort} {s t : State} (h : UnitFrame home s t) :
    ∃ r, atPort u home s t = .next r ∧ UnitFrame u s r := by
  by_cases hu : u = home
  · subst hu
    exact ⟨t, atPort_home u s t, h⟩
  · exact ⟨s, atPort_other hu s t, .refl u s⟩

/-- Every word of a unit port runs, inside its frame (R74, R76). -/
theorem exec_decodeOp (s : State) (u : UnitPort) (w : PortWord) :
    ∃ t, exec (decodeOp u w) s = .next t ∧ UnitFrame u s t := by
  have noEffect : ∃ t, Host.Outcome.next s = (.next t : Res) ∧ UnitFrame u s t := ⟨s, rfl, .refl u s⟩
  have returns (home : UnitPort) (r : Returned) :
      ∃ t, Machine.atPort u home s (Machine.giveBack r s) = .next t ∧ UnitFrame u s t :=
    (UnitFrame.giveBack (.refl home s) r).atPort
  unfold decodeOp
  dsimp only
  split
  · exact noEffect
  · exact (UnitFrame.setCs _ s).atPort
  · exact (UnitFrame.setCs _ s).atPort
  · exact returns .cs _
  · exact ((UnitFrame.setCs _ s).giveBack _).atPort
  · exact noEffect
  · exact noEffect
  · exact noEffect
  · exact returns .fr _
  · exact returns .fr _
  · exact returns .fr _
  · exact noEffect
  · exact ((UnitFrame.setFr _ s).giveBack _).atPort
  · exact ((UnitFrame.setFr _ s).giveBack _).atPort
  · exact noEffect
  · exact noEffect

/-- Settles O8: each word is a reserved or foreign one, which changes nothing, or an operation of its port's unit. -/
theorem unitWordsLeaveTheEngine : Obligations.UnitWordsLeaveTheEngine := by
  unfold Obligations.UnitWordsLeaveTheEngine
  intro s u w
  obtain ⟨t, ht, hf⟩ := exec_decodeOp s u w
  exact ⟨t, ht, hf.eng, hf.cfg, hf.trace, hf.script, hf.otherFr, hf.otherCs, hf.returned⟩

end Sys2Proof.Laws
end

section
/-! The invariant `Inv`: it holds right after reset (R30, R290) and every step keeps it. -/

namespace Sys2Proof.Laws

open Sys2Proof.Machine

/-- Every event keeps the invariant (R75, R156). -/
theorem exec_event_keeps {i : Instr} (hi : EventRow i) {s : State} (h : Inv s) : ∃ t, exec i s = .next t ∧ Inv t := by
  cases hi with
  | none x => exact ⟨s, rfl, h⟩
  | reset x => exact ⟨_, rfl, resetEngine_keeps h⟩
  | line v x l =>
    refine ⟨_, rfl, ?_⟩
    split
    · exact lineEvent_keeps h v
    · exact h
  | rx x b => exact rxByte_keeps h b
  | timeout x => exact ⟨_, rfl, timeoutEvent_keeps h⟩
  | done status data =>
    refine ⟨_, rfl, ?_⟩
    split
    · exact sendResponse_keeps h status data
    · exact h
  | nodevice x =>
    refine ⟨_, rfl, ?_⟩
    split
    · exact (Base.of_inv h).fail .nodev
    · exact h
  | poll x =>
    refine ⟨_, rfl, ?_⟩
    split
    · exact emit_keeps h .idleTick rfl
    · exact h
  | reserved x => exact ⟨s, rfl, h⟩

/-- From a state with the invariant every instruction runs, and keeps it. -/
theorem exec_keeps (i : Instr) {s : State} (h : Inv s) : ∃ t, exec i s = .next t ∧ Inv t := by
  cases rowKind i s with
  | unit u w hi =>
    subst hi
    obtain ⟨t, ht, hf⟩ := exec_decodeOp s u w
    exact ⟨t, ht, Inv_congr h hf.cfg hf.eng⟩
  | event hi => exact exec_event_keeps hi h
  | received bytes hi =>
    rw [hi]
    exact rxBytes_keeps h bytes
  | sent n hi => exact ⟨_, hi, Inv_congr h rfl rfl⟩

/-- A change of the tables that is not refused leaves a configuration R294 allows, and no clause of the invariant looks at a
table but that one (R52). -/
theorem replaceTables_keeps {s t : State} (h : Inv s) {slots : List Byte} {table : Option CmdTable}
    (ht : replaceTables slots table s = .next t) : Inv t := by
  simp only [replaceTables] at ht
  split at ht
  · rename_i hv
    cases ht
    exact { h with cfgValid := hv }
  · cases ht

/-- An input that is not refused keeps the invariant. -/
theorem takeInput_keeps {x : Stimulus} {s t : State} (h : Inv s) (ht : takeInput x s = .next t) : Inv t := by
  have run {i : Instr} (hi : exec i s = .next t) : Inv t := by
    obtain ⟨r, hr, hk⟩ := exec_keeps i h
    cases hr.symm.trans hi
    exact hk
  cases x with
  | op u w => exact run ht
  | ev w beside => exact run ht
  | tables slots table => exact replaceTables_keeps h ht
  | wire f bytes =>
    simp only [takeInput] at ht
    split at ht
    · exact run ht
    · cases ht

/-- Settles O51: a wait changes nothing, and an input taken is an instruction or a change of the tables. -/
theorem everyStepKeepsTheInvariant : Obligations.EveryStepKeepsTheInvariant := by
  unfold Obligations.EveryStepKeepsTheInvariant
  intro s t h ht
  cases hscript : s.script with
  | nil =>
    rw [step_waits hscript] at ht
    cases ht
    exact h
  | cons x rest =>
    rw [step_takes hscript] at ht
    exact takeInput_keeps (s := { s with script := rest }) (Inv_congr h rfl rfl) ht

/-- The engine after reset is idle, its counters 0 and its decoder outside a frame (R30). -/
theorem inv_resetOf {c : Config} (h : configValid c = true) : Inv (State.resetOf c) := by
  refine Base.inv ?_ (PhasePart.idle rfl fun _ => rfl)
  exact { cfgValid := h, hdrForm := rfl, rxForm := rfl, envForm := rfl, hdrBound := Nat.zero_le _,
          rxBound := Nat.zero_le _, envBound := Nat.zero_le _, hdrWritten := writtenBelow_zero _,
          rxWritten := writtenBelow_zero _, envWritten := writtenBelow_zero _, lineReleased := rfl }

/-- Settles O50: `State.reset` is the reset of the default SIO configuration, which R294 allows. -/
theorem invariantHoldsAtReset : Obligations.InvariantHoldsAtReset := by
  unfold Obligations.InvariantHoldsAtReset
  exact ⟨inv_resetOf (configValid_ofBus .sio), fun _ h => inv_resetOf h⟩

/-- Settles O16: the table of R30 row by row. -/
theorem resetHoldsTheTable : Obligations.ResetHoldsTheTable := by
  unfold Obligations.ResetHoldsTheTable
  intro c
  have buffersEmpty (i : Nat) : (State.resetOf c).eng.hdrBuf.read i = none ∧ (State.resetOf c).eng.rxBuf.read i = none
      ∧ (State.resetOf c).eng.envBuf.read i = none := ⟨rfl, rfl, rfl⟩
  exact ⟨rfl, rfl, rfl, rfl, rfl, rfl, rfl, rfl, rfl, rfl, buffersEmpty, rfl, rfl, rfl, rfl, rfl, rfl, rfl, rfl, rfl, rfl,
    rfl, rfl⟩

end Sys2Proof.Laws
end

section
/-! What an instruction leaves alone, and the phases it can end in (R17, R157): one lemma per operation of the engine says
both, for any state from which the operation answers a next one. -/

namespace Sys2Proof.Laws

open Sys2Proof.Machine

/-- The engine moves and its outputs are appended; the configuration, the inputs to come and the stand-alone units stay. -/
structure LeavesRest (s t : State) : Prop where
  cfg : t.cfg = s.cfg
  script : t.script = s.script
  cs : t.cs = s.cs
  fr : t.fr = s.fr
  returned : t.returned = s.returned
  trace : s.trace <+: t.trace

theorem LeavesRest.refl (s : State) : LeavesRest s s := ⟨rfl, rfl, rfl, rfl, rfl, List.prefix_rfl⟩

theorem LeavesRest.trans {s t u : State} (h : LeavesRest s t) (k : LeavesRest t u) : LeavesRest s u :=
  ⟨k.cfg.trans h.cfg, k.script.trans h.script, k.cs.trans h.cs, k.fr.trans h.fr, k.returned.trans h.returned,
    h.trace.trans k.trace⟩

/-- An update of the engine's registers alone. -/
theorem LeavesRest.withEng (s : State) (e : Engine) : LeavesRest s { s with eng := e } :=
  ⟨rfl, rfl, rfl, rfl, rfl, List.prefix_rfl⟩

theorem LeavesRest.emit (o : Output) (s : State) : LeavesRest s (emit o s) :=
  ⟨rfl, rfl, rfl, rfl, rfl, List.prefix_append _ _⟩

theorem LeavesRest.emitAll (os : List Output) (s : State) : LeavesRest s (emitAll os s) := by
  constructor <;> simp

theorem LeavesRest.storeEnvelope (m : Memory) (s : State) : LeavesRest s (storeEnvelope m s) :=
  ⟨rfl, rfl, rfl, rfl, rfl, List.prefix_rfl⟩

theorem LeavesRest.resetEngine (s : State) : LeavesRest s (resetEngine s) :=
  ⟨rfl, rfl, rfl, rfl, rfl, List.prefix_append _ _⟩

/-- From `s` the engine came to `t`, in one of the phases `ps`, and left the rest alone. -/
structure Reaches (ps : List Phase) (s t : State) : Prop where
  rest : LeavesRest s t
  phase : t.eng.phase ∈ ps

/-- What an operation does after another one. -/
theorem Reaches.after {ps : List Phase} {s t u : State} (r : Reaches ps t u) (h : LeavesRest s t) : Reaches ps s u :=
  ⟨h.trans r.rest, r.phase⟩

theorem Reaches.mono {ps qs : List Phase} {s t : State} (r : Reaches ps s t) (h : ps ⊆ qs) : Reaches qs s t :=
  ⟨r.rest, h r.phase⟩

theorem Reaches.stays (s : State) : Reaches [s.eng.phase] s s := ⟨.refl s, List.mem_singleton.mpr rfl⟩

theorem Reaches.setPhase (p : Phase) (s : State) : Reaches [p] s (setPhase p s) :=
  ⟨.withEng s _, List.mem_singleton.mpr rfl⟩

/-! ### Back to `IDLE` (R134, R266) -/

theorem Reaches.toIdle (s : State) : Reaches [.idle] s (toIdle s) := ⟨.withEng s _, List.mem_singleton.mpr rfl⟩

theorem Reaches.fail (e : Err) (s : State) : Reaches [.idle] s (fail e s) :=
  (Reaches.toIdle (setErr e s)).after (.withEng s _)

theorem Reaches.failWith (os : List Output) (e : Err) (s : State) : Reaches [.idle] s (failWith os e s) :=
  (Reaches.fail e (Machine.emitAll os s)).after (.emitAll os s)

/-! ### The header (R139 to R142) -/

theorem doDispatch_reaches {fields : List Field} {s t : State} (h : doDispatch fields s = .next t) :
    Reaches [.dispatch] s t := by
  obtain ⟨payload, -, rfl⟩ := doDispatch_eq_next.mp h
  exact ⟨(LeavesRest.withEng s _).trans (.emit _ _), by simp⟩

/-- The phases a complete header can lead to (R140, R141). -/
def headerEnds : List Phase := [.idle, .rxLenHi, .rxPayload, .dispatch]

theorem route_reaches {s t : State} (h : route s = .next t) : Reaches headerEnds s t := by
  have acked := LeavesRest.emitAll (cmdAck s.cfg) s
  rcases route_cases s with ⟨-, -, hr⟩ | ⟨-, -, -, hr⟩ | ⟨-, hr⟩ <;> rw [hr] at h
  · cases h
    exact ⟨acked.trans (.withEng _ _), by simp [headerEnds]⟩
  · cases h
    exact ⟨acked.trans (.withEng _ _), by simp [headerEnds]⟩
  · exact ((doDispatch_reaches h).after acked).mono (by decide)

theorem acceptEntry_reaches {ent : CmdEntry} {s t : State} (h : acceptEntry ent s = .next t) : Reaches headerEnds s t := by
  have loaded : LeavesRest s (loadEntry ent s) := .withEng s _
  unfold acceptEntry at h
  split at h
  · cases h
    exact ((Reaches.failWith _ _ _).after loaded).mono (by decide)
  · exact (route_reaches h).after loaded

theorem headerComplete_reaches {hasCs : Bool} {s t : State} (h : headerComplete hasCs s = .next t) :
    Reaches headerEnds s t := by
  unfold headerComplete at h
  split at h
  · cases h
    exact (Reaches.failWith _ _ s).mono (by decide)
  · split at h
    · cases h
      exact (Reaches.failWith _ _ s).mono (by decide)
    · exact acceptEntry_reaches h

theorem finishFiveByte_reaches {b : Byte} {s t : State} (h : finishFiveByte b s = .next t) : Reaches headerEnds s t := by
  unfold finishFiveByte at h
  dsimp only at h
  split at h
  · exact (headerComplete_reaches h).after (.withEng s _)
  · cases h
  · cases h

/-- The phases a header byte can lead to: it stays where the header has more bytes to come (R139). -/
def headerByteEnds (s : State) : List Phase :=
  if hdrShape s.cfg = .fiveByte ∧ (s.eng.hdrCnt + 1).toNat ≤ 4 then [s.eng.phase] else headerEnds

theorem headerByte_reaches {b : Byte} {s t : State} (h : headerByte b s = .next t) : Reaches (headerByteEnds s) s t := by
  unfold headerByte at h
  split at h
  · cases h
  · rename_i m _
    have stored : LeavesRest s (storeHeader m s) := .withEng s _
    dsimp only at h
    split at h
    · rename_i hshape
      split at h
      · rename_i hmore
        cases h
        rw [headerByteEnds, if_pos ⟨hshape, hmore⟩]
        exact ⟨.withEng s _, List.mem_singleton.mpr rfl⟩
      · rename_i hlast
        rw [headerByteEnds, if_neg fun hc => hlast hc.2]
        exact (finishFiveByte_reaches h).after stored
    · rename_i hshape
      rw [headerByteEnds, if_neg fun hc => by rw [hshape] at hc; cases hc.1]
      exact (headerComplete_reaches h).after (.withEng s _)
    · cases h

/-- Below its fifth byte a five-byte header stays open. -/
theorem headerByteEnds_open {s : State} (hs : hdrShape s.cfg = .fiveByte) (hc : s.eng.hdrCnt = 0) :
    headerByteEnds s = [s.eng.phase] :=
  if_pos ⟨hs, by simp [hc]⟩

/-- A control byte is a whole header. -/
theorem headerByteEnds_controlByte {s : State} (hs : hdrShape s.cfg ≠ .fiveByte) : headerByteEnds s = headerEnds :=
  if_neg fun h => hs h.1

/-! ### The payload (R143 to R145) -/

theorem lenLoByte_reaches (b : Byte) (s : State) : Reaches [.idle, .rxPayload, .rxPcsum] s (lenLoByte b s) := by
  unfold lenLoByte
  dsimp only
  split
  · exact (Reaches.failWith _ _ s).mono (by decide)
  · refine ⟨.withEng s _, ?_⟩
    rw [setPhase_eng]
    dsimp only
    split <;> decide

theorem payloadByte_reaches {b : Byte} {s t : State} (h : payloadByte b s = .next t) :
    Reaches [s.eng.phase, .rxPcsum] s t := by
  obtain ⟨-, rfl⟩ := payloadByte_eq_next.mp h
  dsimp only
  split
  · exact ⟨.withEng s _, by simp⟩
  · exact ⟨.withEng s _, by simp⟩

theorem payloadChecksum_reaches {b : Byte} {s t : State} (h : payloadChecksum b s = .next t) :
    Reaches [.idle, .dispatch] s t := by
  have checked : LeavesRest s (engCheck b s) := .withEng s _
  unfold payloadChecksum at h
  dsimp only at h
  split at h
  · exact ((doDispatch_reaches h).after (checked.trans (.emitAll _ _))).mono (by decide)
  · cases h
    exact ((Reaches.failWith _ _ _).after checked).mono (by decide)

/-! ### The envelope (R246 to R249) -/

theorem envStore_reaches {d : Byte} {s t : State} (h : envStore d s = .next t) : Reaches [s.eng.phase, .idle] s t := by
  rcases envStore_eq_next.mp h with ⟨-, rfl⟩ | ⟨-, rfl⟩
  · exact (Reaches.fail _ s).mono (by simp)
  · exact ⟨.storeEnvelope _ s, by simp⟩

theorem splitDispatch_reaches {fields : List Field} {payload : List Byte} {s t : State}
    (h : splitDispatch fields payload s = .next t) : Reaches [.dispatch] s t := by
  unfold splitDispatch at h
  split at h
  · cases h
  · exact (doDispatch_reaches h).after (.withEng s _)

theorem envelopeRoute_reaches {fields : List Field} {payload : List Byte} {s t : State}
    (h : envelopeRoute fields payload s = .next t) : Reaches [.idle, .dispatch] s t := by
  unfold envelopeRoute at h
  split at h
  · cases h
    exact (Reaches.failWith _ _ s).mono (by decide)
  · rename_i ent _
    have loaded : LeavesRest s (loadEntry ent s) := .withEng s _
    dsimp only at h
    split at h
    · cases h
      exact ((Reaches.failWith _ _ _).after loaded).mono (by decide)
    · split at h
      · cases h
        exact ((Reaches.fail _ _).after loaded).mono (by decide)
      · exact ((splitDispatch_reaches h).after loaded).mono (by decide)

theorem envelopeChecks_reaches {pc : Nat} {rest : List Byte} {s t : State}
    (h : envelopeChecks pc rest s = .next t) : Reaches [.idle, .dispatch] s t := by
  unfold envelopeChecks at h
  split at h
  · cases h
    exact (Reaches.failWith _ _ s).mono (by decide)
  · split at h
    · cases h
      exact (Reaches.fail _ s).mono (by decide)
    · exact (envelopeRoute_reaches h).after (.withEng s _)

theorem envelopeComplete_reaches {s t : State} (h : envelopeComplete s = .next t) : Reaches [.idle, .dispatch] s t := by
  unfold envelopeComplete at h
  split at h
  · cases h
  · unfold parseEnvelope at h
    split at h
    · exact (envelopeChecks_reaches h).after (.withEng s _)
    · cases h
      exact (Reaches.fail _ s).mono (by decide)

/-- The decoder takes a byte. -/
theorem LeavesRest.engDecode (b : Byte) (s : State) : LeavesRest s (engDecode b s).1 := .withEng s _

theorem fujiIdleByte_reaches {b : Byte} {s t : State} (h : fujiIdleByte b s = .next t) :
    Reaches [s.eng.phase, .cmdDetect] s t := by
  unfold fujiIdleByte at h
  dsimp only at h
  split at h
  · cases h
    exact ⟨.withEng s _, by simp⟩
  · cases h
    exact ⟨.withEng s _, by simp [engDecode]⟩
  · cases h
  · cases h

theorem fujiDetectByte_reaches {b : Byte} {s t : State} (h : fujiDetectByte b s = .next t) :
    Reaches [s.eng.phase, .rxEnv, .idle] s t := by
  unfold fujiDetectByte at h
  dsimp only at h
  split at h
  · cases h
    exact ⟨.engDecode b s, by simp [engDecode]⟩
  · exact ((envStore_reaches h).after (.withEng s _)).mono (by simp)
  · split at h
    · cases h
    · cases h
      exact ((Reaches.fail _ _).after (.engDecode b s)).mono (by simp)
  · cases h

theorem envelopeByte_reaches {b : Byte} {s t : State} (h : envelopeByte b s = .next t) :
    Reaches [s.eng.phase, .idle, .dispatch] s t := by
  unfold envelopeByte at h
  dsimp only at h
  split at h
  · cases h
    exact ⟨.engDecode b s, by simp [engDecode]⟩
  · exact ((envStore_reaches h).after (.engDecode b s)).mono (by simp [engDecode])
  · split at h
    · exact ((envelopeComplete_reaches h).after (.engDecode b s)).mono (by simp)
    · cases h
      exact ((Reaches.fail _ _).after (.engDecode b s)).mono (by simp)
  · cases h

/-! ### A received byte (R156) -/

theorem idleByte_reaches {b : Byte} {s t : State} (hp : s.eng.phase = .idle) (h : idleByte b s = .next t) :
    Reaches (if detect s.cfg = .controlByte then headerEnds else [.idle, .cmdDetect]) s t := by
  have ignored : Reaches [.idle] s s := hp ▸ .stays s
  unfold idleByte at h
  split at h
  · rename_i hd
    cases h
    exact ignored.mono (by simp [hd])
  · rename_i hd
    rw [if_pos hd]
    split at h
    · have hs : hdrShape s.cfg ≠ .fiveByte := by simp [detect_shape.2.1.mp hd]
      have hends : headerByteEnds (Machine.setPhase .rxHdr (beginFrame s)) = headerEnds := headerByteEnds_controlByte hs
      exact (hends ▸ headerByte_reaches h).after (.withEng s _)
    · cases h
      exact ignored.mono (by decide)
  · rename_i hd
    exact (fujiIdleByte_reaches h).mono (by simp [hd, hp])

theorem detectByte_reaches {b : Byte} {s t : State} (hp : s.eng.phase = .cmdDetect) (h : detectByte b s = .next t) :
    Reaches (if detect s.cfg = .line then headerByteEnds (setPhase .rxHdr s) else [.cmdDetect, .rxEnv, .idle]) s t := by
  unfold detectByte at h
  split at h
  · rename_i hd
    rw [if_pos hd]
    exact (headerByte_reaches h).after (.withEng s _)
  · cases h
  · rename_i hd
    exact (fujiDetectByte_reaches h).mono (by simp [hd, hp])

theorem hostAckByte_reaches (b : Byte) (s : State) : Reaches [s.eng.phase, .idle] s (hostAckByte b s) := by
  unfold hostAckByte
  split
  · exact (Reaches.toIdle s).mono (by simp)
  · split
    · exact (Reaches.fail _ s).mono (by simp)
    · exact (Reaches.stays s).mono (by simp)

/-- The phases a received byte can lead to (R156, R157). -/
def rxEnds (s : State) : List Phase :=
  match s.eng.phase with
  | .idle => if detect s.cfg = .controlByte then headerEnds else [.idle, .cmdDetect]
  | .cmdDetect =>
    if detect s.cfg = .line then headerByteEnds (setPhase .rxHdr s) else [.cmdDetect, .rxEnv, .idle]
  | .rxHdr => headerByteEnds s
  | .rxLenHi => [.rxLenLo]
  | .rxLenLo => [.idle, .rxPayload, .rxPcsum]
  | .rxPayload => [.rxPayload, .rxPcsum]
  | .rxPcsum => [.idle, .dispatch]
  | .rxEnv => [.rxEnv, .idle, .dispatch]
  | .dispatch => [.dispatch]
  | .waitHostAck => [.waitHostAck, .idle]

theorem rxByte_reaches {b : Byte} {s t : State} (h : rxByte b s = .next t) : Reaches (rxEnds s) s t := by
  unfold rxByte at h
  cases hp : s.eng.phase <;> simp only [hp] at h <;> simp only [rxEnds, hp]
  case idle => exact idleByte_reaches hp h
  case cmdDetect => exact detectByte_reaches hp h
  case rxHdr => exact headerByte_reaches h
  case rxLenHi =>
    cases h
    exact ⟨.withEng s _, List.mem_singleton.mpr rfl⟩
  case rxLenLo =>
    cases h
    exact lenLoByte_reaches b s
  case rxPayload => exact hp ▸ payloadByte_reaches h
  case rxPcsum => exact payloadChecksum_reaches h
  case rxEnv => exact hp ▸ envelopeByte_reaches h
  case dispatch =>
    cases h
    exact hp ▸ .stays s
  case waitHostAck =>
    cases h
    exact hp ▸ hostAckByte_reaches b s

theorem rxBytes_leavesRest {bytes : List Byte} {s t : State} (h : rxBytes bytes s = .next t) : LeavesRest s t := by
  induction bytes generalizing s with
  | nil =>
    cases h
    exact .refl t
  | cons b bytes ih =>
    obtain ⟨u, hu, ht⟩ := andThen_eq_next.mp h
    exact (rxByte_reaches hu).rest.trans (ih ht)

/-- Bytes that arrive while the dispatcher is at work are discarded (R147). -/
theorem rxBytes_dispatch {s : State} (hp : s.eng.phase = .dispatch) (bytes : List Byte) : rxBytes bytes s = .next s := by
  induction bytes with
  | nil => rfl
  | cons b bytes ih =>
    have ignored : rxByte b s = .next s := by simp [rxByte, hp]
    rw [rxBytes_cons, ignored, andThen_next, ih]

/-! ### The other events (R149, R151, R152) -/

/-- The phases an edge of the input line can lead to (R152). -/
def lineEnds (p : Phase) : List Phase :=
  match p with
  | .idle => [.idle, .cmdDetect]
  | .cmdDetect => [.cmdDetect, .idle]
  | .rxHdr => [.rxHdr, .idle]
  | p => [p]

theorem mem_lineEnds (p : Phase) : p ∈ lineEnds p := by cases p <;> decide

theorem lineEvent_reaches (v : Bool) (s : State) : Reaches (lineEnds s.eng.phase) s (lineEvent v s) := by
  have sampled : LeavesRest s (setLinePrev v s) := .withEng s _
  unfold lineEvent
  dsimp only
  split
  · split
    · rename_i hrise
      exact ⟨.withEng s _, by simp [hrise.1, lineEnds]⟩
    · split
      · rename_i hfall
        refine ((Reaches.fail _ _).after sampled).mono ?_
        rcases hfall.2 with hp | hp <;> simp [hp, lineEnds]
      · exact ⟨sampled, mem_lineEnds _⟩
  · exact ⟨sampled, mem_lineEnds _⟩

theorem timeoutEvent_reaches (s : State) :
    Reaches (if timerRuns s.eng.phase then [.idle] else [s.eng.phase]) s (timeoutEvent s) := by
  unfold timeoutEvent
  split
  · exact .fail _ s
  · exact .stays s

theorem sendResponse_reaches (status : Byte) (data : List Byte) (s : State) :
    Reaches [.waitHostAck, .idle] s (sendResponse status data s) := by
  unfold sendResponse
  dsimp only
  generalize response s.cfg s.eng status data (needData s.eng) (lenOk s.cfg s.eng data) = r
  have answered : LeavesRest s (if status ≠ 0x00 ∨ lenOk s.cfg s.eng data = false then setErr .device (emitAll r.1 s)
      else emitAll r.1 s) := by
    have sent := LeavesRest.emitAll r.1 s
    split
    · exact sent.trans (.withEng _ _)
    · exact sent
  split
  · exact ((Reaches.setPhase _ _).after answered).mono (by decide)
  · exact ((Reaches.toIdle _).after answered).mono (by decide)

/-- The phases an event can lead to (R157). -/
def eventEnds (s : State) : Instr → List Phase
  | .evReset _ => [.idle]
  | .evLine _ _ _ => lineEnds s.eng.phase
  | .evRx _ _ => rxEnds s
  | .evTimeout _ => if timerRuns s.eng.phase then [.idle] else [s.eng.phase]
  | .evDispatchDone _ _ => if s.eng.phase = .dispatch then [.waitHostAck, .idle] else [s.eng.phase]
  | .evDispatchNodevice _ => if s.eng.phase = .dispatch then [.idle] else [s.eng.phase]
  | _ => [s.eng.phase]

theorem exec_event_reaches {i : Instr} (hi : EventRow i) {s t : State} (h : exec i s = .next t) :
    Reaches (eventEnds s i) s t := by
  cases hi with
  | none x =>
    cases h
    exact .stays s
  | reset x =>
    cases h
    exact ⟨.resetEngine s, List.mem_singleton.mpr rfl⟩
  | line v x l =>
    cases h
    split
    · exact lineEvent_reaches v s
    · exact (Reaches.stays s).mono (by simp [eventEnds, mem_lineEnds])
  | rx x b => exact rxByte_reaches h
  | timeout x =>
    cases h
    exact timeoutEvent_reaches s
  | done status data =>
    cases h
    simp only [eventEnds]
    split
    · exact sendResponse_reaches status data s
    · exact .stays s
  | nodevice x =>
    cases h
    simp only [eventEnds]
    split
    · exact .fail _ s
    · exact .stays s
  | poll x =>
    cases h
    split
    · exact ⟨.emit _ s, List.mem_singleton.mpr rfl⟩
    · exact .stays s
  | reserved x =>
    cases h
    exact .stays s

/-- An instruction that is no unit word leaves everything but the engine, its outputs and the model's counters alone. -/
theorem exec_leavesRest {i : Instr} {s t : State} (hu : ∀ u w, i ≠ decodeOp u w) (h : exec i s = .next t) :
    LeavesRest s t := by
  cases rowKind i s with
  | unit u w hi => exact absurd hi (hu u w)
  | event hi => exact (exec_event_reaches hi h).rest
  | received bytes hi => exact rxBytes_leavesRest (hi.symm.trans h)
  | sent n hi =>
    cases hi.symm.trans h
    exact ⟨rfl, rfl, rfl, rfl, rfl, List.prefix_rfl⟩

/-- Settles O55: a unit word keeps to its unit's frame, and any other instruction leaves the units alone as well. -/
theorem execKeepsConfigurationAndAppendsOutputs : Obligations.ExecKeepsConfigurationAndAppendsOutputs := by
  unfold Obligations.ExecKeepsConfigurationAndAppendsOutputs
  intro i s t h
  by_cases hu : ∃ u w, i = decodeOp u w
  · obtain ⟨u, w, rfl⟩ := hu
    obtain ⟨r, hr, hf⟩ := exec_decodeOp s u w
    cases hr.symm.trans h
    exact ⟨hf.cfg, hf.script, hf.trace ▸ List.prefix_rfl, hf.returned, fun hne => absurd rfl (hne u w)⟩
  · have hne : ∀ u w, i ≠ decodeOp u w := fun u w hi => hu ⟨u, w, hi⟩
    have hl := exec_leavesRest hne h
    exact ⟨hl.cfg, hl.script, hl.trace, hl.returned ▸ List.prefix_rfl, fun _ => ⟨hl.cs, hl.fr, hl.returned⟩⟩

/-! ### The table of phase transitions (R157) -/

/-- The transitions of `ST` in one event. -/
def transitions : List (St × St) :=
  [(.idle, .idle), (.idle, .cmdDetect), (.cmdDetect, .cmdDetect), (.cmdDetect, .frameRx), (.cmdDetect, .idle),
   (.frameRx, .frameRx), (.frameRx, .dispatch), (.frameRx, .idle), (.dispatch, .dispatch), (.dispatch, .respTx),
   (.dispatch, .idle), (.respTx, .respTx), (.respTx, .idle)]

/-- A control byte in `IDLE` passes through `CMD_DETECT` to what its header leads to (R135). -/
def passesDetect (s t : State) : Prop :=
  detect s.cfg = .controlByte ∧ s.eng.phase = .idle ∧ t.eng.phase ∈ [Phase.rxLenHi, Phase.rxPayload, Phase.dispatch]

/-- Where the table allows every phase of a list after `p`, it allows the one the engine came to. -/
theorem mem_transitions {p q : Phase} {ps : List Phase} (hq : q ∈ ps)
    (allowed : ∀ r ∈ ps, (p.st, r.st) ∈ transitions) : (p.st, q.st) ∈ transitions := allowed q hq

/-- A received byte makes a transition of the table. The invariant is needed in `CMD_DETECT` alone: there no header byte is
stored, so the first one does not complete the header. -/
theorem rxByte_transition {b : Byte} {s t : State} (h : Inv s) (ht : rxByte b s = .next t) :
    (s.eng.phase.st, t.eng.phase.st) ∈ transitions ∨ passesDetect s t := by
  have hr := (rxByte_reaches ht).phase
  cases hp : s.eng.phase <;> simp only [rxEnds, hp] at hr
  case idle =>
    by_cases hd : detect s.cfg = .controlByte
    · rw [if_pos hd, headerEnds, List.mem_cons] at hr
      rcases hr with hi | hr
      · left
        rw [hi]
        decide
      · exact .inr ⟨hd, hp, hr⟩
    · rw [if_neg hd] at hr
      exact .inl (mem_transitions hr (by decide))
  case cmdDetect =>
    left
    by_cases hd : detect s.cfg = .line
    · have hends : headerByteEnds (setPhase .rxHdr s) = [.rxHdr] :=
        headerByteEnds_open (detect_shape.1.mp hd) (h.hdrStart hp)
      rw [if_pos hd, hends] at hr
      exact mem_transitions hr (by decide)
    · rw [if_neg hd] at hr
      exact mem_transitions hr (by decide)
  case rxHdr =>
    left
    simp only [headerByteEnds, hp] at hr
    split at hr
    · exact mem_transitions hr (by decide)
    · exact mem_transitions hr (by decide)
  all_goals exact .inl (mem_transitions hr (by decide))

/-- An event makes a transition of the table (R157). -/
theorem event_transition {i : Instr} (hi : EventRow i) {s t : State} (h : Inv s) (ht : exec i s = .next t) :
    (s.eng.phase.st, t.eng.phase.st) ∈ transitions ∨ passesDetect s t := by
  have hr := (exec_event_reaches hi ht).phase
  have stays : (s.eng.phase.st, s.eng.phase.st) ∈ transitions := by cases s.eng.phase <;> decide
  have idles : (s.eng.phase.st, Phase.idle.st) ∈ transitions := by cases s.eng.phase <;> decide
  cases hi with
  | rx x b => exact rxByte_transition h ht
  | none x | poll x | reserved x => exact .inl (List.mem_singleton.mp hr ▸ stays)
  | reset x => exact .inl (List.mem_singleton.mp hr ▸ idles)
  | line v x l =>
    left
    cases hp : s.eng.phase <;> simp only [eventEnds, hp] at hr <;> exact mem_transitions hr (by decide)
  | timeout x =>
    left
    simp only [eventEnds] at hr
    split at hr
    · exact List.mem_singleton.mp hr ▸ idles
    · exact List.mem_singleton.mp hr ▸ stays
  | done status data =>
    left
    simp only [eventEnds] at hr
    split at hr
    · rename_i hp
      rw [hp]
      exact mem_transitions hr (by decide)
    · exact List.mem_singleton.mp hr ▸ stays
  | nodevice x =>
    left
    simp only [eventEnds] at hr
    split at hr
    · exact List.mem_singleton.mp hr ▸ idles
    · exact List.mem_singleton.mp hr ▸ stays

/-- What ends `DISPATCH`: an answer of the dispatcher, or a reset (R147 to R149, R153). -/
theorem exec_leaves_dispatch {i : Instr} {s t : State} (h : exec i s = .next t) (hp : s.eng.phase = .dispatch)
    (ht : t.eng.phase ≠ .dispatch) :
    (∃ x, i = .evReset x) ∨ (∃ st d, i = .evDispatchDone st d) ∨ (∃ x, i = .evDispatchNodevice x) := by
  cases rowKind i s with
  | unit u w hi =>
    subst hi
    obtain ⟨r, hr, hf⟩ := exec_decodeOp s u w
    cases hr.symm.trans h
    exact absurd (hf.eng ▸ hp) ht
  | received bytes hi =>
    cases (hi.symm.trans h).symm.trans (rxBytes_dispatch hp bytes)
    exact absurd hp ht
  | sent n hi =>
    cases hi.symm.trans h
    exact absurd hp ht
  | event hi =>
    have hr := (exec_event_reaches hi h).phase
    cases hi with
    | reset x => exact .inl ⟨x, rfl⟩
    | done status data => exact .inr (.inl ⟨status, data, rfl⟩)
    | nodevice x => exact .inr (.inr ⟨x, rfl⟩)
    | none x | line v x l | rx x b | timeout x | poll x | reserved x =>
      simp only [eventEnds, rxEnds, hp] at hr
      exact absurd (List.mem_singleton.mp hr) ht

/-- Settles O53: each event's transitions, and what ends `DISPATCH`. -/
theorem phaseTransitions : Obligations.PhaseTransitions := by
  unfold Obligations.PhaseTransitions
  intro s t h
  exact ⟨fun w l ht => event_transition (decodeEv_eventRow w l) h ht, fun i => exec_leaves_dispatch⟩

end Sys2Proof.Laws
end

section
/-! A byte inside an envelope (R247). -/

namespace Sys2Proof.Laws

open Sys2Proof.Machine

/-- A failure without an action (R266). -/
theorem failWith_nil (e : Err) (s : State) : failWith [] e s = fail e s := rfl

/-- At its last value `ENVCNT` counts to a free value (R20, R247; log entry 17). -/
theorem storeEnvelope_pastEnd {s : State} (h : s.eng.envCnt = 0xFFFF) (m : Memory) :
    storeEnvelope m s = { s with draws := s.draws + 1, eng := { s.eng with
      envBuf := m, envCnt := Config.envCntPastEnd s.draws } } := by
  simp [storeEnvelope, envCntNext, envCntFull, h]

/-- Below it, to the next. -/
theorem storeEnvelope_counts {s : State} (h : s.eng.envCnt ≠ 0xFFFF) (m : Memory) :
    storeEnvelope m s = { s with eng := { s.eng with envBuf := m, envCnt := s.eng.envCnt + 1 } } :=
  storeEnvelope_room (by bv_omega) m

theorem exec_evRx_rxEnv {s : State} (x : Bool) (b : Byte) (hp : s.eng.phase = .rxEnv) :
    exec (.evRx x b) s = envelopeByte b s := by
  change rxByte b s = _
  simp only [rxByte, hp]

/-- Settles O44: `envelopeByte` output by output, and `env_store` below and at the size of `ENVBUF`. -/
theorem envelopeByteFollowsTheDecoder : Obligations.EnvelopeByteFollowsTheDecoder := by
  unfold Obligations.EnvelopeByteFollowsTheDecoder
  intro s x b hp _ u
  rw [exec_evRx_rxEnv x b hp]
  have taken : engDecode b s = (u, (decStep s.cfg s.eng.fr b).2) := rfl
  refine ⟨fun ho => ?nothing, fun ho => ?bad, fun ho => ?good, fun d ho => ?data⟩
  case nothing => simp only [envelopeByte, taken, ho]
  case bad => simp [envelopeByte, taken, ho, failWith_nil]
  case good => simp only [envelopeByte, taken, ho, if_true]
  case data =>
    have stores : envelopeByte b s = envStore d u := by simp only [envelopeByte, taken, ho]
    rw [stores]
    refine ⟨fun hfull => envStore_eq_next.mpr (.inl ⟨hfull, failWith_nil _ _⟩), fun hroom => ?_⟩
    have stored : envStore d u = .next (storeEnvelope (s.eng.envBuf.write s.eng.envCnt.toNat d) u) :=
      envStore_eq_next.mpr (.inr ⟨hroom, rfl⟩)
    rw [stored]
    exact ⟨_, fun i => read_write _ _ i d, fun hc => congrArg Host.Outcome.next (storeEnvelope_counts (s := u) hc _),
      fun hc => congrArg Host.Outcome.next (storeEnvelope_pastEnd (s := u) hc _)⟩

end Sys2Proof.Laws
end

section
/-! What an instruction adds to the output trace (R43, R66, R301). Received bytes are answered by acknowledgements and
refusals, which one lemma per operation of the engine follows to the trace; the dispatcher's answer by one response (R134). -/

namespace Sys2Proof.Laws

open Sys2Proof.Machine

/-! ### Bursts that answer received bytes -/

/-- A burst headed by a control byte of a code that R66 marks as sent. -/
def SentHead (c : Config) (bytes : List Byte) : Prop :=
  ∃ code dev rest, bytes = ctlByte code dev :: rest ∧ code ∈ sentCodes c

/-- What a burst in answer to received bytes is: ACK or NAK on SIO (R171), one with a sent code on a control-byte bus (R66). -/
structure Reply (c : Config) (bytes : List Byte) : Prop where
  sio : c.bus = .sio → bytes = [c.sioAck] ∨ bytes = [c.sioNak]
  ctl : c.bus = .iec ∨ c.bus = .adamnet → SentHead c bytes

theorem Reply.of_sio {c : Config} {bytes : List Byte} (hb : c.bus = .sio)
    (h : bytes = [c.sioAck] ∨ bytes = [c.sioNak]) : Reply c bytes :=
  ⟨fun _ => h, by simp [hb]⟩

theorem Reply.nack {c : Config} (hb : c.bus = .adamnet) (dev : Nibble) : Reply c [ctlByte c.nmNack dev] :=
  ⟨by simp [hb], fun _ => ⟨c.nmNack, dev, [], rfl, by simp [sentCodes]⟩⟩

/-- SmartPort and FujiBus put no bound on what is sent in answer. -/
theorem Reply.of_other {c : Config} (hb : c.bus = .smartport ∨ c.bus = .fujibus) (bytes : List Byte) : Reply c bytes := by
  rcases hb with hb | hb <;> exact ⟨by simp [hb], by simp [hb]⟩

/-- Every burst of a list of outputs is a reply. -/
def Replies (c : Config) (os : List Output) : Prop := ∀ bytes, .tx bytes ∈ os → Reply c bytes

theorem replies_nil (c : Config) : Replies c [] := fun _ h => absurd h List.not_mem_nil

theorem replies_append {c : Config} {os os' : List Output} (h : Replies c os) (h' : Replies c os') : Replies c (os ++ os') :=
  fun bytes hb => (List.mem_append.mp hb).elim (h bytes) (h' bytes)

theorem replies_burst {c : Config} {bytes : List Byte} (h : Reply c bytes) : Replies c [.tx bytes] := by
  intro bytes' hb
  cases List.mem_singleton.mp hb
  exact h

theorem replies_ackPulse (c : Config) : Replies c ackPulse := by simp [Replies, ackPulse]

theorem replies_dispatch (c : Config) (frame : Frame) (fields : List Field) (payload : List Byte) :
    Replies c [.dispatch frame fields payload] := by simp [Replies]

theorem replies_cmdAck (c : Config) : Replies c (cmdAck c) := by
  unfold cmdAck
  split
  · rename_i hb
    exact replies_burst (.of_sio hb (.inl rfl))
  · exact replies_ackPulse c
  · exact replies_ackPulse c
  · exact replies_nil c
  · exact replies_nil c

theorem payloadAck_eq (c : Config) : payloadAck c = cmdAck c := rfl

theorem replies_nak (c : Config) (e : Engine) : Replies c (nak c e) := by
  unfold nak
  split
  · rename_i hb
    exact replies_burst (.of_sio hb (.inr rfl))
  · exact replies_nil c
  · exact replies_nil c
  · rename_i hb
    exact replies_burst (.nack hb _)
  · exact replies_nil c

theorem replies_unsupported (c : Config) (e : Engine) : Replies c (unsupported c e) := by
  unfold unsupported
  split
  · rename_i hb
    exact replies_burst (.of_sio hb (.inr rfl))
  · exact replies_nil c
  · rename_i hb
    exact replies_append (replies_ackPulse c) (replies_burst (.of_other (.inl hb) _))
  · rename_i hb
    exact replies_burst (.nack hb _)
  · rename_i hb
    exact replies_burst (.of_other (.inr hb) _)

theorem replies_firstFailure {c : Config} {bad : Bool} {os os' : List Output} {e : Err} {s : State} (ho : Replies c os)
    (h : firstFailure bad os s = some (os', e)) : Replies c os' := by
  rw [firstFailure_eq] at h
  split at h
  · split at h
    · cases h
      exact ho
    · cases h
  · split at h
    · cases h
      exact ho
    · cases h
      exact replies_nil c

/-! ### What received bytes add to the trace -/

/-- From `s` to `t` replies are appended to the trace. -/
def Answers (s t : State) : Prop := ∃ os, t.trace = s.trace ++ os ∧ Replies s.cfg os

theorem Answers.silent {s t : State} (h : t.trace = s.trace) : Answers s t := ⟨[], by simp [h], replies_nil _⟩

theorem Answers.trans {s t u : State} (h : Answers s t) (hc : t.cfg = s.cfg) (k : Answers t u) : Answers s u := by
  obtain ⟨os, ht, ho⟩ := h
  obtain ⟨os', hu, ho'⟩ := k
  exact ⟨os ++ os', by rw [hu, ht, List.append_assoc], replies_append ho (hc ▸ ho')⟩

/-- What an operation adds after a change of the engine's registers. -/
theorem Answers.after {s : State} {e : Engine} {u : State} (h : Answers { s with eng := e } u) : Answers s u :=
  (Answers.silent rfl).trans rfl h

theorem Answers.emitAll {s : State} {os : List Output} (ho : Replies s.cfg os) : Answers s (emitAll os s) :=
  ⟨os, emitAll_trace os s, ho⟩

theorem Answers.failWith {s : State} {os : List Output} (ho : Replies s.cfg os) (e : Err) : Answers s (failWith os e s) :=
  ⟨os, failWith_trace os e s, ho⟩

/-- On SmartPort and FujiBus whatever is appended is an answer. -/
theorem Answers.of_other {s t : State} (hb : s.cfg.bus = .smartport ∨ s.cfg.bus = .fujibus) (h : LeavesRest s t) :
    Answers s t := by
  obtain ⟨os, ho⟩ := h.trace
  exact ⟨os, ho.symm, fun bytes _ => .of_other hb bytes⟩

theorem doDispatch_answers {fields : List Field} {s t : State} (h : doDispatch fields s = .next t) : Answers s t := by
  obtain ⟨payload, -, rfl⟩ := doDispatch_eq_next.mp h
  exact ⟨_, rfl, replies_dispatch _ _ _ _⟩

theorem route_answers {s t : State} (h : route s = .next t) : Answers s t := by
  have acked : Answers s (Machine.emitAll (cmdAck s.cfg) s) := .emitAll (replies_cmdAck _)
  have kept : (Machine.emitAll (cmdAck s.cfg) s).cfg = s.cfg := emitAll_cfg _ _
  rcases route_cases s with ⟨-, -, hr⟩ | ⟨-, -, -, hr⟩ | ⟨-, hr⟩ <;> rw [hr] at h
  · cases h
    exact acked.trans kept (.silent rfl)
  · cases h
    exact acked.trans kept (.silent rfl)
  · exact acked.trans kept (doDispatch_answers h)

theorem acceptEntry_answers {ent : CmdEntry} {s t : State} (h : acceptEntry ent s = .next t) : Answers s t := by
  unfold acceptEntry at h
  split at h
  · cases h
    exact (Answers.failWith (replies_nak _ _) _).after
  · exact (route_answers h).after

theorem headerComplete_answers {hasCs : Bool} {s t : State} (h : headerComplete hasCs s = .next t) : Answers s t := by
  unfold headerComplete at h
  split at h
  · rename_i hfail
    cases h
    exact .failWith (replies_firstFailure (replies_nak _ _) hfail) _
  · split at h
    · cases h
      exact .failWith (replies_unsupported _ _) _
    · exact acceptEntry_answers h

theorem finishFiveByte_answers {b : Byte} {s t : State} (h : finishFiveByte b s = .next t) : Answers s t := by
  unfold finishFiveByte at h
  dsimp only at h
  split at h
  · exact (headerComplete_answers h).after
  · cases h
  · cases h

theorem headerByte_answers {b : Byte} {s t : State} (h : headerByte b s = .next t) : Answers s t := by
  unfold headerByte at h
  split at h
  · cases h
  · dsimp only at h
    split at h
    · split at h
      · cases h
        exact .silent rfl
      · exact (finishFiveByte_answers h).after
    · exact (headerComplete_answers h).after
    · cases h

theorem lenLoByte_answers (b : Byte) (s : State) : Answers s (lenLoByte b s) := by
  unfold lenLoByte
  dsimp only
  split
  · exact .failWith (replies_nak _ _) _
  · exact .silent rfl

theorem payloadByte_answers {b : Byte} {s t : State} (h : payloadByte b s = .next t) : Answers s t := by
  obtain ⟨-, rfl⟩ := payloadByte_eq_next.mp h
  dsimp only
  split <;> exact .silent rfl

theorem payloadChecksum_answers {b : Byte} {s t : State} (h : payloadChecksum b s = .next t) : Answers s t := by
  unfold payloadChecksum at h
  dsimp only at h
  split at h
  · have acked : Answers (engCheck b s) (Machine.emitAll (payloadAck s.cfg) (engCheck b s)) :=
      .emitAll (payloadAck_eq s.cfg ▸ replies_cmdAck s.cfg)
    exact (acked.trans (emitAll_cfg _ _) (doDispatch_answers h)).after
  · cases h
    exact (Answers.failWith (replies_nak _ _) _).after

theorem hostAckByte_trace (b : Byte) (s : State) : (hostAckByte b s).trace = s.trace := by
  unfold hostAckByte
  split
  · rfl
  · split <;> rfl

theorem fujiIdleByte_trace {b : Byte} {s t : State} (h : fujiIdleByte b s = .next t) : t.trace = s.trace := by
  unfold fujiIdleByte at h
  dsimp only at h
  split at h <;> cases h <;> rfl

/-- A received byte that R156 answers with no burst: while the dispatcher or the host's acknowledgement is awaited, and in
`IDLE` where a frame does not start with a control byte. -/
theorem rxByte_trace {b : Byte} {s t : State} (h : rxByte b s = .next t)
    (hp : s.eng.phase = .dispatch ∨ s.eng.phase = .waitHostAck ∨ s.eng.phase = .idle ∧ detect s.cfg ≠ .controlByte) :
    t.trace = s.trace := by
  rcases hp with hp | hp | ⟨hp, hd⟩ <;> simp only [rxByte, hp] at h
  · cases h
    rfl
  · cases h
    exact hostAckByte_trace b s
  · unfold idleByte at h
    split at h
    · cases h
      rfl
    · rename_i hc
      exact absurd hc hd
    · exact fujiIdleByte_trace h

theorem idleByte_answers {b : Byte} {s t : State} (hf : s.cfg.bus ≠ .fujibus) (h : idleByte b s = .next t) :
    Answers s t := by
  unfold idleByte at h
  split at h
  · cases h
    exact .silent rfl
  · split at h
    · exact (headerByte_answers h).after
    · cases h
      exact .silent rfl
  · rename_i hd
    exact absurd (detect_shape.2.2.1.mp hd) hf

theorem detectByte_answers {b : Byte} {s t : State} (hf : s.cfg.bus ≠ .fujibus) (h : detectByte b s = .next t) :
    Answers s t := by
  unfold detectByte at h
  split at h
  · exact (headerByte_answers h).after
  · cases h
  · rename_i hd
    exact absurd (detect_shape.2.2.1.mp hd) hf

/-- Whatever a received byte adds is a reply. The invariant keeps envelopes, and so FujiBus responses, to FujiBus (R245). -/
theorem rxByte_answers {b : Byte} {s t : State} (hi : Inv s) (h : rxByte b s = .next t) : Answers s t := by
  by_cases hf : s.cfg.bus = .fujibus
  · exact .of_other (.inr hf) (rxByte_reaches h).rest
  · unfold rxByte at h
    cases hp : s.eng.phase <;> simp only [hp] at h
    case idle => exact idleByte_answers hf h
    case cmdDetect => exact detectByte_answers hf h
    case rxHdr => exact headerByte_answers h
    case rxLenHi =>
      cases h
      exact .silent rfl
    case rxLenLo =>
      cases h
      exact lenLoByte_answers b s
    case rxPayload => exact payloadByte_answers h
    case rxPcsum => exact payloadChecksum_answers h
    case rxEnv =>
      have legal := hi.phaseOk
      rw [hp] at legal
      exact absurd (beq_iff_eq.mp legal) hf
    case dispatch =>
      cases h
      exact .silent rfl
    case waitHostAck =>
      cases h
      exact .silent (hostAckByte_trace b s)

theorem rxBytes_answers {bytes : List Byte} {s t : State} (hi : Inv s) (h : rxBytes bytes s = .next t) : Answers s t := by
  induction bytes generalizing s with
  | nil =>
    cases h
    exact .silent rfl
  | cons b bytes ih =>
    obtain ⟨u, hu, ht⟩ := andThen_eq_next.mp h
    obtain ⟨u', hu', hi'⟩ := rxByte_keeps hi b
    cases hu'.symm.trans hu
    exact (rxByte_answers hi hu).trans (rxByte_reaches hu).rest.cfg (ih hi' ht)

/-! ### The response to the dispatcher's answer (R134) -/

/-- A response on SIO: one symbol, or a symbol with its data block where the data are asked for and fit (R171). -/
def SioResponse (c : Config) (status : Byte) (data : List Byte) (needData lenOk : Bool) (bytes : List Byte) : Prop :=
  bytes = [c.sioComplete] ∨ bytes = [c.sioError] ∨ needData = true ∧ lenOk = true
    ∧ bytes = [if status = 0x00 then c.sioComplete else c.sioError] ++ data ++ [checksum c data]

theorem sioResponse_burst (c : Config) (status : Byte) (data : List Byte) (nd ok : Bool) :
    ∃ bytes, sioResponse c status data nd ok = [.tx bytes] ∧ SioResponse c status data nd ok bytes := by
  unfold sioResponse
  dsimp only
  split
  · refine ⟨_, rfl, ?_⟩
    split
    · exact .inl rfl
    · exact .inr (.inl rfl)
  · rename_i hn
    split
    · rename_i hk
      exact ⟨_, rfl, .inr (.inr ⟨Bool.not_eq_false _ ▸ hn, hk, rfl⟩)⟩
    · exact ⟨_, rfl, .inr (.inl rfl)⟩

theorem iecResponse_burst (c : Config) (e : Engine) (status : Byte) (data : List Byte) (nd ok : Bool) :
    ∃ bytes, iecResponse c e status data nd ok = [.tx bytes] ∧ SentHead c bytes := by
  unfold iecResponse
  split
  · exact ⟨_, rfl, c.nmSend, _, _, rfl, by simp [sentCodes]⟩
  · exact ⟨_, rfl, c.nmStatus, _, _, rfl, by simp [sentCodes]⟩

theorem adamnetResponse_burst (c : Config) (e : Engine) (status : Byte) (data : List Byte) (nd ok : Bool) :
    ∃ bytes, (adamnetResponse c e status data nd ok).1 = [.tx bytes] ∧ SentHead c bytes := by
  unfold adamnetResponse
  split
  · refine ⟨_, rfl, _, _, [], rfl, ?_⟩
    split <;> simp [sentCodes]
  · split
    · refine ⟨_, rfl, _, _, _, rfl, ?_⟩
      split <;> simp [sentCodes]
    · exact ⟨_, rfl, c.nmNack, _, [], rfl, by simp [sentCodes]⟩

theorem smartportResponse_burst (c : Config) (status : Byte) (data : List Byte) (nd ok : Bool) :
    ∃ bytes, smartportResponse c status data nd ok = [.tx bytes] := by
  unfold smartportResponse
  split <;> exact ⟨_, rfl⟩

theorem fujibusResponse_burst (c : Config) (e : Engine) (status : Byte) (data : List Byte) (nd ok : Bool) :
    ∃ bytes, fujibusResponse c e status data nd ok = [.tx bytes] := by
  unfold fujibusResponse
  split
  · exact ⟨_, rfl⟩
  · split
    · exact ⟨_, rfl⟩
    · split <;> exact ⟨_, rfl⟩

/-- A response is one burst on every bus (R43), of the bus's form. -/
theorem response_burst (c : Config) (e : Engine) (status : Byte) (data : List Byte) (nd ok : Bool) :
    ∃ bytes, (response c e status data nd ok).1 = [.tx bytes]
      ∧ (c.bus = .sio → SioResponse c status data nd ok bytes)
      ∧ (c.bus = .iec ∨ c.bus = .adamnet → SentHead c bytes) := by
  unfold response
  split
  · rename_i hb
    obtain ⟨bytes, hr, hs⟩ := sioResponse_burst c status data nd ok
    exact ⟨bytes, hr, fun _ => hs, by simp [hb]⟩
  · rename_i hb
    obtain ⟨bytes, hr, hs⟩ := iecResponse_burst c e status data nd ok
    exact ⟨bytes, hr, by simp [hb], fun _ => hs⟩
  · rename_i hb
    obtain ⟨bytes, hr⟩ := smartportResponse_burst c status data nd ok
    exact ⟨bytes, hr, by simp [hb], by simp [hb]⟩
  · rename_i hb
    obtain ⟨bytes, hr, hs⟩ := adamnetResponse_burst c e status data nd ok
    exact ⟨bytes, hr, by simp [hb], fun _ => hs⟩
  · rename_i hb
    obtain ⟨bytes, hr⟩ := fujibusResponse_burst c e status data nd ok
    exact ⟨bytes, hr, by simp [hb], by simp [hb]⟩

theorem sendResponse_trace (status : Byte) (data : List Byte) (s : State) :
    (sendResponse status data s).trace =
      s.trace ++ (response s.cfg s.eng status data (needData s.eng) (lenOk s.cfg s.eng data)).1 := by
  unfold sendResponse
  dsimp only
  rw [← emitAll_trace]
  split <;> split <;> rfl

theorem needData_iff (e : Engine) :
    needData e = true ↔ e.frame.direction = .read ∧ 0 < e.frame.expectedLength.toNat := by
  simp [needData]

/-- On a bus with table lengths the data of a `Read` fit where they have the table's length (R149). -/
theorem lenOk_table {c : Config} {e : Engine} {data : List Byte} (hm : lenMode c = .table) (hn : needData e = true) :
    lenOk c e data = true ↔ data.length = e.frame.expectedLength.toNat := by
  simp [lenOk, hm, hn]

/-! ### What any instruction adds to the trace -/

/-- `DRV_EN` over a longer trace: the positions of the old bursts and of the new ones (R43). -/
theorem drvEn_append (l os : List Output) (n : Nat) :
    drvEn (l ++ os) n = true ↔ drvEn l n = true ∨ ∃ k bytes, n = l.length + k ∧ os[k]? = some (.tx bytes) := by
  rw [drvEn_iff, drvEn_iff]
  rcases Nat.lt_or_ge n l.length with hn | hn
  · rw [List.getElem?_append_left hn]
    refine ⟨.inl, fun h => h.elim id ?_⟩
    rintro ⟨k, bytes, hk, -⟩
    omega
  · obtain ⟨k, rfl⟩ := Nat.exists_eq_add_of_le hn
    rw [List.getElem?_append_right hn, List.getElem?_eq_none hn]
    simp

/-- What may stand among the outputs `os` of an instruction in a state. -/
structure SentInAnswer (i : Instr) (s : State) (os : List Output) : Prop where
  /-- a burst answers the host's bytes or the dispatcher -/
  burst : ∀ bytes, .tx bytes ∈ os →
    fromHost i = true ∨ (s.eng.phase = .dispatch ∧ ∃ status data, i = .evDispatchDone status data)
  /-- the phases in which a byte is answered by a burst -/
  byte : ∀ x b bytes, i = .evRx x b → .tx bytes ∈ os →
    s.eng.phase ≠ .dispatch ∧ s.eng.phase ≠ .waitHostAck ∧ (s.eng.phase = .idle → detect s.cfg = .controlByte)
  /-- `ACKL` moves in answer to the host, and a reset releases it -/
  ackl : ∀ v, .line .ackl v ∈ os → fromHost i = true ∨ ((∃ x, i = .evReset x) ∧ v = false)
  /-- the bursts of SIO (R171) -/
  sio : s.cfg.bus = .sio → ∀ bytes, .tx bytes ∈ os → bytes = [s.cfg.sioAck] ∨ bytes = [s.cfg.sioNak]
    ∨ ∃ status data, i = .evDispatchDone status data
      ∧ (bytes = [s.cfg.sioComplete] ∨ bytes = [s.cfg.sioError]
        ∨ s.eng.frame.direction = .read ∧ 0 < s.eng.frame.expectedLength.toNat
          ∧ data.length = s.eng.frame.expectedLength.toNat
          ∧ bytes = [if status = 0x00 then s.cfg.sioComplete else s.cfg.sioError] ++ data ++ [checksum s.cfg data])
  /-- the bursts of a control-byte bus (R66) -/
  ctl : s.cfg.bus = .iec ∨ s.cfg.bus = .adamnet → ∀ bytes, .tx bytes ∈ os → SentHead s.cfg bytes

/-- Outputs without a burst and without a change of `ACKL`. -/
theorem SentInAnswer.of_silent {i : Instr} {s : State} {os : List Output} (ht : ∀ bytes, .tx bytes ∉ os)
    (hl : ∀ v, .line .ackl v ∉ os) : SentInAnswer i s os :=
  ⟨fun bytes h => absurd h (ht bytes), fun _ _ bytes _ h => absurd h (ht bytes), fun v h => absurd h (hl v),
    fun _ bytes h => absurd h (ht bytes), fun _ bytes h => absurd h (ht bytes)⟩

theorem SentInAnswer.nothing (i : Instr) (s : State) : SentInAnswer i s [] :=
  .of_silent (fun _ => List.not_mem_nil) fun _ => List.not_mem_nil

/-- Replies to a row that stands for bytes of the host. -/
theorem SentInAnswer.of_replies {i : Instr} {s : State} {os : List Output} (hi : fromHost i = true)
    (ho : Replies s.cfg os)
    (hbyte : ∀ x b, i = .evRx x b → (s.eng.phase = .dispatch ∨ s.eng.phase = .waitHostAck
      ∨ s.eng.phase = .idle ∧ detect s.cfg ≠ .controlByte) → os = []) :
    SentInAnswer i s os where
  burst _ _ := .inl hi
  byte x b bytes hx hb := by
    have sends : os ≠ [] := List.ne_nil_of_mem hb
    have answered := mt (hbyte x b hx) sends
    simp only [not_or, not_and, not_not] at answered
    exact answered
  ackl _ _ := .inl hi
  sio hb bytes h := ((ho bytes h).sio hb).imp_right .inl
  ctl hb bytes h := (ho bytes h).ctl hb

/-- A reset releases the output line (R290). -/
theorem SentInAnswer.of_reset (x : BitVec 9) (s : State) : SentInAnswer (.evReset x) s (resetOutputs s.cfg) := by
  cases hl : outLine s.cfg with
  | none => simpa only [resetOutputs, hl] using .nothing _ s
  | some l =>
    have released : resetOutputs s.cfg = [.line l false] := by simp only [resetOutputs, hl]
    have silent : ∀ bytes, .tx bytes ∉ resetOutputs s.cfg := by simp [released]
    refine ⟨fun bytes h => absurd h (silent bytes), nofun, fun v h => .inr ⟨⟨x, rfl⟩, ?_⟩,
      fun _ bytes h => absurd h (silent bytes), fun _ bytes h => absurd h (silent bytes)⟩
    rw [released] at h
    cases List.mem_singleton.mp h
    rfl

/-- The response to the dispatcher's answer (R149). -/
theorem SentInAnswer.of_response {s : State} (hp : s.eng.phase = .dispatch) (status : Byte) (data : List Byte) :
    SentInAnswer (.evDispatchDone status data) s
      (response s.cfg s.eng status data (needData s.eng) (lenOk s.cfg s.eng data)).1 := by
  obtain ⟨sent, hr, hsio, hctl⟩ := response_burst s.cfg s.eng status data (needData s.eng) (lenOk s.cfg s.eng data)
  have one : ∀ {bytes}, .tx bytes ∈ [Output.tx sent] → bytes = sent := fun h => Output.tx.inj (List.mem_singleton.mp h)
  rw [hr]
  refine ⟨fun _ _ => .inr ⟨hp, status, data, rfl⟩, nofun, by simp, fun hb bytes h => ?sio,
    fun hb bytes h => one h ▸ hctl hb⟩
  case sio =>
    cases one h
    refine .inr (.inr ⟨status, data, rfl, ?_⟩)
    rcases hsio hb with hc | he | ⟨hn, hk, hd⟩
    · exact .inl hc
    · exact .inr (.inl he)
    · have table : lenMode s.cfg = .table := by simp [lenMode, hb]
      obtain ⟨hread, hpos⟩ := (needData_iff s.eng).mp hn
      exact .inr (.inr ⟨hread, hpos, (lenOk_table table hn).mp hk, hd⟩)

theorem lineEvent_trace (v : Bool) (s : State) : (lineEvent v s).trace = s.trace := by
  unfold lineEvent
  dsimp only
  split
  · split
    · rfl
    · split <;> rfl
  · rfl

theorem timeoutEvent_trace (s : State) : (timeoutEvent s).trace = s.trace := by
  unfold timeoutEvent
  split <;> rfl

/-- What an event adds to the trace (R75, R156). -/
theorem event_sentInAnswer {i : Instr} (hi : EventRow i) {s t : State} (hs : Inv s) (h : exec i s = .next t) :
    ∃ os, t.trace = s.trace ++ os ∧ SentInAnswer i s os := by
  have quiet {t : State} (ht : t.trace = s.trace) : ∃ os, t.trace = s.trace ++ os ∧ SentInAnswer i s os :=
    ⟨[], by simp [ht], .nothing i s⟩
  cases hi with
  | none x | reserved x =>
    cases h
    exact quiet rfl
  | reset x =>
    cases h
    exact ⟨_, rfl, .of_reset x s⟩
  | line v x l =>
    cases h
    split
    · exact quiet (lineEvent_trace v s)
    · exact quiet rfl
  | rx x b =>
    obtain ⟨os, ho, hr⟩ := rxByte_answers hs h
    refine ⟨os, ho, .of_replies rfl hr fun _ _ _ hp => ?_⟩
    exact List.append_right_eq_self.mp (ho.symm.trans (rxByte_trace h hp))
  | timeout x =>
    cases h
    exact quiet (timeoutEvent_trace s)
  | done status data =>
    cases h
    split
    · rename_i hp
      exact ⟨_, sendResponse_trace status data s, .of_response hp status data⟩
    · exact quiet rfl
  | nodevice x =>
    cases h
    split <;> exact quiet rfl
  | poll x =>
    cases h
    split
    · exact ⟨[.idleTick], rfl, .of_silent (by simp) (by simp)⟩
    · exact quiet rfl

theorem takeOff_trace {buses : List Bus} {bytes : List Byte} {s t : State} (h : takeOff buses bytes s = .next t) :
    t.trace = s.trace := by
  obtain ⟨n, hn⟩ := takeOff_cases buses bytes s
  cases hn.symm.trans h
  rfl

theorem exec_unit_trace {i : Instr} {s t : State} {u : UnitPort} {w : PortWord} (hw : encode s.cfg i = .op u w)
    (h : exec i s = .next t) : t.trace = s.trace := by
  obtain ⟨r, hr, hf⟩ := exec_decodeOp s u w
  rw [decodeOp_of_encode hw] at hr
  cases hr.symm.trans h
  exact hf.trace

/-- A row that is no event and stands for no bytes of the host sends nothing: it is a word of a unit port, or the reading of
a form off the transmit stream (R301; log entry 9). -/
theorem exec_trace_of_not_fromHost {i : Instr} {s t : State} (hh : fromHost i = false) (he : ¬ EventRow i)
    (h : exec i s = .next t) : t.trace = s.trace := by
  cases i
  case nop | csClr | csAbs | csRd | csChk | encBegin | encByte | encEnd | decByte | decRst | reservedOp5 | reservedOp6
    | reservedOp7 | reservedOpB | reservedOpE | reservedOpF => exact exec_unit_trace rfl h
  case evNone | evReset | evLine | evRx | evTimeout | evDispatchDone | evDispatchNodevice | evPoll | reservedEv7 =>
    exact absurd (by constructor) he
  case sioCmdR | sioCmdW | sioCmdS | mnReset | mnStatus | mnAck | mnClr | mnReceive | mnCancel | mnSend | mnNack
    | mnReady | ctlUnassignedE | ctlUnassignedF | fbEnd | fbEsc | fbEscEnd | fbEscEsc | fHdr5 | fEnv => cases hh
  case sioAck | sioNak | sioComplete | sioError | nmStatus | nmAck | nmSend | nmNack | fIecd | fIecs | fSpr
    | fEnvResp => exact takeOff_trace h
  case nmCancel =>
    cases h
    rfl
  case fData way data =>
    cases way with
    | received k => cases hh
    | sent =>
      change execFData .sent data s = .next t at h
      unfold execFData at h
      split at h
      · cases h
        rfl
      · exact takeOff_trace h
  case fCtl way op dev =>
    cases way with
    | toDevice => cases hh
    | toHost =>
      change execFCtl .toHost op dev s = .next t at h
      unfold execFCtl at h
      dsimp only at h
      split at h
      · exact takeOff_trace h
      · cases h
        rfl
  case fLpkt head dev data =>
    cases head with
    | hostSend k => cases hh
    | devStatus => exact takeOff_trace h
    | devSend => exact takeOff_trace h
  case fStuff way body =>
    cases way with
    | toDevice => cases hh
    | toHost => exact takeOff_trace h

/-- A row that stands for bytes of the host appends replies (R42, R301; log entry 8). -/
theorem exec_answers {i : Instr} {s t : State} (hs : Inv s) (he : ¬ EventRow i) (h : exec i s = .next t) : Answers s t := by
  cases rowKind i s with
  | unit u w hi =>
    subst hi
    obtain ⟨r, hr, hf⟩ := exec_decodeOp s u w
    cases hr.symm.trans h
    exact .silent hf.trace
  | event hi => exact absurd hi he
  | received bytes hi => exact rxBytes_answers hs (hi.symm.trans h)
  | sent n hi =>
    cases hi.symm.trans h
    exact .silent rfl

/-- What any instruction adds to the trace, from a state that meets the invariant. -/
theorem exec_sentInAnswer {i : Instr} {s t : State} (hs : Inv s) (h : exec i s = .next t) :
    ∃ os, t.trace = s.trace ++ os ∧ SentInAnswer i s os := by
  by_cases he : EventRow i
  · exact event_sentInAnswer he hs h
  · cases hh : fromHost i with
    | true =>
      obtain ⟨os, ho, hr⟩ := exec_answers hs he h
      exact ⟨os, ho, .of_replies hh hr fun x b hx => absurd (hx ▸ .rx x b) he⟩
    | false => exact ⟨[], by simp [exec_trace_of_not_fromHost hh he h], .nothing i s⟩

/-- Settles O6: the outputs of the instruction, and `DRV_EN` read off the longer trace. -/
theorem engineSendsOnlyInAnswer : Obligations.EngineSendsOnlyInAnswer := by
  unfold Obligations.EngineSendsOnlyInAnswer
  intro i s t hs h
  obtain ⟨os, ho, ha⟩ := exec_sentInAnswer hs h
  refine ⟨os, ho, fun n => ?_, drvEn_end _, ha.burst, ha.byte, ha.ackl, ha.sio, ha.ctl⟩
  rw [ho]
  exact drvEn_append s.trace os n

end Sys2Proof.Laws
end

section
/-! The rows of the wire and one step: a form that is read off the transmit stream (R40), a form that arrives byte by byte
(R42), and the input a step takes (R49, R52). -/

namespace Sys2Proof.Laws

open Sys2Proof.Machine

/-! ### Forms read off the transmit stream -/

/-- A data block that is sent has its checksum behind the data (R62). -/
theorem exec_fData_sent {data : List Byte} (h : data ≠ []) (s : State) :
    exec (.fData .sent data) s = takeOff [.sio] (data ++ [checksum s.cfg data]) s := by
  have block : dataBlock s.cfg data = data ++ [checksum s.cfg data] := if_neg h
  rw [← block]
  exact if_neg h

/-- Settles O48: each row is `takeOff` of its bytes, or it is a row that nothing sends. -/
theorem sentFormsAreReadOffTheStream : Obligations.SentFormsAreReadOffTheStream := by
  unfold Obligations.SentFormsAreReadOffTheStream
  intro s dev op st seq cmd id f data body stream reads
  have rest : stream = unread s := by
    have bytesOf : (fun o => match o with | .tx l => l | _ => []) = txOf := by
      funext o
      cases o <;> rfl
    exact congrArg (fun g => (s.trace.flatMap g).drop s.taken) bytesOf
  have reading {i : Instr} {buses : List Bus} {bytes : List Byte} (h : exec i s = takeOff buses bytes s) :
      reads i buses bytes := by
    refine ⟨fun hb hn => ?_, fun hn => ?_⟩
    · exact h.trans (takeOff_next hb (rest ▸ hn))
    · exact h.trans (takeOff_other (rest ▸ hn))
  exact ⟨reading rfl, reading rfl, reading rfl, reading rfl, reading rfl, reading rfl, reading rfl, reading rfl, rfl,
    fun hop => reading (if_pos hop), fun hop => if_neg hop, fun hd => reading (exec_fData_sent hd s), rfl,
    reading rfl, reading rfl, reading rfl, reading rfl, reading rfl, reading rfl, reading rfl⟩

/-! ### Forms that arrive byte by byte -/

/-- One `EvRx` for each byte of a list, after what answered `r`, is the arrival of the list (R42). -/
theorem foldl_evRx (x : Bool) (l : List Byte) (r : Res) :
    l.foldl (fun r b => andThen r (exec (.evRx x b))) r = andThen r (rxBytes l) := by
  induction l generalizing r with
  | nil => cases r <;> rfl
  | cons b l ih =>
    rw [List.foldl_cons, ih]
    cases r <;> rfl

theorem exec_fData_received (k : Byte) {data : List Byte} (h : data ≠ []) (s : State) :
    exec (.fData (.received k) data) s = rxBytes (data ++ [k]) s := if_neg h

/-- Settles O49: each row is `rxByte` of its byte or `rxBytes` of its layout. -/
theorem receivedFormsAreTheirBytes : Obligations.ReceivedFormsAreTheirBytes := by
  unfold Obligations.ReceivedFormsAreTheirBytes
  intro s x dev op d cmd a1 a2 k data body fields rx run
  have arrives (l : List Byte) : rxBytes l s = run l := (foldl_evRx x l (.next s)).symm
  exact ⟨rfl, rfl, rfl, rfl, rfl, rfl, rfl, rfl, rfl, rfl, rfl, rfl, rfl, rfl, rfl, rfl, rfl, rfl, rfl, arrives _,
    fun hd => (exec_fData_received k hd s).trans (arrives _), arrives _, arrives _, arrives _⟩

/-! ### One step -/

/-- Settles O58: a step takes the input, and an input that decodes is run. -/
theorem stepRunsTheDecodedInstruction : Obligations.StepRunsTheDecodedInstruction := by
  unfold Obligations.StepRunsTheDecodedInstruction
  intro s x rest i
  refine ⟨fun hs hd _ => ?_, step_waits⟩
  rw [step_takes hs]
  exact takeInput_decoded hd

/-- Settles O59: a step takes the input, and `takeInput` changes the tables or refuses. -/
theorem tablesChangeAndBadInputIsRefused : Obligations.TablesChangeAndBadInputIsRefused := by
  unfold Obligations.TablesChangeAndBadInputIsRefused
  intro s rest slots table f bytes why
  refine ⟨fun hs => ?tables, fun hs hd => ?rejected⟩
  case tables =>
    rw [step_takes hs]
    rfl
  case rejected =>
    rw [step_takes hs]
    exact takeInput_rejected hd

end Sys2Proof.Laws
end

section
/-! The decoder and the encoder (R61 to R75): what each form's decoder makes of the bytes its encoder writes, and the words
of the ports, where every word is the encoding of what it decodes to. -/

namespace Sys2Proof.Laws

open Sys2Proof.Machine

/-! ### Words of the engine port (R75) -/

@[simp] theorem evWord_ev (ev : BitVec 3) (rest : BitVec 9) : (evWord ev rest).extractLsb' 9 3 = ev :=
  BitVec.extractLsb'_append_eq_left

@[simp] theorem evWord_rest (ev : BitVec 3) (rest : BitVec 9) : (evWord ev rest).extractLsb' 0 9 = rest :=
  BitVec.extractLsb'_append_eq_right

section

variable (ev : BitVec 3) (v : Bool) (d : Byte)

@[simp] theorem evWordVd_ev : (evWordVd ev v d).extractLsb' 9 3 = ev := evWord_ev ev _

@[simp] theorem evWordVd_rest : (evWordVd ev v d).extractLsb' 0 9 = BitVec.ofBool v ++ d := evWord_rest ev _

@[simp] theorem evWordVd_v : (evWordVd ev v d)[8] = v := by
  have := d.isLt
  have bit : (ev.toNat * 2 ^ 9 + (v.toNat * 2 ^ 8 + d.toNat)) / 2 ^ 8 % 2 = v.toNat := by
    have := v.toNat_lt
    omega
  rw [BitVec.getElem_eq_testBit_toNat, Nat.testBit_eq_decide_div_mod_eq, evWordVd, evWord, append_toNat, append_toNat,
    BitVec.toNat_ofBool, bit]
  cases v <;> rfl

@[simp] theorem evWordVd_data : (evWordVd ev v d).extractLsb' 0 8 = d := by
  have := d.isLt
  apply BitVec.eq_of_toNat_eq
  simp only [evWordVd, evWord, BitVec.extractLsb'_toNat, append_toNat]
  omega

/-- The bits of an `EV_LINE` word that the row ignores. -/
@[simp] theorem evWordVd_hi : (evWordVd ev v d).extractLsb' 4 4 = hiNibble d := by
  have := d.isLt
  apply BitVec.eq_of_toNat_eq
  simp only [hiNibble, evWordVd, evWord, BitVec.extractLsb'_toNat, append_toNat, Nat.shiftRight_eq_div_pow]
  omega

/-- The line index of an `EV_LINE` word. -/
@[simp] theorem evWordVd_lo : (evWordVd ev v d).extractLsb' 0 4 = loNibble d := by
  have := d.isLt
  apply BitVec.eq_of_toNat_eq
  simp only [loNibble, evWordVd, evWord, BitVec.extractLsb'_toNat, append_toNat]
  omega

end

@[simp] theorem hiNibble_append (x l : Nibble) : hiNibble (x ++ l) = x := hiNibble_ctlByte x l

@[simp] theorem loNibble_append (x l : Nibble) : loNibble (x ++ l) = l := loNibble_ctlByte x l

/-- A row that the encoder puts on the engine port is the row its word and list decode to (R75). -/
theorem decodeEv_of_encode {c : Config} {i : Instr} {w : PortWord} {beside : List Byte}
    (h : encode c i = .ev w beside) : decodeEv w beside = i := by
  cases i
  case fData way _ | fCtl way _ _ | fLpkt way _ _ | fStuff way _ => cases way <;> cases h
  all_goals cases h <;> simp [decodeEv]

/-! ### Every word is an encoding (R74, R75) -/

/-- An F-OP word is its `op` and its `data` (R74). -/
theorem opWord_parts (w : PortWord) : opWord (w.extractLsb' 8 4) (w.extractLsb' 0 8) = w := by
  have := w.isLt
  apply BitVec.eq_of_toNat_eq
  simp only [opWord, append_toNat, BitVec.extractLsb'_toNat, Nat.shiftRight_eq_div_pow]
  omega

/-- An F-EV word is its `ev`, `v` and `data` (R75). -/
theorem exists_evWordVd (w : PortWord) : ∃ ev v d, w = evWordVd ev v d := by
  have := w.isLt
  refine ⟨w.extractLsb' 9 3, decide (256 ≤ w.toNat % 512), w.extractLsb' 0 8, BitVec.eq_of_toNat_eq ?_⟩
  simp only [evWordVd, evWord, append_toNat, BitVec.extractLsb'_toNat, Nat.shiftRight_eq_div_pow, BitVec.toNat_ofBool]
  by_cases h : 256 ≤ w.toNat % 512
  · rw [decide_eq_true h, Bool.toNat_true]
    omega
  · rw [decide_eq_false h, Bool.toNat_false]
    omega

/-- Every `op` has its row, and the row keeps the word's data (R74). -/
theorem encode_decodeOp (c : Config) (u : UnitPort) (w : PortWord) : encode c (decodeOp u w) = .op u w := by
  rw [← opWord_parts w]
  generalize w.extractLsb' 8 4 = op
  generalize w.extractLsb' 0 8 = d
  simp only [decodeOp, opWord_op, opWord_data]
  obtain ⟨n, hn⟩ := op
  interval_cases n <;> rfl

/-- Every `ev` has its row, and the row keeps the word's other bits; the list beside it is kept by `Done` alone (R75). -/
theorem encode_decodeEv_evWordVd (c : Config) (ev : BitVec 3) (v : Bool) (d : Byte) (beside : List Byte) :
    encode c (decodeEv (evWordVd ev v d) beside) =
      .ev (evWordVd ev v d) (if ev = 5 ∧ v = false then beside else []) := by
  have parts : hiNibble d ++ loNibble d = d := ctlByte_nibbles d
  simp only [decodeEv, evWordVd_ev, evWordVd_rest, evWordVd_data, evWordVd_hi, evWordVd_lo, BitVec.getLsbD_eq_getElem,
    Nat.reduceLT, evWordVd_v]
  obtain ⟨n, hn⟩ := ev
  interval_cases n
  · rfl
  · rfl
  · exact congrArg (fun b => Stimulus.ev (evWordVd 2 v b) []) parts
  · rfl
  · rfl
  · cases v <;> rfl
  · rfl
  · rfl

/-- Settles O57: the rows keep every bit of a word. -/
theorem portWordsEncodeBack : Obligations.PortWordsEncodeBack := by
  unfold Obligations.PortWordsEncodeBack
  intro c u w beside
  refine ⟨encode_decodeOp c u w, ?_⟩
  obtain ⟨ev, v, d, rfl⟩ := exists_evWordVd w
  simp [encode_decodeEv_evWordVd]

/-! ### Symbols (R63 to R66, R70) -/

/-- What R294 asks of the symbol values (R63, R66, R70). -/
theorem configValid_nodup {c : Config} (h : configValid c = true) :
    (framingBytes c).Nodup ∧ (sioSymbols c).Nodup ∧ (hostCodes c).Nodup ∧ (deviceCodes c).Nodup := by
  simp only [configValid, Bool.and_eq_true, decide_eq_true_eq] at h
  obtain ⟨⟨⟨⟨⟨hframing, -⟩, hsio⟩, hhost⟩, hdevice⟩, -⟩ := h
  exact ⟨hframing, hsio, hhost, hdevice⟩

/-- A value of a table whose values are distinct stands for its own row, whatever rows follow. -/
theorem pickSymbol_of_mem {α : Type} [DecidableEq α] {table rest : List (α × Instr)} {b : α} {i : Instr}
    (hn : (table.map Prod.fst).Nodup) (hm : (b, i) ∈ table) : pickSymbol (table ++ rest) b = .ok i := by
  simp [pickSymbol, lookup_of_nodup table hn b i hm rest]

theorem pickSymbol_of_notMem {α : Type} [DecidableEq α] {table rest : List (α × Instr)} {b : α}
    (hm : b ∉ table.map Prod.fst) : pickSymbol (table ++ rest) b = pickSymbol rest b := by
  simp [pickSymbol, lookup_skip table b hm rest]

/-- The rows of the host-to-device codes, before the two unassigned ones (R66). -/
def hostCodeTable (c : Config) (dev : Nibble) : List (Nibble × Instr) := (ctlHostTable c dev).take 9

theorem ctlHostTable_eq (c : Config) (dev : Nibble) :
    ctlHostTable c dev = hostCodeTable c dev ++ [(0xE, .ctlUnassignedE dev), (0xF, .ctlUnassignedF dev)] := rfl

section

variable {c : Config} (hv : configValid c = true)
include hv

theorem decode_sym {b : Byte} {i : Instr} (hm : (b, i) ∈ symTable c) : decode c (.wire .sym [b]) = .ok i := by
  obtain ⟨-, hsio, -, -⟩ := configValid_nodup hv
  simpa [decode, decodeWire, oneByte] using pickSymbol_of_mem (table := symTable c) (rest := []) hsio hm

theorem decode_stuffByte {b : Byte} {i : Instr} (hm : (b, i) ∈ stuffByteTable c) :
    decode c (.wire .stuffByte [b]) = .ok i := by
  obtain ⟨hframing, -, -, -⟩ := configValid_nodup hv
  simpa [decode, decodeWire, oneByte] using pickSymbol_of_mem (table := stuffByteTable c) (rest := []) hframing hm

theorem decode_ctlDev {code dev : Nibble} {i : Instr} (hm : (code, i) ∈ ctlDevTable c dev) :
    decode c (.wire .ctlDev [ctlByte code dev]) = .ok i := by
  obtain ⟨-, -, -, hdevice⟩ := configValid_nodup hv
  simpa [decode, decodeWire, oneByte] using pickSymbol_of_mem (table := ctlDevTable c dev) (rest := []) hdevice hm

theorem decode_ctlHost {code dev : Nibble} {i : Instr} (hm : (code, i) ∈ hostCodeTable c dev) :
    decode c (.wire .ctlHost [ctlByte code dev]) = .ok i := by
  obtain ⟨-, -, hhost, -⟩ := configValid_nodup hv
  simpa [decode, decodeWire, oneByte, ctlHostTable_eq] using
    pickSymbol_of_mem (table := hostCodeTable c dev) hhost hm

end

/-- A code that no operation takes is the unassigned one (R66). -/
theorem decode_ctlUnassigned {c : Config} {code dev : Nibble} (hn : code ∉ hostCodes c) :
    decode c (.wire .ctlHost [ctlByte code dev]) =
      pickSymbol [(0xE, .ctlUnassignedE dev), (0xF, .ctlUnassignedF dev)] code := by
  simpa [decode, decodeWire, oneByte, ctlHostTable_eq] using pickSymbol_of_notMem (table := hostCodeTable c dev) hn

/-! ### Formats (R61, R62, R65, R67 to R69) -/

theorem decode_fData_sent (c : Config) {data : List Byte} (hd : data ≠ []) :
    decode c (.wire .dataOut (dataBlock c data)) = .ok (.fData .sent data) := by
  have long : ¬ (data ++ [checksum c data]).length < 2 := by
    have := List.length_pos_iff.mpr hd
    simp only [List.length_append, List.length_singleton]
    omega
  simp only [decode, decodeWire, decodeDataOut, dataBlock, if_neg hd, if_neg long]
  exact checked_snoc c data (fun l => l) _

/-- A length of 16 bits is read back from its two bytes (R67, R73). -/
theorem split16_length (o : ByteOrder) {data : List Byte} (h : data.length < 65536) :
    ∃ hi lo, split16 o (BitVec.ofNat 16 data.length) = [hi, lo] ∧ (join16 o hi lo).toNat = data.length := by
  obtain ⟨hi, lo, hs, hj⟩ := join16_split16 o (BitVec.ofNat 16 data.length)
  exact ⟨hi, lo, hs, by rw [hj, BitVec.toNat_ofNat]; omega⟩

theorem decode_fLpkt_received (c : Config) (k : Byte) (dev : Nibble) {data : List Byte} (h : data.length < 65536) :
    decode c (.wire .lpktIn (lpktBytes c c.mnSend dev data k)) = .ok (.fLpkt (.hostSend k) dev data) := by
  obtain ⟨hi, lo, hs, hlen⟩ := split16_length c.lenPrefixOrder h
  simp [decode, decodeWire, lpktBytes, hs, decodeLpktIn, splitLast_snoc, hlen]

/-- A packet that is sent is told by the code at its head (R67). -/
theorem decodeLpktOut_lpktSent (c : Config) (code dev : Nibble) {data : List Byte} (h : data.length < 65536) :
    decodeLpktOut c (lpktSent c code dev data) =
      if code = c.nmStatus then .ok (.fLpkt .devStatus dev data)
      else if code = c.nmSend then .ok (.fLpkt .devSend dev data) else .error .badHead := by
  obtain ⟨hi, lo, hs, hlen⟩ := split16_length c.lenPrefixOrder h
  simp [lpktSent, lpktBytes, hs, decodeLpktOut, hlen, checked_snoc c data (fun l => l)]

theorem decode_fIecd (c : Config) (dev : Nibble) (data : List Byte) :
    decode c (.wire .iecd (iecdBytes c dev data)) = .ok (.fIecd dev data) := by
  simp [decode, decodeWire, iecdBytes, checked_snoc c data (fun l => l)]

theorem decode_fSpr (c : Config) (status : Byte) (data : List Byte) :
    decode c (.wire .spr (sprBytes c status data)) = .ok (.fSpr status data) :=
  checked_snoc c data (fun l => status :: l) _

/-! ### Stuffed frames (R70, R119) -/

@[simp] theorem outData?_nothing : outData? .nothing = none := rfl

@[simp] theorem outData?_data (d : Byte) : outData? (.data d) = some d := rfl

/-- What the escapes rest on: the delimiter is none of the other three, and the two substitutes differ (R70, R294). -/
theorem framing_distinct {c : Config} (h : (framingBytes c).Nodup) :
    c.fbEsc ≠ c.fbEnd ∧ c.fbEscEnd ≠ c.fbEnd ∧ c.fbEscEsc ≠ c.fbEnd ∧ c.fbEscEsc ≠ c.fbEscEnd := by
  simp only [framingBytes, List.nodup_cons, List.mem_cons, not_or] at h
  obtain ⟨⟨hesc, hescEnd, hescEsc, -⟩, -, ⟨hsub, -⟩, -⟩ := h
  exact ⟨Ne.symm hesc, Ne.symm hescEnd, Ne.symm hescEsc, Ne.symm hsub⟩

/-- The decoder inside a frame delivers the byte that was encoded (R112, R116, R117). -/
theorem decRun_encByte {c : Config} (hn : (framingBytes c).Nodup) {u : FrUnit} (hu : u.st = .data) (b : Byte) :
    (decRun c u (encByte c b)).1 = { u with ne := true }
      ∧ (decRun c u (encByte c b)).2.filterMap outData? = [b] := by
  obtain ⟨hesc, -, -, hsub⟩ := framing_distinct hn
  by_cases h1 : b = c.fbEnd
  · simp [h1, encByte_end, decRun_cons, decStep, hu, decData, decEsc, hesc, List.filterMap_cons]
  by_cases h2 : b = c.fbEsc
  · simp [h2, encByte_esc hesc, decRun_cons, decStep, hu, decData, decEsc, hesc, hsub, List.filterMap_cons]
  · simp [encByte_other h1 h2, decRun_cons, decStep, hu, decData, h1, h2]

/-- A stuffed list leaves the decoder inside the frame and delivers the list (R119). -/
theorem decRun_encodeEscape {c : Config} (hn : (framingBytes c).Nodup) {u : FrUnit} (hu : u.st = .data)
    (l : List Byte) :
    (decRun c u (encodeEscape c l)).1.st = .data ∧ (decRun c u (encodeEscape c l)).1.err = u.err
      ∧ (decRun c u (encodeEscape c l)).2.filterMap outData? = l := by
  induction l generalizing u with
  | nil => exact ⟨hu, rfl, rfl⟩
  | cons b l ih =>
    obtain ⟨hnext, hout⟩ := decRun_encByte hn hu b
    obtain ⟨hst, herr, hrest⟩ := ih (u := { u with ne := true }) hu
    rw [encodeEscape_cons, decRun_append, hnext]
    exact ⟨hst, herr, by rw [List.filterMap_append, hout, hrest]; rfl⟩

/-- Stuffing leaves no delimiter inside a frame (R112). -/
theorem fbEnd_notMem_encodeEscape {c : Config} (hn : (framingBytes c).Nodup) (l : List Byte) :
    c.fbEnd ∉ encodeEscape c l := by
  obtain ⟨hesc, hescEnd, hescEsc, -⟩ := framing_distinct hn
  simp only [encodeEscape, List.mem_flatMap, not_exists, not_and]
  intro b _
  unfold encByte
  split
  · simp [Ne.symm hesc, Ne.symm hescEnd]
  · rename_i hb
    split <;> simp [Ne.symm hesc, Ne.symm hescEsc, Ne.symm hb]

theorem decodeEscape_encodeEscape {c : Config} (hn : (framingBytes c).Nodup) (l : List Byte) :
    decodeEscape c (encodeEscape c l) = .ok l := by
  obtain ⟨hst, herr, hout⟩ := decRun_encodeEscape hn (u := decInside) rfl l
  simp [decodeEscape, fbEnd_notMem_encodeEscape hn l, hst, hout, herr, show decInside.err = false from rfl]

theorem decodeStuff_frameBytes {c : Config} (hv : configValid c = true) (way : Way) (body : List Byte) :
    decodeStuff c way (frameBytes c body) = .ok (.fStuff way body) := by
  obtain ⟨hframing, -, -, -⟩ := configValid_nodup hv
  simp [frameBytes, encBegin, encEnd, decodeStuff, splitLast_snoc, decodeEscape_encodeEscape hframing body]

/-! ### Envelopes (R71, R72) -/

theorem decode_fEnv (c : Config) (seq cmd dev : Byte) {fields : List Field} (payload : List Byte) (k : Byte)
    (h : fields.length < 256) :
    decode c (.wire .env (envBytes c seq cmd dev fields payload k)) = .ok (.fEnv seq cmd dev fields payload k) := by
  have count : (BitVec.ofNat 8 fields.length).toNat = fields.length := by
    rw [BitVec.toNat_ofNat]
    omega
  have payloadAndCheck := drop_flatMap_split32 c.fbFieldOrder fields (payload ++ [k])
  have allFields := takeFields_flatMap c.fbFieldOrder fields (payload ++ [k])
  simp only [decode, decodeWire, envBytes, fieldBytes, List.append_assoc, List.cons_append, List.nil_append, decodeEnv,
    count, payloadAndCheck, allFields, splitLast_snoc]

theorem decode_fEnvResp (c : Config) (seq cmd dev : Byte) (status : Field) (data : List Byte) :
    decode c (.wire .envResp (envRespBytes c seq cmd dev status data)) = .ok (.fEnvResp seq cmd dev status data) := by
  obtain ⟨t0, t1, t2, t3, hs, hj⟩ := join32_split32 c.fbFieldOrder status
  have tail := checked_snoc c data (fun l => [seq, cmd, 0x01, dev, t0, t1, t2, t3] ++ l)
    (fun l => .fEnvResp seq cmd dev status l)
  simpa [decode, decodeWire, envRespBytes, envRespBody, hs, hj, decodeEnvResp] using tail

/-! ### Every row -/

/-- Settles O56: by the row. A word of a port decodes to the row that was put there; a symbol is looked up among distinct
values; each format's decoder takes apart what its encoder put together. -/
theorem decodeInvertsEncode : Obligations.DecodeInvertsEncode := by
  unfold Obligations.DecodeInvertsEncode
  intro c i hv hw
  cases i
  case nop | csClr | csAbs | csRd | csChk | encBegin | encByte | encEnd | decByte | decRst | reservedOp5 | reservedOp6
    | reservedOp7 | reservedOpB | reservedOpE | reservedOpF =>
    exact congrArg Except.ok (decodeOp_of_encode (c := c) rfl)
  case evNone | evReset | evLine | evRx | evTimeout | evDispatchDone | evDispatchNodevice | evPoll | reservedEv7 =>
    exact congrArg Except.ok (decodeEv_of_encode (c := c) rfl)
  case sioAck | sioNak | sioComplete | sioError => exact decode_sym hv (by simp [symTable])
  case sioCmdR | sioCmdW | sioCmdS => rfl
  case mnReset | mnStatus | mnAck | mnClr | mnReceive | mnCancel | mnSend | mnNack | mnReady =>
    exact decode_ctlHost hv (by simp [hostCodeTable, ctlHostTable])
  case nmStatus | nmAck | nmCancel | nmSend | nmNack => exact decode_ctlDev hv (by simp [ctlDevTable])
  case ctlUnassignedE | ctlUnassignedF => exact decode_ctlUnassigned (by simpa [wellFormed] using hw)
  case fbEnd | fbEsc | fbEscEnd | fbEscEsc => exact decode_stuffByte hv (by simp [stuffByteTable])
  case fHdr5 => rfl
  case fData way data =>
    have hd : data ≠ [] := by simpa [wellFormed] using hw
    cases way with
    | received k => simp [decode, encode, decodeWire, decodeDataIn, splitLast_snoc, hd]
    | sent => exact decode_fData_sent c hd
  case fCtl way op dev =>
    cases way with
    | toDevice => simp [decode, encode, decodeWire, oneByte]
    | toHost =>
      have hop : op ∈ sentCodes c := by simpa [wellFormed] using hw
      simp [decode, encode, decodeWire, oneByte, hop]
  case fLpkt head dev data =>
    have hlen : data.length < 65536 := by simpa [wellFormed] using hw
    obtain ⟨-, -, -, hdevice⟩ := configValid_nodup hv
    have hdistinct : c.nmSend ≠ c.nmStatus := by
      rintro h
      simp [deviceCodes, h] at hdevice
    cases head with
    | hostSend k => exact decode_fLpkt_received c k dev hlen
    | devStatus => simp [decode, encode, decodeWire, decodeLpktOut_lpktSent c _ dev hlen]
    | devSend => simp [decode, encode, decodeWire, decodeLpktOut_lpktSent c _ dev hlen, hdistinct]
  case fIecd dev data => exact decode_fIecd c dev data
  case fIecs dev status => simp [decode, encode, decodeWire, iecsBytes]
  case fSpr status data => exact decode_fSpr c status data
  case fStuff way body => cases way <;> exact decodeStuff_frameBytes hv _ body
  case fEnv seq cmd dev fields payload k => exact decode_fEnv c seq cmd dev payload k (by simpa [wellFormed] using hw)
  case fEnvResp seq cmd dev status data => exact decode_fEnvResp c seq cmd dev status data

/-- Settles O60: the words and the default parameters are fixed, so each word is read by evaluation. -/
theorem wordsDecodeAsTheSpecSays : Obligations.WordsDecodeAsTheSpecSays := by
  unfold Obligations.WordsDecodeAsTheSpecSays
  decide

/-! ### Words without an effect (R74 to R76) -/

/-- Settles O7: a reserved code runs to the state as it is, and a port answers a foreign operation with it. -/
theorem nopsAndReservedCodesChangeNothing : Obligations.NopsAndReservedCodesChangeNothing := by
  unfold Obligations.NopsAndReservedCodesChangeNothing
  intro s u x y
  have atFr (t : State) : atPort .fr .cs s t = .next s := atPort_other (by decide) s t
  have atCs (t : State) : atPort .cs .fr s t = .next s := atPort_other (by decide) s t
  exact ⟨rfl, rfl, rfl, rfl, rfl, rfl, rfl, rfl, rfl, atFr _, atFr _, atFr _, atFr _, atCs _, atCs _, atCs _, atCs _,
    atCs _⟩

end Sys2Proof.Laws
end

section
/-! A whole header (R61, R65, R137 to R142): the five bytes of `F-HDR5` and the one control byte bring the engine to
`header_complete`, and each of its outcomes is an equation. -/

namespace Sys2Proof.Laws

open Sys2Proof.Machine

/-! ### Buffers -/

/-- Bytes written from the start of a buffer. -/
theorem writeAll_zero_read (m : Memory) (l : List Byte) (i : Nat) :
    (writeAll m 0 l).read i = if i < l.length then l[i]? else m.read i := by
  simp [writeAll_read]

/-- A range read returns the bytes that stand there. -/
theorem readRange_eq {size : Nat} {m : Memory} {l : List Byte} (hs : l.length ≤ size)
    (hr : ∀ i < l.length, m.read i = l[i]?) : readRange size m 0 l.length = .ok l := by
  obtain ⟨r, hread, hlen, hget⟩ := readRange_below hs (m := m) (fun i hi => by rw [hr i hi]; simp [hi])
  have : r = l := by
    refine List.ext_getElem? fun i => ?_
    by_cases hi : i < l.length
    · rw [hget i hi, hr i hi]
    · rw [List.getElem?_eq_none (by omega), List.getElem?_eq_none (by omega)]
  rw [hread, this]

theorem writeByte_ok {size i : Nat} (h : i < size) (m : Memory) (b : Byte) : writeByte size m i b = .ok (m.write i b) :=
  if_pos h

/-! ### Dispatch and the answers of `header_complete` (R140, R142, R146) -/

/-- Without a payload there is nothing to read. -/
theorem doDispatch_empty (fields : List Field) {s : State} (h : s.eng.rxCnt = 0) :
    doDispatch fields s = .next (emit (.dispatch s.eng.frame fields []) (setPhase .dispatch s)) :=
  doDispatch_eq_next.mpr ⟨[], by simp [h, readRange], rfl⟩

section

variable {bad : Bool} {s : State}

/-- Steps (1) and (2) pass. -/
theorem firstFailure_none (os : List Output) (hp : slotPresent s.cfg s.eng.frame.deviceId = true) :
    firstFailure false os s = none := by
  rw [firstFailure_eq, if_pos hp]
  rfl

/-- Step (1) fails, and no step before it. -/
theorem firstFailure_absent (os : List Output) (hp : slotPresent s.cfg s.eng.frame.deviceId = false)
    (ho : bad = true → s.cfg.checkOrder = .devFirst) : firstFailure bad os s = some ([], .nodev) := by
  rw [firstFailure_eq, if_neg (by simp [hp]), if_neg]
  rintro ⟨hbad, hfirst⟩
  simp [ho hbad] at hfirst

/-- Step (2) fails, and no step before it. -/
theorem firstFailure_badSum (os : List Output)
    (ho : slotPresent s.cfg s.eng.frame.deviceId = false → s.cfg.checkOrder = .csumFirst) :
    firstFailure true os s = some (os, .csum) := by
  rw [firstFailure_eq]
  cases hp : slotPresent s.cfg s.eng.frame.deviceId with
  | true => rfl
  | false => simp [ho hp]

end

theorem headerComplete_failed {k : Bool} {s : State} {os : List Output} {e : Err}
    (h : firstFailure (k && !s.eng.cs.matched) (nak s.cfg s.eng) s = some (os, e)) :
    headerComplete k s = .next (failWith os e s) := by
  simp [headerComplete, h]

theorem headerComplete_absent {k : Bool} {s : State} (hp : slotPresent s.cfg s.eng.frame.deviceId = false)
    (ho : (k && !s.eng.cs.matched) = true → s.cfg.checkOrder = .devFirst) :
    headerComplete k s = .next (failWith [] .nodev s) :=
  headerComplete_failed (firstFailure_absent _ hp ho)

theorem headerComplete_badSum {s : State} (hm : s.eng.cs.matched = false)
    (ho : slotPresent s.cfg s.eng.frame.deviceId = false → s.cfg.checkOrder = .csumFirst) :
    headerComplete true s = .next (failWith (nak s.cfg s.eng) .csum s) :=
  headerComplete_failed (by rw [hm]; exact firstFailure_badSum _ ho)

theorem headerComplete_unknown {k : Bool} {s : State} (hp : slotPresent s.cfg s.eng.frame.deviceId = true)
    (hm : (k && !s.eng.cs.matched) = false) (he : cmdEntry s.cfg s.eng.frame.command = none) :
    headerComplete k s = .next (failWith (unsupported s.cfg s.eng) .unsup s) := by
  simp only [headerComplete, hm, firstFailure_none _ hp, he]

/-- A table length above the maximum (R142); the entry does not change whom the NAK goes to. -/
theorem acceptEntry_tooLong {ent : CmdEntry} {s : State} (hl : lenMode s.cfg = .table)
    (hlen : rxMax s.cfg < ent.expectedLength.toNat) :
    acceptEntry ent s = .next (failWith (nak s.cfg s.eng) .len (loadEntry ent s)) :=
  if_pos ⟨hl, hlen⟩

theorem acceptEntry_routes {ent : CmdEntry} {s : State}
    (h : lenMode s.cfg = .table → ent.expectedLength.toNat ≤ rxMax s.cfg) :
    acceptEntry ent s = route (loadEntry ent s) :=
  if_neg fun hc => absurd (h hc.1) (Nat.not_le.mpr hc.2)

/-- `route()` to the dispatcher of an engine whose output line is released and whose `RXBUF` is empty (R141). -/
theorem route_dispatches {s : State} (hlo : s.eng.lineOut = false) (hrx : s.eng.rxCnt = 0)
    (h : ¬ (s.eng.frame.direction = .write ∧ (lenMode s.cfg = .prefixed ∨ 0 < s.eng.frame.expectedLength.toNat))) :
    route s = .next { s with
      trace := s.trace ++ cmdAck s.cfg ++ [.dispatch s.eng.frame [] []], eng := { s.eng with phase := .dispatch } } := by
  rw [route_disp s h, emitAll_released _ s hlo (cmdAck_level _), doDispatch_empty [] (by exact hrx)]
  rfl

/-- `route()` to the payload (R141). -/
theorem route_awaitsPayload {s : State} (hlo : s.eng.lineOut = false) (hl : lenMode s.cfg ≠ .prefixed)
    (h : s.eng.frame.direction = .write ∧ 0 < s.eng.frame.expectedLength.toNat) :
    route s = .next { s with
      trace := s.trace ++ cmdAck s.cfg,
      eng := { s.eng with cs := csClear s.cfg, pLen := s.eng.frame.expectedLength, phase := .rxPayload } } := by
  rw [route_payload s h hl, emitAll_released _ s hlo (cmdAck_level _)]
  rfl

/-- `route()` to the length of the payload (R141). -/
theorem route_awaitsLength {s : State} (hlo : s.eng.lineOut = false) (hl : lenMode s.cfg = .prefixed)
    (h : s.eng.frame.direction = .write) :
    route s = .next { s with
      trace := s.trace ++ cmdAck s.cfg, eng := { s.eng with cs := csClear s.cfg, phase := .rxLenHi } } := by
  rw [route_prefix s h hl, emitAll_released _ s hlo (cmdAck_level _)]
  rfl

/-! ### The five bytes of `F-HDR5` (R61, R137, R139) -/

/-- The first four header bytes are stored and summed. -/
theorem headerByte_open {b : Byte} {s : State} (hs : hdrShape s.cfg = .fiveByte) (hc : s.eng.hdrCnt.toNat < 4) :
    headerByte b s = .next (engAbsorb b (storeHeader (s.eng.hdrBuf.write s.eng.hdrCnt.toNat b) s)) := by
  have next : (s.eng.hdrCnt + 1).toNat ≤ 4 := by
    bv_omega
  unfold headerByte
  rw [writeByte_ok (by simp only [hdrMax]; omega)]
  simp only [hs, storeHeader_eng]
  exact if_pos next

theorem rxByte_rxHdr {s : State} (hp : s.eng.phase = .rxHdr) (b : Byte) : rxByte b s = headerByte b s := by
  simp [rxByte, hp]

/-- A run of header bytes before the fifth. -/
theorem rxBytes_header (l : List Byte) {s : State} (hs : hdrShape s.cfg = .fiveByte) (hp : s.eng.phase = .rxHdr)
    (hl : s.eng.hdrCnt.toNat + l.length ≤ 4) :
    rxBytes l s = .next { s with eng := { s.eng with
      hdrBuf := writeAll s.eng.hdrBuf s.eng.hdrCnt.toNat l, hdrCnt := s.eng.hdrCnt + BitVec.ofNat 3 l.length,
      cs := csAbsorbAll s.cfg s.eng.cs l } } := by
  induction l generalizing s with
  | nil => simp [rxBytes_nil, writeAll]
  | cons b l ih =>
    simp only [List.length_cons] at hl
    have count : (s.eng.hdrCnt + 1).toNat = s.eng.hdrCnt.toNat + 1 := by
      bv_omega
    have counts : s.eng.hdrCnt + 1 + BitVec.ofNat 3 l.length = s.eng.hdrCnt + BitVec.ofNat 3 (l.length + 1) := by
      bv_omega
    rw [rxBytes_cons, rxByte_rxHdr hp, headerByte_open hs (by omega), andThen_next,
      ih (by exact hs) (by exact hp) (by simp only [engAbsorb_eng, storeHeader_eng, count]; omega)]
    simp only [engAbsorb, storeHeader, count, counts, writeAll, csAbsorbAll_cons, List.length_cons]

/-- The fifth byte is compared, and the header taken out of `HDRBUF`. -/
theorem headerByte_fifth {d cmd a1 a2 k : Byte} {s : State} (hs : hdrShape s.cfg = .fiveByte) (hc : s.eng.hdrCnt = 4)
    (hr : ∀ i < 4, s.eng.hdrBuf.read i = [d, cmd, a1, a2][i]?) :
    headerByte k s =
      headerComplete true (loadHeader d cmd a1 a2 (engCheck k (storeHeader (s.eng.hdrBuf.write 4 k) s))) := by
  have header : readRange hdrMax (s.eng.hdrBuf.write 4 k) 0 4 = .ok [d, cmd, a1, a2] :=
    readRange_eq (l := [d, cmd, a1, a2]) (by simp [hdrMax]) fun i (hi : i < 4) => by
      rw [read_write_other (by omega), hr i hi]
  have four : s.eng.hdrCnt.toNat = 4 := by simp [hc]
  have full : ¬ (s.eng.hdrCnt + 1).toNat ≤ 4 := by simp [hc]
  unfold headerByte
  rw [four, writeByte_ok (by decide)]
  simp only [hs, storeHeader_eng, if_neg full, finishFiveByte, engCheck_eng, header]

/-- An engine that has received the five bytes of a header, just before the header is checked (R139). -/
def receivedHeader (s : State) (d cmd a1 a2 k : Byte) : State :=
  { s with eng := { s.eng with
      hdrBuf := writeAll s.eng.hdrBuf 0 [d, cmd, a1, a2, k], hdrCnt := 5, phase := .rxHdr,
      cs := { acc := (csAbsorbAll s.cfg (csClear s.cfg) [d, cmd, a1, a2]).acc,
              matched := decide (checksum s.cfg [d, cmd, a1, a2] = k) },
      frame := { s.eng.frame with deviceId := d, command := cmd, aux1 := a1, aux2 := a2 } } }

/-- The buses of the five-byte header (R28). -/
theorem profile_of_line {c : Config} (hb : c.bus = .sio ∨ c.bus = .smartport) :
    detect c = .line ∧ hdrShape c = .fiveByte ∧ lenMode c = .table := by
  obtain hb | hb := hb <;> simp [detect, hdrShape, lenMode, hb]

/-- In `CMD_DETECT` a line bus takes a byte as the first of the header (R137). -/
theorem rxByte_cmdDetect_line {s : State} (hd : detect s.cfg = .line) (hp : s.eng.phase = .cmdDetect) (b : Byte) :
    rxByte b s = rxByte b (setPhase .rxHdr s) := by
  simp [rxByte, hp, detectByte, hd, firstHeaderByte]

/-- A whole `F-HDR5` is received, then checked. -/
theorem exec_fHdr5 {s : State} (d cmd a1 a2 k : Byte) (hb : s.cfg.bus = .sio ∨ s.cfg.bus = .smartport)
    (hp : s.eng.phase = .cmdDetect) (hc : s.eng.hdrCnt = 0) (hcs : s.eng.cs = csClear s.cfg) :
    exec (.fHdr5 d cmd a1 a2 k) s = headerComplete true (receivedHeader s d cmd a1 a2 k) := by
  obtain ⟨hd, hs, -⟩ := profile_of_line hb
  have four : rxBytes [d, cmd, a1, a2] s = .next { s with eng := { s.eng with
      hdrBuf := writeAll s.eng.hdrBuf 0 [d, cmd, a1, a2], hdrCnt := 4, phase := .rxHdr,
      cs := csAbsorbAll s.cfg (csClear s.cfg) [d, cmd, a1, a2] } } := by
    rw [rxBytes_cons, rxByte_cmdDetect_line hd hp, ← rxBytes_cons,
      rxBytes_header [d, cmd, a1, a2] (s := setPhase .rxHdr s) hs rfl (by simp [hc])]
    simp [setPhase, hc, hcs]
  change rxBytes ([d, cmd, a1, a2] ++ [k]) s = _
  rw [rxBytes_append, four, andThen_next, ← rxByte_eq_rxBytes, rxByte_rxHdr rfl]
  refine headerByte_fifth (by exact hs) rfl fun i hi => ?_
  exact (writeAll_zero_read _ [d, cmd, a1, a2] i).trans (if_pos hi)

theorem nak_of_line {c : Config} (hb : c.bus = .sio ∨ c.bus = .smartport) (e : Engine) :
    nak c e = if c.bus = .sio then [.tx [c.sioNak]] else [] := by
  obtain hb | hb := hb <;> simp [nak, hb]

theorem cmdAck_of_line {c : Config} (hb : c.bus = .sio ∨ c.bus = .smartport) :
    cmdAck c = if c.bus = .sio then [.tx [c.sioAck]] else [.line .ackl true, .line .ackl false] := by
  obtain hb | hb := hb <;> simp [cmdAck, ackPulse, hb]

/-- Settles O32: the five bytes bring the engine to `receivedHeader`, and the first failing check answers. -/
theorem fiveByteHeaderRefused : Obligations.FiveByteHeaderRefused := by
  unfold Obligations.FiveByteHeaderRefused
  intro s d cmd a1 a2 k hb hp hc hcs
  obtain ⟨-, -, hl⟩ := profile_of_line hb
  rw [exec_fHdr5 d cmd a1 a2 k hb hp hc hcs, ← nak_of_line hb (receivedHeader s d cmd a1 a2 k).eng]
  refine ⟨_, receivedHeader s d cmd a1 a2 k, writeAll_zero_read _ [d, cmd, a1, a2, k], rfl,
    fun habsent hfirst => ?absent, fun hbad hfirst => ?badSum, fun hpresent hgood hunknown => ?unknown,
    fun ent hpresent hgood hent hlen => ?tooLong⟩
  case absent =>
    refine headerComplete_absent habsent fun hbad => hfirst ?_
    simpa [receivedHeader] using hbad
  case badSum => exact headerComplete_badSum (decide_eq_false hbad) hfirst
  case unknown => exact headerComplete_unknown hpresent (by simp [receivedHeader, hgood]) hunknown
  case tooLong =>
    rw [headerComplete_accepted hpresent (by simp [receivedHeader, hgood]) hent]
    exact acceptEntry_tooLong hl hlen

/-- Settles O33: a header without a failure is routed. -/
theorem fiveByteHeaderAccepted : Obligations.FiveByteHeaderAccepted := by
  unfold Obligations.FiveByteHeaderAccepted
  intro s d cmd a1 a2 ent hb hp hc hcs hrx hlo hpresent hent hlen frame acc ack
  obtain ⟨-, -, hl⟩ := profile_of_line hb
  have acked : ack = cmdAck s.cfg := (cmdAck_of_line hb).symm
  generalize hk : checksum s.cfg [d, cmd, a1, a2] = k
  have routed : exec (.fHdr5 d cmd a1 a2 k) s = route (loadEntry ent (receivedHeader s d cmd a1 a2 k)) := by
    rw [exec_fHdr5 d cmd a1 a2 k hb hp hc hcs, headerComplete_accepted hpresent (by simp [receivedHeader, hk]) hent]
    exact acceptEntry_routes fun _ => hlen
  have matched : decide (checksum s.cfg [d, cmd, a1, a2] = k) = true := decide_eq_true hk
  rw [routed, acked]
  refine ⟨_, writeAll_zero_read _ [d, cmd, a1, a2, k], fun hno => ?dispatched, fun hwrite => ?awaited⟩
  case dispatched =>
    rw [route_dispatches (s := loadEntry ent (receivedHeader s d cmd a1 a2 k)) hlo hrx]
    · simp only [loadEntry, receivedHeader, matched]
      rfl
    · rintro ⟨hw, hpre | hpos⟩
      · exact absurd (hl.symm.trans hpre) (by decide)
      · exact hno ⟨hw, hpos⟩
  case awaited =>
    rw [route_awaitsPayload (s := loadEntry ent (receivedHeader s d cmd a1 a2 k)) hlo
      (fun hpre => absurd (hl.symm.trans hpre) (by decide)) hwrite]
    rfl

/-! ### The control byte (R65, R135, R139) -/

/-- An engine that has received a control byte in `IDLE`, just before the header is checked (R135, R136, R139). -/
def receivedControl (s : State) (code dev : Nibble) : State :=
  { s with eng := { s.eng with
      hdrBuf := s.eng.hdrBuf.write 0 (ctlByte code dev), hdrCnt := 1, rxCnt := 0, envCnt := 0, pLen := 0, lenHi := 0,
      err := .noError, cs := csClear s.cfg, phase := .rxHdr,
      frame := { s.eng.frame with
        deviceId := dev.zeroExtend 8, command := code.zeroExtend 8, aux1 := 0, aux2 := 0 } } }

/-- The buses of the control byte (R28). -/
theorem profile_of_control {c : Config} (hb : c.bus = .iec ∨ c.bus = .adamnet) :
    detect c = .controlByte ∧ hdrShape c = .controlByte := by
  obtain hb | hb := hb <;> simp [detect, hdrShape, hb]

/-- In `IDLE` a control byte of `DETECT_OPS` is a whole header. -/
theorem rxByte_control {s : State} {code : Nibble} (dev : Nibble) (hb : s.cfg.bus = .iec ∨ s.cfg.bus = .adamnet)
    (hp : s.eng.phase = .idle) (hcode : code ∈ detectOps s.cfg) :
    rxByte (ctlByte code dev) s = headerComplete false (receivedControl s code dev) := by
  obtain ⟨hd, hs⟩ := profile_of_control hb
  have first : rxByte (ctlByte code dev) s = headerByte (ctlByte code dev) (setPhase .rxHdr (beginFrame s)) := by
    simp [rxByte, hp, idleByte, hd, hcode, firstHeaderByte]
  rw [first]
  unfold headerByte
  rw [writeByte_ok (by exact Nat.zero_lt_succ 4)]
  simp only [setPhase_cfg, beginFrame_cfg, hs, hiNibble_ctlByte, loNibble_ctlByte]
  rfl

/-- Each row that starts a frame is a control byte of `DETECT_OPS` (R66). -/
theorem exec_of_startsFrame {s : State} {i : Instr} {code dev : Nibble} (h : startsFrame s.cfg dev i code) :
    exec i s = rxByte (ctlByte code dev) s ∧ code ∈ detectOps s.cfg := by
  obtain ⟨rfl, rfl⟩ | ⟨rfl, rfl⟩ | ⟨rfl, rfl⟩ | ⟨rfl, rfl⟩ | ⟨rfl, rfl⟩ | ⟨rfl, hcode⟩ := h
  case inr.inr.inr.inr.inr => exact ⟨rfl, hcode⟩
  all_goals exact ⟨rfl, by simp [detectOps]⟩

@[simp] theorem loNibble_zeroExtend (dev : Nibble) : loNibble (dev.zeroExtend 8) = dev := by
  revert dev
  decide

theorem unsupported_of_control {c : Config} {e : Engine} {dev : Nibble} (hb : c.bus = .iec ∨ c.bus = .adamnet)
    (hd : e.frame.deviceId = dev.zeroExtend 8) :
    unsupported c e = if c.bus = .iec then [] else [.tx [ctlByte c.nmNack dev]] := by
  have hdev : frameDev e = dev := by rw [frameDev, hd, loNibble_zeroExtend]
  obtain hb | hb := hb <;> simp [unsupported, hb, hdev]

theorem cmdAck_of_control {c : Config} (hb : c.bus = .iec ∨ c.bus = .adamnet) :
    cmdAck c = if c.bus = .iec then [.line .ackl true, .line .ackl false] else [] := by
  obtain hb | hb := hb <;> simp [cmdAck, ackPulse, hb]

theorem lenMode_iec {c : Config} (hb : c.bus = .iec) : lenMode c = .table := by simp [lenMode, hb]

theorem lenMode_adamnet {c : Config} (hb : c.bus = .adamnet) : lenMode c = .prefixed := by simp [lenMode, hb]

/-- Settles O34: the byte brings the engine to `receivedControl`, and the first failing check answers. -/
theorem controlByteRefused : Obligations.ControlByteRefused := by
  unfold Obligations.ControlByteRefused
  intro s i code dev hb hp hi nak
  obtain ⟨hrow, hcode⟩ := exec_of_startsFrame hi
  rw [hrow, rxByte_control dev hb hp hcode]
  refine ⟨_, receivedControl s code dev, fun j => read_write _ 0 j _, rfl, fun habsent => ?absent,
    fun hpresent hunknown => ?unknown, fun ent hpresent hent hiec hlen => ?tooLong⟩
  case absent => exact headerComplete_absent habsent nofun
  case unknown =>
    rw [headerComplete_unknown hpresent rfl hunknown]
    exact congrArg (fun os => Host.Outcome.next (failWith os .unsup (receivedControl s code dev)))
      (unsupported_of_control hb rfl)
  case tooLong =>
    have silent : Machine.nak s.cfg (receivedControl s code dev).eng = [] := by simp [Machine.nak, hiec]
    rw [headerComplete_accepted hpresent rfl hent, ← silent]
    exact acceptEntry_tooLong (lenMode_iec hiec) hlen

/-- Settles O35: a frame without a failure is routed. -/
theorem controlByteAccepted : Obligations.ControlByteAccepted := by
  unfold Obligations.ControlByteAccepted
  intro s i code dev ent hb hp hlo hi hpresent hent hlen frame ack
  obtain ⟨hrow, hcode⟩ := exec_of_startsFrame hi
  have acked : ack = cmdAck s.cfg := (cmdAck_of_control hb).symm
  have routed : exec i s = route (loadEntry ent (receivedControl s code dev)) := by
    rw [hrow, rxByte_control dev hb hp hcode, headerComplete_accepted hpresent rfl hent]
    refine acceptEntry_routes fun htable => hlen (hb.resolve_right fun hadam => ?_)
    exact absurd ((lenMode_adamnet hadam).symm.trans htable) (by decide)
  rw [routed, acked]
  refine ⟨_, _, fun j => read_write _ 0 j _, rfl, fun hquiet => ?dispatched, fun hw hiec hpos => ?payload,
    fun hw hadam => ?length⟩
  case dispatched =>
    rw [route_dispatches (s := loadEntry ent (receivedControl s code dev)) hlo rfl]
    · rfl
    · rintro ⟨hw, hpre⟩
      obtain hnot | ⟨hiec, hzero⟩ := hquiet
      · exact hnot hw
      · obtain hpre | hpos := hpre
        · exact absurd ((lenMode_iec hiec).symm.trans hpre) (by decide)
        · exact absurd hzero (Nat.pos_iff_ne_zero.mp hpos)
  case payload =>
    rw [route_awaitsPayload (s := loadEntry ent (receivedControl s code dev)) hlo
      (fun hpre => absurd ((lenMode_iec hiec).symm.trans hpre) (by decide)) ⟨hw, hpos⟩]
    rfl
  case length =>
    rw [route_awaitsLength (s := loadEntry ent (receivedControl s code dev)) hlo (lenMode_adamnet hadam) hw]
    rfl

end Sys2Proof.Laws
end

section
/-! A whole payload (R62, R67, R143 to R146): a data block with its checksum byte, and the AdamNet packet, which is a
control byte, a length and such a block. -/

namespace Sys2Proof.Laws

open Sys2Proof.Machine

/-! ### A block of data and its checksum byte (R62, R144, R145) -/

/-- An engine that has received the data of a block (R144). -/
def receivedData (s : State) (data : List Byte) : State :=
  { s with eng := { s.eng with
      rxBuf := writeAll s.eng.rxBuf 0 data, rxCnt := s.eng.pLen, phase := .rxPcsum,
      cs := csAbsorbAll s.cfg (csClear s.cfg) data } }

/-- An engine that has received a data block, its checksum byte compared (R144, R145). -/
def receivedBlock (s : State) (data : List Byte) (k : Byte) : State :=
  { s with eng := { s.eng with
      rxBuf := writeAll s.eng.rxBuf 0 data, rxCnt := s.eng.pLen, phase := .rxPcsum,
      cs := { acc := (csAbsorbAll s.cfg (csClear s.cfg) data).acc, matched := decide (checksum s.cfg data = k) } } }

/-- The phase in which a block is awaited: without data, only its checksum byte (R143). -/
def blockPhase (data : List Byte) : Phase := if data = [] then .rxPcsum else .rxPayload

/-- An engine that awaits a block of data from its start: `PLEN` bytes, which fit `RXBUF`. -/
structure AwaitsBlock (s : State) (data : List Byte) : Prop where
  phase : s.eng.phase = blockPhase data
  start : s.eng.rxCnt = 0
  cleared : s.eng.cs = csClear s.cfg
  length : s.eng.pLen.toNat = data.length
  fits : data.length ≤ s.cfg.maxPayload.toNat
  released : s.eng.lineOut = false

/-- The data of a block, before its checksum byte. -/
theorem rxBytes_data {s : State} {data : List Byte} (h : AwaitsBlock s data) :
    rxBytes data s = .next (receivedData s data) := by
  obtain ⟨hphase, hstart, hcleared, hlength, hfits, -⟩ := h
  by_cases hd : data = []
  · subst hd
    have hzero : s.eng.pLen = s.eng.rxCnt := by
      rw [hstart]
      exact BitVec.eq_of_toNat_eq hlength
    have hdone : s.eng.phase = .rxPcsum := hphase
    rw [rxBytes_nil, receivedData, hzero, csAbsorbAll_nil, ← hcleared, ← hdone]
    rfl
  · have hopen : s.eng.phase = .rxPayload := hphase.trans (if_neg hd)
    rw [rxBytes_payload data s hopen (by simp [hstart, hlength]) (by omega) hd, hstart, hcleared]
    rfl

/-- A whole block: dispatched with its data where the checksum byte is right, refused where not. -/
theorem rxBytes_block {s : State} {data : List Byte} (h : AwaitsBlock s data) (k : Byte) :
    rxBytes (data ++ [k]) s =
      if checksum s.cfg data = k then
        .next { receivedBlock s data k with
          trace := s.trace ++ payloadAck s.cfg ++ [.dispatch s.eng.frame [] data],
          eng := { (receivedBlock s data k).eng with phase := .dispatch } }
      else .next (failWith (nak s.cfg s.eng) .csum (receivedBlock s data k)) := by
  rw [rxBytes_append, rxBytes_data h, andThen_next, ← rxByte_eq_rxBytes]
  refine (rxByte_pcsum (receivedData s data) k data rfl h.released h.length h.fits fun i hi => ?_).trans ?_
  · exact (writeAll_zero_read _ data i).trans (if_pos hi)
  · by_cases hk : checksum s.cfg data = k
    · rw [if_pos hk, receivedBlock, decide_eq_true hk]
      exact if_pos hk
    · rw [if_neg hk, receivedBlock, decide_eq_false hk]
      exact if_neg hk

/-- Settles O39: the row is the arrival of the block. -/
theorem dataBlockIsReceived : Obligations.DataBlockIsReceived := by
  unfold Obligations.DataBlockIsReceived
  intro s k data hp hrx hcs hlen hd hmax hlo
  have awaits : AwaitsBlock s data := ⟨hp.trans (if_neg hd).symm, hrx, hcs, hlen, hmax, hlo⟩
  rw [exec_fData_received k hd s, rxBytes_block awaits]
  exact ⟨_, receivedBlock s data k, writeAll_zero_read _ data, rfl, fun hk => if_pos hk, fun hk => if_neg hk⟩

/-! ### The AdamNet packet (R67, R141, R143) -/

/-- The low byte of a length within the ceiling (R143). -/
theorem lenLoByte_within {b : Byte} {s : State}
    (h : (join16 s.cfg.lenPrefixOrder s.eng.lenHi b).toNat ≤ payloadCeiling s.cfg s.eng.frame.expectedLength) :
    lenLoByte b s =
      setPhase (if 0 < (join16 s.cfg.lenPrefixOrder s.eng.lenHi b).toNat then .rxPayload else .rxPcsum)
        { s with eng := { s.eng with pLen := join16 s.cfg.lenPrefixOrder s.eng.lenHi b } } :=
  if_neg (Nat.not_lt.mpr h)

/-- The two bytes of a length within the ceiling: the block of that length is awaited. -/
theorem rxBytes_length {s : State} {hi lo : Byte} {data : List Byte} (hp : s.eng.phase = .rxLenHi)
    (hlen : (join16 s.cfg.lenPrefixOrder hi lo).toNat = data.length)
    (hmax : data.length ≤ payloadCeiling s.cfg s.eng.frame.expectedLength) :
    rxBytes [hi, lo] s = .next { s with eng := { s.eng with
      lenHi := hi, pLen := join16 s.cfg.lenPrefixOrder hi lo, phase := blockPhase data } } := by
  have first : rxByte hi s = .next (lenHiByte hi s) := by simp [rxByte, hp]
  have second : rxByte lo (lenHiByte hi s) = .next (lenLoByte lo (lenHiByte hi s)) := by simp [rxByte]
  have phase : (if 0 < (join16 s.cfg.lenPrefixOrder hi lo).toNat then .rxPayload else .rxPcsum) = blockPhase data := by
    cases data <;> simp [blockPhase, hlen]
  rw [rxBytes_cons, first, andThen_next, ← rxByte_eq_rxBytes, second, lenLoByte_within (by exact hlen ▸ hmax),
    ← phase]
  rfl

/-- An idle AdamNet engine that has received the head of a packet and its length (R135, R141, R143). -/
def awaitingPacket (s : State) (dev : Nibble) (ent : CmdEntry) (hi lo : Byte) (data : List Byte) : State :=
  { s with eng := { s.eng with
      hdrBuf := s.eng.hdrBuf.write 0 (ctlByte s.cfg.mnSend dev), hdrCnt := 1, rxCnt := 0, envCnt := 0,
      pLen := join16 s.cfg.lenPrefixOrder hi lo, lenHi := hi, err := .noError, cs := csClear s.cfg,
      phase := blockPhase data,
      frame := {
        deviceId := dev.zeroExtend 8, command := s.cfg.mnSend.zeroExtend 8, aux1 := 0, aux2 := 0,
        direction := .write, expectedLength := ent.expectedLength, timeoutMs := ent.timeoutMs } } }

theorem rxBytes_packetHead {s : State} {dev : Nibble} {ent : CmdEntry} {hi lo : Byte} {data : List Byte}
    (hb : s.cfg.bus = .adamnet) (hp : s.eng.phase = .idle) (hlo : s.eng.lineOut = false)
    (hpresent : slotPresent s.cfg (dev.zeroExtend 8) = true)
    (hent : cmdEntry s.cfg (s.cfg.mnSend.zeroExtend 8) = some ent) (hw : ent.direction = .write)
    (hlen : (join16 s.cfg.lenPrefixOrder hi lo).toNat = data.length)
    (hmax : data.length ≤ payloadCeiling s.cfg ent.expectedLength) :
    rxBytes [ctlByte s.cfg.mnSend dev, hi, lo] s = .next (awaitingPacket s dev ent hi lo data) := by
  have mode := lenMode_adamnet hb
  have routed : rxByte (ctlByte s.cfg.mnSend dev) s = route (loadEntry ent (receivedControl s s.cfg.mnSend dev)) := by
    rw [rxByte_control dev (.inr hb) hp (by simp [detectOps]), headerComplete_accepted hpresent rfl hent]
    exact acceptEntry_routes fun htable => absurd (mode.symm.trans htable) (by decide)
  have silent : cmdAck s.cfg = [] := by simp [cmdAck, hb]
  rw [rxBytes_cons, routed,
    route_awaitsLength (s := loadEntry ent (receivedControl s s.cfg.mnSend dev)) hlo mode hw, andThen_next,
    rxBytes_length (data := data) rfl (by exact hlen) (by exact hmax)]
  simp only [loadEntry, receivedControl, awaitingPacket, silent, List.append_nil, hw]

/-- Settles O40: the head and the length of the packet, then its block. -/
theorem adamnetSendPacketIsReceived : Obligations.AdamnetSendPacketIsReceived := by
  unfold Obligations.AdamnetSendPacketIsReceived
  intro s k dev data ent hb hp hlo hpresent hent hw hmax frame
  have short : data.length < 65536 := by
    have := ent.expectedLength.isLt
    omega
  obtain ⟨hi, lo, hsplit, hlen⟩ := split16_length s.cfg.lenPrefixOrder short
  have packet : lpktBytes s.cfg s.cfg.mnSend dev data k = [ctlByte s.cfg.mnSend dev, hi, lo] ++ (data ++ [k]) := by
    simp [lpktBytes, hsplit]
  generalize hu : awaitingPacket s dev ent hi lo data = u
  have awaits : AwaitsBlock u data := by
    subst hu
    exact ⟨rfl, rfl, rfl, hlen, by exact le_trans hmax (Nat.min_le_right _ _), hlo⟩
  have whole : exec (.fLpkt (.hostSend k) dev data) s = rxBytes (data ++ [k]) u := by
    change rxBytes (lpktBytes s.cfg s.cfg.mnSend dev data k) s = _
    rw [packet, rxBytes_append, rxBytes_packetHead hb hp hlo hpresent hent hw hlen hmax, andThen_next, hu]
  have stored := writeAll_zero_read s.eng.rxBuf data
  have head (i : Nat) := read_write s.eng.hdrBuf 0 i (ctlByte s.cfg.mnSend dev)
  rw [whole, rxBytes_block awaits]
  subst hu
  by_cases hk : checksum s.cfg data = k
  · refine ⟨_, if_pos hk, rfl, stored, hlen, rfl, head, rfl, rfl, rfl, rfl, rfl, rfl, rfl, fun _ => ⟨rfl, rfl, ?_⟩,
      fun hne => absurd hk hne⟩
    have silent : payloadAck s.cfg = [] := by simp [payloadAck, hb]
    simp [awaitingPacket, silent, frame]
  · have refusal : nak s.cfg (awaitingPacket s dev ent hi lo data).eng = [.tx [ctlByte s.cfg.nmNack dev]] := by
      simp [nak, frameDev, awaitingPacket, hb]
    rw [show (awaitingPacket s dev ent hi lo data).cfg = s.cfg from rfl, refusal]
    refine ⟨_, if_neg hk, rfl, stored, hlen, rfl, head, rfl, rfl, rfl, rfl, rfl, rfl, rfl, fun heq => absurd heq hk,
      fun _ => ⟨rfl, rfl, rfl⟩⟩

end Sys2Proof.Laws
end

section
/-! A FujiBus envelope (R70, R71, R246 to R250): the framing bytes, and what the checks of R248 make of a body that has
been received whole. -/

namespace Sys2Proof.Laws

open Sys2Proof.Machine

/-! ### The framing bytes (R70, R115 to R117) -/

/-- A byte inside an envelope for which the decoder delivers nothing (R247). -/
theorem rxByte_rxEnv_nothing {b : Byte} {s : State} {u : FrUnit} (hp : s.eng.phase = .rxEnv)
    (hd : decStep s.cfg s.eng.fr b = (u, .nothing)) : rxByte b s = .next { s with eng := { s.eng with fr := u } } := by
  simp [rxByte, hp, envelopeByte, engDecode, hd]

/-- A byte inside an envelope for which the decoder delivers one that fits (R247). -/
theorem rxByte_rxEnv_data {b d : Byte} {s : State} {u : FrUnit} (hp : s.eng.phase = .rxEnv)
    (hd : decStep s.cfg s.eng.fr b = (u, .data d)) (hroom : s.eng.envCnt.toNat < envMax s.cfg) :
    rxByte b s = .next (storeEnvelope (s.eng.envBuf.write s.eng.envCnt.toNat d)
      { s with eng := { s.eng with fr := u } }) := by
  simp only [rxByte, hp, envelopeByte, engDecode, hd]
  exact envStore_eq_next.mpr (.inr ⟨hroom, rfl⟩)

/-- Storing a byte and counting it, in either case of log entry 17. -/
theorem storeEnvelope_eq (m : Memory) (s : State) :
    storeEnvelope m s = { s with
      draws := if s.eng.envCnt = 0xFFFF then s.draws + 1 else s.draws
      eng := { s.eng with
        envBuf := m
        envCnt := if s.eng.envCnt = 0xFFFF then Config.envCntPastEnd s.draws else s.eng.envCnt + 1 } } := by
  by_cases h : s.eng.envCnt = 0xFFFF
  · rw [storeEnvelope_pastEnd h, if_pos h, if_pos h]
  · rw [storeEnvelope_counts h, if_neg h, if_neg h]

/-- Settles O43: what the decoder returns for each of the four bytes, and what the engine does with it. -/
theorem framingBytesOpenAndEscape : Obligations.FramingBytesOpenAndEscape := by
  unfold Obligations.FramingBytesOpenAndEscape
  intro s hb hn
  obtain ⟨hesc, -, -, hsub⟩ := framing_distinct hn
  refine ⟨fun hp hst => ?opens, fun hp hst => ?escapes, fun hp hst hroom => ?stores⟩
  case opens =>
    have hdec : decStep s.cfg s.eng.fr s.cfg.fbEnd = (decInside, .frameStart) := by
      rw [decStep_hunt _ _ hst, decHunt, if_pos rfl, decInside]
    have hmode : detect s.cfg = .delimiter := by simp [detect, hb]
    change rxByte s.cfg.fbEnd s = _
    simp only [rxByte, hp, idleByte, hmode, fujiIdleByte, engDecode, hdec]
    rfl
  case escapes =>
    refine rxByte_rxEnv_nothing hp ?_
    rw [decStep_data _ _ hst, decData, if_neg hesc, if_pos rfl]
  case stores =>
    intro cnt draws
    have hend : decStep s.cfg s.eng.fr s.cfg.fbEscEnd =
        ({ s.eng.fr with st := .data, ne := true }, .data s.cfg.fbEnd) := by
      rw [decStep_esc _ _ hst, decEsc, if_pos rfl]
    have hescape : decStep s.cfg s.eng.fr s.cfg.fbEscEsc =
        ({ s.eng.fr with st := .data, ne := true }, .data s.cfg.fbEsc) := by
      rw [decStep_esc _ _ hst, decEsc, if_neg hsub, if_pos rfl]
    refine ⟨_, _, fun i => read_write _ _ i _, fun i => read_write _ _ i _, ?_, ?_⟩
    · exact (rxByte_rxEnv_data hp hend hroom).trans (congrArg Host.Outcome.next (storeEnvelope_eq _ _))
    · exact (rxByte_rxEnv_data hp hescape hroom).trans (congrArg Host.Outcome.next (storeEnvelope_eq _ _))

/-! ### The checks of an envelope (R248, R249) -/

section

variable {pc : Nat} {rest : List Byte} {s : State}

theorem envelopeChecks_failed {os : List Output} {e : Err}
    (h : firstFailure (!s.eng.cs.matched) [] s = some (os, e)) :
    envelopeChecks pc rest s = .next (failWith os e s) := by
  simp [envelopeChecks, h]

theorem envelopeChecks_absent (hp : slotPresent s.cfg s.eng.frame.deviceId = false)
    (ho : s.eng.cs.matched = false → s.cfg.checkOrder = .devFirst) :
    envelopeChecks pc rest s = .next (fail .nodev s) :=
  envelopeChecks_failed (firstFailure_absent _ hp fun hbad => ho (by simpa using hbad))

theorem envelopeChecks_badSum (hm : s.eng.cs.matched = false)
    (ho : slotPresent s.cfg s.eng.frame.deviceId = false → s.cfg.checkOrder = .csumFirst) :
    envelopeChecks pc rest s = .next (fail .csum s) :=
  envelopeChecks_failed (by rw [hm]; exact firstFailure_badSum _ ho)

variable (hp : slotPresent s.cfg s.eng.frame.deviceId = true) (hm : s.eng.cs.matched = true)
include hp hm

/-- Step (3): the declared fields do not fit. -/
theorem envelopeChecks_truncated (hr : rest.length < 4 * pc) : envelopeChecks pc rest s = .next (fail .trunc s) := by
  simp only [envelopeChecks, hm, Bool.not_true, firstFailure_none [] hp, if_pos hr]

theorem envelopeChecks_routes (hr : 4 * pc ≤ rest.length) :
    envelopeChecks pc rest s =
      envelopeRoute (takeFields s.cfg.fbFieldOrder pc rest) (rest.drop (4 * pc))
        (loadAux (takeFields s.cfg.fbFieldOrder pc rest) s) := by
  simp only [envelopeChecks, hm, Bool.not_true, firstFailure_none [] hp, if_neg (Nat.not_lt.mpr hr)]

end

theorem envelopeRoute_unknown {fields : List Field} {payload : List Byte} {s : State}
    (he : cmdEntry s.cfg s.eng.frame.command = none) :
    envelopeRoute fields payload s = .next (failWith (unsupported s.cfg s.eng) .unsup s) := by
  simp only [envelopeRoute, he]

section

variable {fields : List Field} {payload : List Byte} {s : State} {ent : CmdEntry}
  (he : cmdEntry s.cfg s.eng.frame.command = some ent)
include he

/-- Step (5): a payload for a command that writes nothing. -/
theorem envelopeRoute_misdirected (hd : ent.direction ≠ .write) (hpay : payload ≠ []) :
    envelopeRoute fields payload s =
      .next (failWith (fbRespond s.cfg (loadEntry ent s).eng s.cfg.fbStInvalid []) .dir (loadEntry ent s)) := by
  simp only [envelopeRoute, he]
  exact if_pos ⟨hd, hpay⟩

variable (hd : ent.direction ≠ .write → payload = [])
include hd

/-- Step (6): a payload above the ceiling. -/
theorem envelopeRoute_tooLong (hlen : payloadCeiling s.cfg ent.expectedLength < payload.length) :
    envelopeRoute fields payload s = .next (fail .len (loadEntry ent s)) := by
  simp only [envelopeRoute, he]
  exact (if_neg fun h => h.2 (hd h.1)).trans (if_pos hlen)

theorem envelopeRoute_splits (hlen : payload.length ≤ payloadCeiling s.cfg ent.expectedLength) :
    envelopeRoute fields payload s = splitDispatch fields payload (loadEntry ent s) := by
  simp only [envelopeRoute, he]
  exact (if_neg fun h => h.2 (hd h.1)).trans (if_neg (Nat.not_lt.mpr hlen))

end

/-- Bytes written inside a buffer. -/
theorem writeRange_eq_writeAll {size : Nat} {m : Memory} {i : Nat} {bytes : List Byte}
    (hs : i + bytes.length ≤ size) : writeRange size m i bytes = .ok (writeAll m i bytes) := by
  induction bytes generalizing m i with
  | nil => rfl
  | cons b bytes ih =>
    simp only [List.length_cons] at hs
    simp only [writeRange, writeByte_ok (show i < size by omega), ih (show i + 1 + bytes.length ≤ size by omega),
      writeAll]

/-- The payload of an envelope in `RXBUF` (R249). -/
def movedPayload (payload : List Byte) (s : State) : State :=
  { s with eng := { s.eng with
      rxBuf := writeAll s.eng.rxBuf 0 payload, rxCnt := BitVec.ofNat 16 payload.length } }

/-- A payload that fits `RXBUF` is moved there and dispatched (R249). -/
theorem splitDispatch_eq {fields : List Field} {payload : List Byte} {s : State} (h : payload.length ≤ rxMax s.cfg) :
    splitDispatch fields payload s =
      .next (emit (.dispatch s.eng.frame fields payload) (setPhase .dispatch (movedPayload payload s))) := by
  have count : (BitVec.ofNat 16 payload.length).toNat = payload.length := by
    have : rxMax s.cfg < 65536 := s.cfg.maxPayload.isLt
    rw [BitVec.toNat_ofNat]
    omega
  have stands (i : Nat) (hi : i < payload.length) : (writeAll s.eng.rxBuf 0 payload).read i = payload[i]? :=
    (writeAll_zero_read _ payload i).trans (if_pos hi)
  unfold splitDispatch
  rw [writeRange_eq_writeAll (by omega)]
  refine doDispatch_eq_next.mpr ⟨payload, ?_, rfl⟩
  change readRange (rxMax s.cfg) (writeAll s.eng.rxBuf 0 payload) 0 (BitVec.ofNat 16 payload.length).toNat = _
  rw [count]
  exact readRange_eq h stands

/-! ### What the checks leave alone -/

/-- What no step of R248 and R249 touches: the envelope as received, and a decoder outside a frame. -/
structure KeepsEnvelope (s t : State) : Prop where
  taken : t.taken = s.taken
  draws : t.draws = s.draws
  hdrBuf : t.eng.hdrBuf = s.eng.hdrBuf
  envBuf : t.eng.envBuf = s.eng.envBuf
  envCnt : t.eng.envCnt = s.eng.envCnt
  hunt : s.eng.fr.st = .hunt → t.eng.fr.st = .hunt

/-- What the steps after the header registers are loaded leave of them. -/
structure KeepsHeader (s t : State) : Prop extends KeepsEnvelope s t where
  fbSeq : t.eng.fbSeq = s.eng.fbSeq
  fbPc : t.eng.fbPc = s.eng.fbPc
  command : t.eng.frame.command = s.eng.frame.command
  deviceId : t.eng.frame.deviceId = s.eng.frame.deviceId

theorem KeepsHeader.failWith (os : List Output) (e : Err) (s : State) : KeepsHeader s (failWith os e s) := by
  have hunt (h : s.eng.fr.st = .hunt) : (idleFr s.cfg s.eng.fr).st = .hunt := by
    unfold idleFr
    split
    · rfl
    · exact h
  refine ⟨⟨?_, ?_, ?_, ?_, ?_, fun h => ?_⟩, ?_, ?_, ?_, ?_⟩ <;> simp [Machine.failWith, *]

theorem KeepsHeader.dispatched (fields : List Field) (payload : List Byte) (s : State) :
    KeepsHeader s (emit (.dispatch s.eng.frame fields payload) (setPhase .dispatch (movedPayload payload s))) :=
  ⟨⟨rfl, rfl, rfl, rfl, rfl, id⟩, rfl, rfl, rfl, rfl⟩

theorem KeepsHeader.loadAux {fields : List Field} {s t : State} (h : KeepsHeader (loadAux fields s) t) :
    KeepsHeader s t :=
  ⟨⟨h.taken, h.draws, h.hdrBuf, h.envBuf, h.envCnt, h.hunt⟩, h.fbSeq, h.fbPc, h.command, h.deviceId⟩

theorem KeepsHeader.loadEntry {ent : CmdEntry} {s t : State} (h : KeepsHeader (loadEntry ent s) t) :
    KeepsHeader s t :=
  ⟨⟨h.taken, h.draws, h.hdrBuf, h.envBuf, h.envCnt, h.hunt⟩, h.fbSeq, h.fbPc, h.command, h.deviceId⟩

/-- Steps (4) to (7) run, whatever the envelope holds. -/
theorem envelopeRoute_runs (fields : List Field) (payload : List Byte) (s : State) :
    ∃ t, envelopeRoute fields payload s = .next t ∧ KeepsHeader s t := by
  cases he : cmdEntry s.cfg s.eng.frame.command with
  | none => exact ⟨_, envelopeRoute_unknown he, .failWith _ _ s⟩
  | some ent =>
    by_cases hbad : ent.direction ≠ .write ∧ payload ≠ []
    · obtain ⟨hd, hpay⟩ := hbad
      exact ⟨_, envelopeRoute_misdirected he hd hpay, (KeepsHeader.failWith _ _ _).loadEntry⟩
    have hd : ent.direction ≠ .write → payload = [] := by tauto
    by_cases hlen : payload.length ≤ payloadCeiling s.cfg ent.expectedLength
    · rw [envelopeRoute_splits he hd hlen,
        splitDispatch_eq (s := Machine.loadEntry ent s) (hlen.trans (Nat.min_le_right _ _))]
      exact ⟨_, rfl, (KeepsHeader.dispatched _ _ _).loadEntry⟩
    · exact ⟨_, envelopeRoute_tooLong he hd (Nat.not_le.mp hlen), (KeepsHeader.failWith [] _ _).loadEntry⟩

theorem envelopeChecks_runs (pc : Nat) (rest : List Byte) (s : State) :
    ∃ t, envelopeChecks pc rest s = .next t ∧ KeepsHeader s t := by
  cases hf : firstFailure (!s.eng.cs.matched) [] s with
  | some failure => exact ⟨_, envelopeChecks_failed hf, .failWith _ _ s⟩
  | none =>
    simp only [envelopeChecks, hf]
    split
    · exact ⟨_, rfl, .failWith [] .trunc s⟩
    · obtain ⟨t, ht, hk⟩ := envelopeRoute_runs (takeFields s.cfg.fbFieldOrder pc rest) (rest.drop (4 * pc))
        (loadAux (takeFields s.cfg.fbFieldOrder pc rest) s)
      exact ⟨t, ht, hk.loadAux⟩

/-- An envelope of five bytes or more: its header, what stands between, and its last byte. -/
theorem exists_envelope {bytes : List Byte} (h : 5 ≤ bytes.length) :
    ∃ seq cmd pc dev rest k, bytes = [seq, cmd, pc, dev] ++ rest ++ [k] := by
  obtain ⟨seq, cmd, pc, dev, b4, more, rfl⟩ :
      ∃ seq cmd pc dev b4 more, bytes = seq :: cmd :: pc :: dev :: b4 :: more := by
    match bytes, h with
    | seq :: cmd :: pc :: dev :: b4 :: more, _ => exact ⟨seq, cmd, pc, dev, b4, more, rfl⟩
  refine ⟨seq, cmd, pc, dev, (b4 :: more).dropLast, (b4 :: more).getLast (List.cons_ne_nil b4 more), ?_⟩
  rw [List.append_assoc, List.dropLast_append_getLast]
  rfl

theorem parseEnvelope_reaches {bytes : List Byte} {s t : State} (h : parseEnvelope bytes s = .next t) :
    Reaches [.idle, .dispatch] s t := by
  by_cases hl : bytes.length < 5
  · cases h.symm.trans (parseEnvelope_short bytes s hl)
    exact (Reaches.fail .trunc s).mono (by decide)
  · obtain ⟨seq, cmd, pc, dev, rest, k, rfl⟩ := exists_envelope (Nat.not_lt.mp hl)
    rw [parseEnvelope_eq] at h
    exact (envelopeChecks_reaches h).after (.withEng s _)

/-- A received body is parsed, whatever it holds. -/
theorem parseEnvelope_runs (bytes : List Byte) (s : State) :
    ∃ t, parseEnvelope bytes s = .next t ∧ KeepsEnvelope s t := by
  by_cases h : bytes.length < 5
  · exact ⟨_, parseEnvelope_short bytes s h, (KeepsHeader.failWith [] .trunc s).toKeepsEnvelope⟩
  · obtain ⟨seq, cmd, pc, dev, rest, k, rfl⟩ := exists_envelope (Nat.not_lt.mp h)
    rw [parseEnvelope_eq]
    obtain ⟨t, ht, hk⟩ :=
      envelopeChecks_runs pc.toNat rest (loadEnvelope seq cmd pc dev ([seq, cmd, pc, dev] ++ rest) k s)
    exact ⟨t, ht, hk.taken, hk.draws, hk.hdrBuf, hk.envBuf, hk.envCnt, hk.hunt⟩

/-! ### A whole envelope (R70, R71, R248) -/

/-- An engine that has received an envelope, its header registers loaded and its checksum byte compared (R248). -/
def receivedEnvelope (s : State) (seq cmd pc dev : Byte) (rest : List Byte) (k : Byte) : State :=
  loadEnvelope seq cmd pc dev ([seq, cmd, pc, dev] ++ rest) k (receivedBody s ([seq, cmd, pc, dev] ++ rest ++ [k]))

/-- `ENVBUF` holds a received body, and what it held above (R247). -/
theorem receivedBody_envBuf (s : State) (body : List Byte) (i : Nat) :
    (receivedBody s body).eng.envBuf.read i = if i < body.length then body[i]? else s.eng.envBuf.read i :=
  writeAll_zero_read _ body i

/-- An idle FujiBus engine, under a configuration that R294 allows, before a frame whose body it can hold. -/
structure AwaitsFrame (s : State) (body : List Byte) : Prop where
  valid : configValid s.cfg = true
  bus : s.cfg.bus = .fujibus
  idle : s.eng.phase = .idle
  hunt : s.eng.fr.st = .hunt
  nonempty : body ≠ []
  fits : body.length ≤ envMax s.cfg
  counts : body.length < 65536

theorem AwaitsFrame.received {s : State} {body : List Byte} (h : AwaitsFrame s body) :
    rxBytes (frameBytes s.cfg body) s = parseEnvelope body (receivedBody s body) :=
  rxBytes_frame s body h.valid h.bus h.idle h.hunt h.nonempty h.fits h.counts

theorem AwaitsFrame.checked {s : State} {seq cmd pc dev : Byte} {rest : List Byte} {k : Byte}
    (h : AwaitsFrame s ([seq, cmd, pc, dev] ++ rest ++ [k])) :
    rxBytes (frameBytes s.cfg ([seq, cmd, pc, dev] ++ rest ++ [k])) s =
      envelopeChecks pc.toNat rest (receivedEnvelope s seq cmd pc dev rest k) := by
  rw [h.received, parseEnvelope_eq, receivedEnvelope]

/-- Settles O45: a received body is parsed, and the parse leaves the buffers it does not write. -/
theorem stuffedFrameIsReceivedWhole : Obligations.StuffedFrameIsReceivedWhole := by
  unfold Obligations.StuffedFrameIsReceivedWhole
  intro s body hv hb hp hst hne hfits hcount
  have awaits : AwaitsFrame s body := ⟨hv, hb, hp, hst, hne, hfits, hcount⟩
  obtain ⟨t, ht, kept⟩ := parseEnvelope_runs body (receivedBody s body)
  have run : rxBytes (frameBytes s.cfg body) s = .next t := awaits.received.trans ht
  have left := rxBytes_leavesRest run
  have ends : Reaches [.idle, .dispatch] (receivedBody s body) t := parseEnvelope_reaches ht
  refine ⟨t, run, fun i => ?envBuf, ?envCnt, kept.hdrBuf, kept.hunt rfl, by simpa using ends.phase, left.cfg, left.cs,
    left.fr, left.script, left.returned, kept.taken, kept.draws, fun hshort => ?short,
    fun seq cmd pc dev rest k hbody htrunc hpresent hgood => ?truncated⟩
  case envBuf => rw [kept.envBuf, receivedBody_envBuf]
  case envCnt =>
    rw [kept.envCnt]
    change (BitVec.ofNat 16 body.length).toNat = _
    rw [BitVec.toNat_ofNat, Nat.mod_eq_of_lt hcount]
  case short =>
    cases ht.symm.trans (parseEnvelope_short body _ hshort)
    exact ⟨rfl, rfl, rfl, rfl, rfl⟩
  case truncated =>
    subst hbody
    have failed := envelopeChecks_truncated (s := receivedEnvelope s seq cmd pc dev rest k) hpresent
      (decide_eq_true hgood) htrunc
    cases (run.symm.trans awaits.checked).trans failed
    exact ⟨rfl, rfl, rfl, rfl⟩

/-! ### The envelope of a request (R71, R250) -/

/-- `F-ENV` before stuffing, without its checksum byte (R71). -/
def requestBody (c : Config) (seq cmd dev : Byte) (fields : List Field) (payload : List Byte) : List Byte :=
  [seq, cmd, BitVec.ofNat 8 fields.length, dev] ++ (fieldBytes c.fbFieldOrder fields ++ payload)

theorem envBytes_eq (c : Config) (seq cmd dev : Byte) (fields : List Field) (payload : List Byte) (k : Byte) :
    envBytes c seq cmd dev fields payload k = requestBody c seq cmd dev fields payload ++ [k] := by
  simp [envBytes, requestBody]

theorem length_requestBody (c : Config) (seq cmd dev : Byte) (fields : List Field) (payload : List Byte) :
    (requestBody c seq cmd dev fields payload).length = 4 + 4 * fields.length + payload.length := by
  have := length_flatMap_split32 c.fbFieldOrder fields
  simp only [requestBody, fieldBytes, List.length_append, List.length_cons, List.length_nil]
  omega

/-- A parameter count that fits its byte is the number of fields (R71). -/
theorem fieldCount {fields : List Field} (h : fields.length < 256) :
    (BitVec.ofNat 8 fields.length).toNat = fields.length := by
  rw [BitVec.toNat_ofNat, Nat.mod_eq_of_lt h]

/-- An engine that has received the envelope of a request, before its checks (R71, R248). -/
def receivedRequest (s : State) (seq cmd dev : Byte) (fields : List Field) (payload : List Byte) (k : Byte) : State :=
  receivedEnvelope s seq cmd (BitVec.ofNat 8 fields.length) dev (fieldBytes s.cfg.fbFieldOrder fields ++ payload) k

section

variable (s : State) (seq cmd dev : Byte) (fields : List Field) (payload : List Byte) (k : Byte)

theorem receivedRequest_cs : (receivedRequest s seq cmd dev fields payload k).eng.cs =
    { acc := (csAbsorbAll s.cfg (csClear s.cfg) (requestBody s.cfg seq cmd dev fields payload)).acc,
      matched := decide (checksum s.cfg (requestBody s.cfg seq cmd dev fields payload) = k) } := rfl

theorem receivedRequest_envCnt : (receivedRequest s seq cmd dev fields payload k).eng.envCnt =
    BitVec.ofNat 16 ((requestBody s.cfg seq cmd dev fields payload).length + 1) :=
  congrArg (BitVec.ofNat 16) List.length_append

theorem receivedRequest_envBuf (i : Nat) : (receivedRequest s seq cmd dev fields payload k).eng.envBuf.read i =
    if i < (requestBody s.cfg seq cmd dev fields payload ++ [k]).length then
      (requestBody s.cfg seq cmd dev fields payload ++ [k])[i]?
    else s.eng.envBuf.read i :=
  receivedBody_envBuf s _ i

end

section

variable {s : State} {seq cmd dev : Byte} {fields : List Field} {payload : List Byte} {k : Byte}

/-- A present device and a right checksum: the request is routed with its fields and its payload. -/
theorem envelopeChecks_request (hp : slotPresent s.cfg dev = true)
    (hk : checksum s.cfg (requestBody s.cfg seq cmd dev fields payload) = k) :
    envelopeChecks fields.length (fieldBytes s.cfg.fbFieldOrder fields ++ payload)
        (receivedRequest s seq cmd dev fields payload k) =
      envelopeRoute fields payload (loadAux fields (receivedRequest s seq cmd dev fields payload k)) := by
  have parts := takeFields_flatMap s.cfg.fbFieldOrder fields payload
  have fit : 4 * fields.length ≤ (fieldBytes s.cfg.fbFieldOrder fields ++ payload).length := by
    have := length_flatMap_split32 s.cfg.fbFieldOrder fields
    simp only [fieldBytes, List.length_append]
    omega
  rw [envelopeChecks_routes (s := receivedRequest s seq cmd dev fields payload k) hp (decide_eq_true hk) fit]
  change envelopeRoute (takeFields s.cfg.fbFieldOrder fields.length _) _
    (loadAux (takeFields s.cfg.fbFieldOrder fields.length _) _) = _
  rw [fieldBytes, parts, drop_flatMap_split32]

/-- `F-ENV` on an idle FujiBus engine is received, then checked. -/
theorem exec_fEnv (h : AwaitsFrame s (requestBody s.cfg seq cmd dev fields payload ++ [k])) (hf : fields.length < 256) :
    exec (.fEnv seq cmd dev fields payload k) s =
      envelopeChecks fields.length (fieldBytes s.cfg.fbFieldOrder fields ++ payload)
        (receivedRequest s seq cmd dev fields payload k) := by
  change rxBytes (frameBytes s.cfg (envBytes s.cfg seq cmd dev fields payload k)) s = _
  rw [envBytes_eq]
  refine (AwaitsFrame.checked h).trans ?_
  rw [fieldCount hf, receivedRequest]

end

theorem unsupported_fujibus {c : Config} (hb : c.bus = .fujibus) (e : Engine) :
    unsupported c e = fbRespond c e c.fbStUnsupported [] := by
  simp [unsupported, hb]

/-- A silent failure: the engine is idle with the code in `ERR`; the trace and `RXBUF` are as they were (R266). -/
theorem fail_refuses (e : Err) (s : State) :
    (fail e s).eng.phase = .idle ∧ (fail e s).eng.err = e ∧ (fail e s).trace = s.trace
      ∧ (fail e s).eng.rxBuf = s.eng.rxBuf :=
  ⟨rfl, rfl, rfl, rfl⟩

/-- A failure with its answer (R266). -/
theorem failWith_refuses (os : List Output) (e : Err) (s : State) :
    (failWith os e s).eng.phase = .idle ∧ (failWith os e s).eng.err = e ∧ (failWith os e s).trace = s.trace ++ os
      ∧ (failWith os e s).eng.rxBuf = s.eng.rxBuf :=
  ⟨failWith_phase os e s, failWith_err os e s, failWith_trace os e s, by simp [failWith]⟩

/-- Settles O46: the first failing step answers; every step leaves the envelope and its header registers. -/
theorem envelopeRefused : Obligations.EnvelopeRefused := by
  unfold Obligations.EnvelopeRefused
  intro s seq cmd dev k fields payload hv hb hp hst hf hfits hcount body good answer
  have hbody : body = requestBody s.cfg seq cmd dev fields payload := by
    simp only [body]
    rw [envBytes_eq, List.dropLast_concat]
  rw [envBytes_eq] at hfits hcount
  have awaits : AwaitsFrame s (requestBody s.cfg seq cmd dev fields payload ++ [k]) :=
    ⟨hv, hb, hp, hst, List.concat_ne_nil _ _, hfits, hcount⟩
  have verdict : (receivedRequest s seq cmd dev fields payload k).eng.cs.matched = decide good := by
    simp only [good, hbody]
    rfl
  obtain ⟨t, ht, kept⟩ := envelopeChecks_runs fields.length (fieldBytes s.cfg.fbFieldOrder fields ++ payload)
    (receivedRequest s seq cmd dev fields payload k)
  have run : exec (.fEnv seq cmd dev fields payload k) s = .next t := by
    rw [exec_fEnv awaits hf, ht]
  have left : LeavesRest s t := rxBytes_leavesRest run
  have routed (hpresent : slotPresent s.cfg dev = true) (hgood : good) {u : State}
      (hu : envelopeRoute fields payload (loadAux fields (receivedRequest s seq cmd dev fields payload k)) = .next u) :
      t = u := by
    have routes := envelopeChecks_request hpresent (hbody ▸ show checksum s.cfg body = k from hgood)
    exact Host.Outcome.next.inj (ht.symm.trans (routes.trans hu))
  refine ⟨t, run, fun i => ?envBuf, kept.fbSeq, ?fbPc, kept.command, kept.deviceId, left.cfg, left.cs, left.fr,
    left.script, left.returned, kept.taken, kept.draws, kept.hdrBuf, fun habsent hfirst => ?absent,
    fun hbad hfirst => ?badSum, fun hpresent hgood hunknown => ?unknown, fun ent hpresent hgood hent =>
      ⟨fun hd hpay => ?misdirected, fun hd hlen => ?tooLong⟩⟩
  case envBuf =>
    rw [kept.envBuf, hbody, receivedRequest_envBuf]
  case fbPc =>
    rw [kept.fbPc]
    exact fieldCount hf
  case absent =>
    cases ht.symm.trans (envelopeChecks_absent habsent fun hm => hfirst (of_decide_eq_false (verdict.symm.trans hm)))
    exact fail_refuses .nodev _
  case badSum =>
    cases ht.symm.trans (envelopeChecks_badSum (verdict.trans (decide_eq_false hbad)) hfirst)
    exact fail_refuses .csum _
  case unknown =>
    cases routed hpresent hgood (envelopeRoute_unknown hunknown)
    rw [unsupported_fujibus (by exact hb)]
    exact failWith_refuses _ .unsup _
  case misdirected =>
    cases routed hpresent hgood (envelopeRoute_misdirected hent hd hpay)
    exact failWith_refuses _ .dir _
  case tooLong =>
    cases routed hpresent hgood (envelopeRoute_tooLong hent (fun hne => absurd hd hne) hlen)
    exact fail_refuses .len _

theorem fieldLow_eq (fields : List Field) (i : Nat) :
    fieldLow fields i = ((fields[i]?).map (fun f => f.extractLsb' 0 8)).getD 0 := by
  unfold fieldLow
  cases fields[i]? <;> rfl

/-- Settles O47: a request without a failure is dispatched. -/
theorem envelopeAccepted : Obligations.EnvelopeAccepted := by
  unfold Obligations.EnvelopeAccepted
  intro s seq cmd dev fields payload ent hv hb hp hst hf hmax hpresent hent hdir hlen hcount body low frame k
  have hbody : body = requestBody s.cfg seq cmd dev fields payload := List.append_assoc _ _ _
  have size : (body ++ [k]).length = 5 + 4 * fields.length + payload.length := by
    rw [hbody, List.length_append, length_requestBody, List.length_singleton]
    omega
  have awaits : AwaitsFrame s (requestBody s.cfg seq cmd dev fields payload ++ [k]) := by
    refine ⟨hv, hb, hp, hst, List.concat_ne_nil _ _, ?_, ?_⟩ <;> rw [← hbody, size]
    · simp only [envMax]
      omega
    · exact hcount
  have run : exec (.fEnv seq cmd dev fields payload k) s =
      splitDispatch fields payload
        (loadEntry ent (loadAux fields (receivedRequest s seq cmd dev fields payload k))) := by
    rw [exec_fEnv awaits hf, envelopeChecks_request hpresent (hbody ▸ rfl)]
    exact envelopeRoute_splits hent hdir (Nat.le_min.mpr ⟨hlen, hmax⟩)
  have loaded :
      (loadEntry ent (loadAux fields (receivedRequest s seq cmd dev fields payload k))).eng.frame = frame := by
    simp only [frame, low, ← fieldLow_eq]
    rfl
  have unit := receivedRequest_cs s seq cmd dev fields payload k
  rw [← hbody, decide_eq_true (show checksum s.cfg body = k from rfl)] at unit
  have count := receivedRequest_envCnt s seq cmd dev fields payload k
  have stored := receivedRequest_envBuf s seq cmd dev fields payload k
  rw [← hbody] at count
  simp only [← hbody, List.length_append, List.length_singleton] at stored
  refine ⟨_, writeAll s.eng.rxBuf 0 payload, stored, writeAll_zero_read _ payload, ?_⟩
  rw [run, splitDispatch_eq (by exact hmax), loaded, ← unit, ← count, ← loaded]
  dsimp only [emit, setPhase, movedPayload, loadEntry, loadAux, lineAfter]
  rfl

end Sys2Proof.Laws
end

section
/-! The checksum unit (R91 to R101): what each of its operations does to a state, and a checksum as one fold of its bytes. -/

namespace Sys2Proof.Laws

open Sys2Proof.Machine

/-! ### The operations at the CS port (R91 to R97) -/

section

variable (s : State) (b : Byte)

theorem exec_csClr_home : exec (.csClr .cs b) s = .next (setCs (csClear s.cfg) s) := rfl

theorem exec_csAbs_home : exec (.csAbs .cs b) s = .next (setCs (csAbsorb s.cfg s.cs b) s) := rfl

theorem exec_csRd_home : exec (.csRd .cs b) s = .next (giveBack (.byte (csResult s.cfg s.cs)) s) := rfl

theorem exec_csChk_home : exec (.csChk .cs b) s =
    .next (giveBack (.bit (csResult s.cfg s.cs == b)) (setCs (csCheck s.cfg s.cs b) s)) := rfl

end

/-- Settles O1: each operation is its unit function on the stand-alone unit, by the generator. -/
theorem csClearsReadsAndChecks : Obligations.CsClearsReadsAndChecks := by
  unfold Obligations.CsClearsReadsAndChecks
  intro s x b start res
  have hstart : csClear s.cfg = { acc := start, matched := false } := rfl
  have hres : csResult s.cfg s.cs = res := rfl
  have hcheck : csCheck s.cfg s.cs b = { acc := s.cs.acc, matched := decide (res = b) } := rfl
  have hbit : (res == b) = decide (res = b) := rfl
  refine ⟨by simp [decodeOp], by simp [decodeOp], by simp [decodeOp], ?_, ?_, ?_⟩
  · rw [exec_csClr_home, hstart]
    rfl
  · rw [exec_csRd_home, hres]
    rfl
  · rw [exec_csChk_home, hcheck, hres, hbit]
    rfl

/-! ### The absorb step of each generator (R92 to R94) -/

/-- The end-around-carry sum of R92, the carry written as a quotient. -/
theorem add8Step_toNat_div_mod (a b : Byte) :
    (add8Step a b).toNat = (a.toNat + b.toNat) / 256 + (a.toNat + b.toNat) % 256 := by
  have ha := a.isLt
  have hb := b.isLt
  rw [add8Step_toNat]
  split <;> omega

/-- The shifts of R94 are one shift, iterated. -/
theorem crcShifts_eq_iterate (poly : Byte) (n : Nat) : crcShifts poly n = (crcShift poly)^[n] := by
  induction n with
  | zero => rfl
  | succ n ih =>
    funext r
    exact congrFun ih (crcShift poly r)

section

variable {c : Config} (acc b : Byte)

theorem absorbStep_add8 (h : c.csKind = .add8) : absorbStep c acc b = add8Step acc b := by simp [absorbStep, h]

theorem absorbStep_xor8 (h : c.csKind = .xor8) : absorbStep c acc b = acc ^^^ b := by simp [absorbStep, h]

theorem absorbStep_crc8 (h : c.csKind = .crc8) : absorbStep c acc b = (crcShift c.crcPoly)^[8] (acc ^^^ b) := by
  simp [absorbStep, h, crcShifts_eq_iterate]

end

/-- Settles O2: the new accumulator is the absorb step's, one clause per generator. -/
theorem csAbsAppliesTheGenerator : Obligations.CsAbsAppliesTheGenerator := by
  unfold Obligations.CsAbsAppliesTheGenerator
  intro s b
  refine ⟨by simp [decodeOp], absorbStep s.cfg s.cs.acc b, exec_csAbs_home s b, ?_, ?_, ?_⟩
  · intro h
    rw [absorbStep_add8 _ _ h, add8Step_toNat_div_mod]
  · exact absorbStep_xor8 _ _
  · exact absorbStep_crc8 _ _

/-! ### A checksum as a fold of its bytes (R101) -/

theorem csAbsorbAll_acc (c : Config) (u : CsUnit) (l : List Byte) :
    (csAbsorbAll c u l).acc = l.foldl (absorbStep c) u.acc := by
  induction l generalizing u with
  | nil => rfl
  | cons b l ih => exact ih (csAbsorb c u b)

theorem checksumOf_add8 (c : Config) (l : List Byte) : checksumOf .add8 c l = l.foldl add8Step 0x00 :=
  csAbsorbAll_acc { c with csKind := .add8 } _ l

theorem checksumOf_xor8 (c : Config) (l : List Byte) : checksumOf .xor8 c l = l.foldl (· ^^^ ·) 0x00 :=
  csAbsorbAll_acc { c with csKind := .xor8 } _ l

/-- The `CRC8` register after a list (R94). -/
def crcRegister (poly acc : Byte) (l : List Byte) : Byte := l.foldl (fun r b => (crcShift poly)^[8] (r ^^^ b)) acc

theorem checksumOf_crc8 (c : Config) (l : List Byte) :
    checksumOf .crc8 c l = crcRegister c.crcPoly c.crcInit l ^^^ c.crcXorOut :=
  congrArg (· ^^^ c.crcXorOut) (csAbsorbAll_acc { c with csKind := .crc8 } _ l)

end Sys2Proof.Laws
end

section
/-! The laws of `ADD8` (R98, R99): its checksum is a function of the sum of the bytes alone, the representative of that sum
modulo 255 that is 0 for the sum 0 only. -/

namespace Sys2Proof.Laws

open Sys2Proof.Machine

/-! ### The sum of the bytes (R98) -/

/-- `T` of R98. -/
def byteSum (l : List Byte) : Nat := (l.map BitVec.toNat).sum

@[simp] theorem byteSum_cons (b : Byte) (l : List Byte) : byteSum (b :: l) = b.toNat + byteSum l := by simp [byteSum]

@[simp] theorem byteSum_append (l r : List Byte) : byteSum (l ++ r) = byteSum l + byteSum r := by simp [byteSum]

@[simp] theorem byteSum_replicate_zero (n : Nat) : byteSum (List.replicate n 0x00) = 0 := by simp [byteSum]

theorem byteSum_perm {l r : List Byte} (h : l.Perm r) : byteSum l = byteSum r := (h.map _).sum_eq

theorem byteSum_eq_zero_iff (l : List Byte) : byteSum l = 0 ↔ ∀ b ∈ l, b = 0x00 := by
  simp [byteSum, List.sum_eq_zero_iff, BitVec.toNat_eq]

/-! ### The representative modulo 255 -/

/-- The closed form of R98: 0 for 0, else the value of 1 to 255 that agrees with `t` modulo 255. -/
def endAround (t : Nat) : Nat := if t = 0 then 0 else (t - 1) % 255 + 1

/-- One folding of the bits above the low byte into it (R98). -/
def foldCarry (t : Nat) : Nat := t / 256 + t % 256

theorem endAround_of_pos {t : Nat} (h : t ≠ 0) : endAround t = (t - 1) % 255 + 1 := if_neg h

theorem endAround_eq_zero_iff (t : Nat) : endAround t = 0 ↔ t = 0 := by
  unfold endAround
  split <;> omega

theorem endAround_of_lt {t : Nat} (h : t < 256) : endAround t = t := by
  unfold endAround
  split <;> omega

theorem endAround_foldCarry (t : Nat) : endAround (foldCarry t) = endAround t := by
  unfold endAround foldCarry
  split <;> split <;> omega

/-- The sum of two representatives is the folded sum of them. -/
theorem endAround_add (m n : Nat) : endAround (m + n) = foldCarry (endAround m + endAround n) := by
  unfold endAround foldCarry
  split <;> split <;> split <;> omega

/-- Two sums that differ in one byte agree only where that byte is 0 against 255 beside another summand. -/
theorem endAround_add_eq_iff {a b : Nat} (t : Nat) (ha : a < 256) (hb : b < 256) (hne : a ≠ b) :
    endAround (a + t) = endAround (b + t) ↔ ((a = 0 ∧ b = 255) ∨ (a = 255 ∧ b = 0)) ∧ t ≠ 0 := by
  unfold endAround
  split <;> split <;> omega

theorem endAround_iterate_foldCarry (n t : Nat) : endAround (foldCarry^[n] t) = endAround t := by
  induction n generalizing t with
  | zero => rfl
  | succ n ih => rw [Function.iterate_succ_apply, ih, endAround_foldCarry]

/-- Folding a sum that has bits above the low byte makes it smaller, so the folding ends. -/
theorem exists_foldCarry_lt (t : Nat) : ∃ n, foldCarry^[n] t < 256 := by
  induction t using Nat.strong_induction_on with
  | _ t ih =>
    by_cases h : t < 256
    · exact ⟨0, h⟩
    · obtain ⟨n, hn⟩ := ih (foldCarry t) (by unfold foldCarry; omega)
      exact ⟨n + 1, hn⟩

/-! ### The checksum (R98) -/

/-- The absorb step keeps the representative of the sum of what is absorbed and what is to come. -/
theorem foldl_add8Step_toNat (l : List Byte) (acc : Byte) :
    (l.foldl add8Step acc).toNat = endAround (acc.toNat + byteSum l) := by
  induction l generalizing acc with
  | nil => exact (endAround_of_lt acc.isLt).symm
  | cons b l ih =>
    rw [List.foldl_cons, ih, byteSum_cons, ← Nat.add_assoc, endAround_add, endAround_add (acc.toNat + b.toNat),
      add8Step_toNat_div_mod]
    exact congrArg (fun t => foldCarry (t + _)) (endAround_foldCarry _)

/-- The closed form of R98. -/
theorem checksumOf_add8_toNat (c : Config) (l : List Byte) :
    (checksumOf .add8 c l).toNat = endAround (byteSum l) := by
  rw [checksumOf_add8, foldl_add8Step_toNat]
  exact congrArg endAround (Nat.zero_add _)

/-- Two lists have one checksum exactly where their sums have one representative. -/
theorem checksumOf_add8_eq_iff (c : Config) (l r : List Byte) :
    checksumOf .add8 c l = checksumOf .add8 c r ↔ endAround (byteSum l) = endAround (byteSum r) := by
  rw [BitVec.toNat_eq, checksumOf_add8_toNat, checksumOf_add8_toNat]

theorem checksumOf_add8_eq_zero_iff (c : Config) (l : List Byte) :
    checksumOf .add8 c l = 0x00 ↔ ∀ b ∈ l, b = 0x00 := by
  rw [← byteSum_eq_zero_iff, ← endAround_eq_zero_iff, ← checksumOf_add8_toNat c]
  exact BitVec.toNat_eq

/-- Settles O9: each law is one of the representative of the sum. -/
theorem add8ClosedForm : Obligations.Add8ClosedForm := by
  unfold Obligations.Add8ClosedForm
  intro c
  refine ⟨fun l => (checksumOf_add8_eq_zero_iff c l).mpr, ?closed, ?perm, fun l => (checksumOf_add8_eq_zero_iff c l).mp,
    ?parts, fun l => exists_foldCarry_lt (byteSum l), ?folded, ?zeros⟩
  case closed =>
    rintro l ⟨b, hb, hne⟩
    have hpos : byteSum l ≠ 0 := fun h => hne ((byteSum_eq_zero_iff l).mp h b hb)
    rw [checksumOf_add8_toNat, endAround_of_pos hpos]
    rfl
  case perm =>
    intro l r h
    rw [checksumOf_add8_eq_iff, byteSum_perm h]
  case parts =>
    intro l r
    rw [checksumOf_add8_toNat, checksumOf_add8_toNat, checksumOf_add8_toNat, byteSum_append, endAround_add]
    rfl
  case folded =>
    intro l n hlt
    rw [checksumOf_add8_toNat, ← endAround_iterate_foldCarry n]
    exact (endAround_of_lt hlt).symm
  case zeros =>
    intro l n
    rw [checksumOf_add8_eq_iff, byteSum_append, byteSum_replicate_zero, Nat.add_zero]

/-! ### What is detected (R99) -/

/-- One corrupted byte is missed exactly where it is `0x00` against `0xFF` beside a non-zero byte. -/
theorem checksumOf_add8_replace_eq_iff (c : Config) (l r : List Byte) {a b : Byte} (hne : a ≠ b) :
    checksumOf .add8 c (l ++ a :: r) = checksumOf .add8 c (l ++ b :: r) ↔
      ((a = 0x00 ∧ b = 0xFF) ∨ (a = 0xFF ∧ b = 0x00)) ∧ ∃ d ∈ l ++ r, d ≠ 0x00 := by
  have hsum (x : Byte) : byteSum (l ++ x :: r) = x.toNat + byteSum (l ++ r) := by
    rw [byteSum_append, byteSum_cons, byteSum_append, Nat.add_left_comm]
  have hrest : byteSum (l ++ r) ≠ 0 ↔ ∃ d ∈ l ++ r, d ≠ 0x00 := by
    rw [Ne, byteSum_eq_zero_iff]
    push Not
    rfl
  rw [checksumOf_add8_eq_iff, hsum, hsum,
    endAround_add_eq_iff _ a.isLt b.isLt (fun h => hne (BitVec.eq_of_toNat_eq h)), hrest]
  simp only [BitVec.toNat_eq]
  rfl

/-- A pattern of errors that is neither no bit nor all bits changes a byte, and not between `0x00` and `0xFF`. -/
theorem xor_ne_and_not_zero_ones {m : Byte} (h0 : m ≠ 0x00) (hFF : m ≠ 0xFF) (b : Byte) :
    b ^^^ m ≠ b ∧ ¬ ((b ^^^ m = 0x00 ∧ b = 0xFF) ∨ (b ^^^ m = 0xFF ∧ b = 0x00)) := by
  refine ⟨by simpa using h0, ?_⟩
  rintro (⟨h, rfl⟩ | ⟨h, rfl⟩)
  · exact hFF (BitVec.xor_eq_zero_iff.mp h).symm
  · exact hFF (BitVec.zero_xor.symm.trans h)

/-- One bit of a byte is neither no bit nor all bits. -/
theorem oneBit_ne : ∀ i < 8, (1 : Byte) <<< i ≠ 0x00 ∧ (1 : Byte) <<< i ≠ 0xFF := by decide

/-- Settles O10: a flip of one bit is a corrupted byte, and none of the two that are missed. -/
theorem add8ErrorDetection : Obligations.Add8ErrorDetection := by
  unfold Obligations.Add8ErrorDetection
  intro c
  refine ⟨fun l r b i hi => ?_, fun l r a b => checksumOf_add8_replace_eq_iff c l r, fun l => ?_⟩
  · obtain ⟨h0, hFF⟩ := oneBit_ne i hi
    obtain ⟨hne, hnot⟩ := xor_ne_and_not_zero_ones h0 hFF b
    rw [Ne, checksumOf_add8_replace_eq_iff c l r hne]
    exact fun h => hnot h.1
  · rw [validate_eq]
    exact beq_self_eq_true _

end Sys2Proof.Laws
end

section
/-! The laws of `XOR8` and of `CRC8` (R100). Both are linear in the exclusive or: an error pattern is seen where its own
contribution is not zero. -/

namespace Sys2Proof.Laws

open Sys2Proof.Machine

/-! ### `XOR8` -/

section

variable (c : Config)

theorem checksumOf_xor8_nil : checksumOf .xor8 c [] = 0x00 := rfl

theorem checksumOf_xor8_cons (b : Byte) (l : List Byte) :
    checksumOf .xor8 c (b :: l) = b ^^^ checksumOf .xor8 c l := by
  rw [checksumOf_xor8, checksumOf_xor8, List.foldl_cons, BitVec.xor_comm 0x00 b]
  exact List.foldl_assoc

theorem checksumOf_xor8_perm {l r : List Byte} (h : l.Perm r) : checksumOf .xor8 c l = checksumOf .xor8 c r := by
  induction h with
  | nil => rfl
  | cons b _ ih => rw [checksumOf_xor8_cons, checksumOf_xor8_cons, ih]
  | swap a b l => simp only [checksumOf_xor8_cons, ← BitVec.xor_assoc, BitVec.xor_comm a b]
  | trans _ _ ih₁ ih₂ => exact ih₁.trans ih₂

theorem checksumOf_xor8_append (l r : List Byte) :
    checksumOf .xor8 c (l ++ r) = checksumOf .xor8 c l ^^^ checksumOf .xor8 c r := by
  induction l with
  | nil => exact BitVec.zero_xor.symm
  | cons b l ih => rw [List.cons_append, checksumOf_xor8_cons, checksumOf_xor8_cons, ih, BitVec.xor_assoc]

/-- An error pattern over a list contributes its own checksum. -/
theorem checksumOf_xor8_zipWith {l e : List Byte} (h : l.length = e.length) :
    checksumOf .xor8 c (List.zipWith (· ^^^ ·) l e) = checksumOf .xor8 c l ^^^ checksumOf .xor8 c e := by
  induction l generalizing e with
  | nil =>
    cases e with
    | nil => exact (BitVec.xor_self (x := checksumOf .xor8 c [])).symm
    | cons => cases h
  | cons a l ih =>
    cases e with
    | nil => cases h
    | cons b e =>
      rw [List.zipWith_cons_cons, checksumOf_xor8_cons, checksumOf_xor8_cons, checksumOf_xor8_cons,
        ih (Nat.succ.inj h)]
      ac_rfl

/-- Each bit of the checksum is the parity of that bit over the list. -/
theorem checksumOf_xor8_getLsbD (e : List Byte) (i : Nat) :
    (checksumOf .xor8 c e).getLsbD i = decide (e.countP (fun b => b.getLsbD i) % 2 = 1) := by
  induction e with
  | nil => simp [checksumOf_xor8_nil]
  | cons b e ih =>
    rw [checksumOf_xor8_cons, BitVec.getLsbD_xor, ih, List.countP_cons]
    cases b.getLsbD i
    · simp
    · rcases Nat.mod_two_eq_zero_or_one (e.countP (fun b => b.getLsbD i)) with h | h <;> simp [Nat.add_mod, h]

end

/-! ### The shifts of `CRC8` (R94) -/

section

variable {poly : Byte}

theorem crcShift_xor (x y : Byte) : crcShift poly (x ^^^ y) = crcShift poly x ^^^ crcShift poly y := by
  unfold crcShift
  rw [BitVec.getLsbD_xor, BitVec.shiftLeft_xor_distrib]
  cases x.getLsbD 7 <;> cases y.getLsbD 7
  · rfl
  · exact BitVec.xor_assoc _ _ _
  · simp only [Bool.true_xor, Bool.not_false, if_true, Bool.false_eq_true, if_false]
    ac_rfl
  · simp only [Bool.xor_self, Bool.false_eq_true, if_true, if_false]
    calc x <<< 1 ^^^ y <<< 1 = x <<< 1 ^^^ y <<< 1 ^^^ (poly ^^^ poly) := by simp
      _ = x <<< 1 ^^^ poly ^^^ (y <<< 1 ^^^ poly) := by ac_rfl

theorem crcShifts_xor (n : Nat) (x y : Byte) :
    (crcShift poly)^[n] (x ^^^ y) = (crcShift poly)^[n] x ^^^ (crcShift poly)^[n] y := by
  induction n generalizing x y with
  | zero => rfl
  | succ n ih => simp only [Function.iterate_succ_apply, crcShift_xor, ih]

/-- Without its top bit a register is shifted alone. -/
theorem crcShift_of_lt {x : Byte} (h : 2 * x.toNat < 256) : crcShift poly x = x <<< 1 := by
  have htop : x.getLsbD 7 = false := (BitVec.msb_eq_getLsbD_last x).symm.trans (BitVec.msb_eq_false_iff_two_mul_lt.mpr h)
  rw [crcShift, htop]
  rfl

/-- With its top bit a register feeds the polynomial back. -/
theorem crcShift_of_ge {x : Byte} (h : 256 ≤ 2 * x.toNat) : crcShift poly x = (x <<< 1) ^^^ poly := by
  have htop : x.getLsbD 7 = true := (BitVec.msb_eq_getLsbD_last x).symm.trans (BitVec.msb_eq_true_iff_two_mul_ge.mpr h)
  rw [crcShift, htop]
  rfl

/-- With an odd polynomial a shift loses nothing: what it fed back stands in bit 0. -/
theorem eq_zero_of_crcShift_eq_zero (hodd : poly.getLsbD 0 = true) {x : Byte} (h : crcShift poly x = 0x00) :
    x = 0x00 := by
  rcases Nat.lt_or_ge (2 * x.toNat) 256 with hx | hx
  · rw [crcShift_of_lt hx] at h
    have hdouble : x.toNat * 2 % 256 = 0 := by
      have := congrArg BitVec.toNat h
      rwa [BitVec.toNat_shiftLeft, Nat.shiftLeft_eq] at this
    exact BitVec.eq_of_toNat_eq (show x.toNat = 0 by omega)
  · rw [crcShift_of_ge hx] at h
    have hpoly : x <<< 1 = poly := BitVec.xor_eq_zero_iff.mp h
    simp [← hpoly] at hodd

theorem crcShift_injective (hodd : poly.getLsbD 0 = true) : Function.Injective (crcShift poly) := by
  intro x y h
  have hxor : crcShift poly (x ^^^ y) = 0x00 := (crcShift_xor x y).trans (BitVec.xor_eq_zero_iff.mpr h)
  exact BitVec.xor_eq_zero_iff.mp (eq_zero_of_crcShift_eq_zero hodd hxor)

theorem crcShifts_eq_zero_iff (hodd : poly.getLsbD 0 = true) (n : Nat) (x : Byte) :
    (crcShift poly)^[n] x = 0x00 ↔ x = 0x00 := by
  have hzero : (crcShift poly)^[n] 0x00 = 0x00 := Function.iterate_fixed rfl n
  exact ((crcShift_injective hodd).iterate n).eq_iff' hzero

/-- Where the top `n` bits are clear, `n` shifts feed nothing back. -/
theorem crcShifts_of_lt {n : Nat} {x : Byte} (h : x.toNat * 2 ^ n < 256) : (crcShift poly)^[n] x = x <<< n := by
  induction n with
  | zero => exact (BitVec.shiftLeft_zero x).symm
  | succ n ih =>
    rw [Nat.pow_succ, ← Nat.mul_assoc] at h
    have hshifted : (x <<< n).toNat = x.toNat * 2 ^ n := by
      rw [BitVec.toNat_shiftLeft, Nat.shiftLeft_eq]
      exact Nat.mod_eq_of_lt (by omega)
    rw [Function.iterate_succ_apply', ih (by omega), crcShift_of_lt (by omega), BitVec.shiftLeft_add]

section

variable (p : Byte) {k : Nat}

/-- The first byte of a burst `p` that ends `k` bits before the end of two bytes: its top `k` bits. -/
theorem burst_first (hk : k ≤ 8) : (p.zeroExtend 16 <<< k).extractLsb' 8 8 = p >>> (8 - k) := by
  refine BitVec.eq_of_getLsbD_eq fun i hi => ?_
  have hin : 8 + i < 16 := by omega
  have hbit : 8 + i - k = 8 - k + i := by omega
  simp [hi, hin, hbit, show ¬ 8 + i < k by omega]

/-- The second byte of such a burst: the other bits. -/
theorem burst_second : (p.zeroExtend 16 <<< k).extractLsb' 0 8 = p <<< k := by
  refine BitVec.eq_of_getLsbD_eq fun i hi => ?_
  simp [hi, show i < 16 by omega, BitVec.getLsbD_eq_getElem (show i - k < 8 by omega)]

/-- A byte is its top `k` bits and its other bits. -/
theorem top_xor_rest (hk : k ≤ 8) : (p >>> (8 - k)) <<< (8 - k) ^^^ (p <<< k) >>> k = p := by
  refine BitVec.eq_of_getLsbD_eq fun i hi => ?_
  by_cases h : i < 8 - k
  · simp [h, show k + i < 8 by omega, BitVec.getLsbD_eq_getElem hi]
  · have hbit : 8 - k + (i - (8 - k)) = i := by omega
    simp [hi, h, hbit, show ¬ k + i < 8 by omega]

theorem rest_shiftLeft : ((p <<< k) >>> k) <<< k = p <<< k := by
  refine BitVec.eq_of_getLsbD_eq fun i hi => ?_
  by_cases h : i < k
  · simp [h]
  · have hbit : k + (i - k) = i := by omega
    simp [hi, h, hbit]

/-- What the two bytes of a burst contribute is what `k` shifts make of it: up to there neither its top `k` bits, brought
back to their places, nor the other bits feed anything back. -/
theorem crcShifts_burst (hk : k ≤ 8) :
    (crcShift poly)^[8] (p >>> (8 - k)) ^^^ p <<< k = (crcShift poly)^[k] p := by
  have htop : (crcShift poly)^[8 - k] (p >>> (8 - k)) = (p >>> (8 - k)) <<< (8 - k) := by
    refine crcShifts_of_lt (lt_of_le_of_lt ?_ p.isLt)
    rw [BitVec.toNat_ushiftRight, Nat.shiftRight_eq_div_pow]
    exact Nat.div_mul_le_self _ _
  have hrest : (crcShift poly)^[k] ((p <<< k) >>> k) = p <<< k := by
    rw [crcShifts_of_lt, rest_shiftLeft]
    refine lt_of_le_of_lt ?_ (p <<< k).isLt
    rw [BitVec.toNat_ushiftRight, Nat.shiftRight_eq_div_pow]
    exact Nat.div_mul_le_self _ _
  calc (crcShift poly)^[8] (p >>> (8 - k)) ^^^ p <<< k
      = (crcShift poly)^[k + (8 - k)] (p >>> (8 - k)) ^^^ p <<< k := by rw [Nat.add_sub_cancel' hk]
    _ = (crcShift poly)^[k] ((p >>> (8 - k)) <<< (8 - k)) ^^^ (crcShift poly)^[k] ((p <<< k) >>> k) := by
        rw [Function.iterate_add_apply, htop, hrest]
    _ = (crcShift poly)^[k] p := by rw [← crcShifts_xor, top_xor_rest p hk]

end

end

/-! ### The register of `CRC8` over a list (R94, R100) -/

section

variable {poly : Byte}

theorem crcRegister_cons (acc b : Byte) (l : List Byte) :
    crcRegister poly acc (b :: l) = crcRegister poly ((crcShift poly)^[8] (acc ^^^ b)) l := rfl

theorem crcRegister_append (acc : Byte) (l r : List Byte) :
    crcRegister poly acc (l ++ r) = crcRegister poly (crcRegister poly acc l) r := List.foldl_append

/-- Different registers stay different under the same bytes. -/
theorem crcRegister_injective (hodd : poly.getLsbD 0 = true) (l : List Byte) :
    Function.Injective (fun acc => crcRegister poly acc l) := by
  induction l with
  | nil => exact Function.injective_id
  | cons b l ih =>
    intro x y h
    exact (BitVec.xor_left_inj b).mp ((crcShift_injective hodd).iterate 8 (ih h))

/-- Bytes before and after an error do not hide it. -/
theorem checksumOf_crc8_between (c : Config) (hodd : c.crcPoly.getLsbD 0 = true) {m m' : List Byte}
    (h : ∀ acc, crcRegister c.crcPoly acc m ≠ crcRegister c.crcPoly acc m') (l r : List Byte) :
    checksumOf .crc8 c (l ++ (m ++ r)) ≠ checksumOf .crc8 c (l ++ (m' ++ r)) := by
  simp only [checksumOf_crc8, crcRegister_append, Ne, BitVec.xor_left_inj]
  exact fun heq => h _ (crcRegister_injective hodd r heq)

/-- A changed byte changes the register. -/
theorem crcRegister_byte_ne (hodd : poly.getLsbD 0 = true) {a b : Byte} (hne : a ≠ b) (acc : Byte) :
    crcRegister poly acc [a] ≠ crcRegister poly acc [b] :=
  fun h => hne ((BitVec.xor_right_inj acc).mp ((crcShift_injective hodd).iterate 8 h))

/-- A pattern over two bytes leaves the register as it is only where its second byte undoes the shifts of its first. -/
theorem crcRegister_pair_eq_iff (hodd : poly.getLsbD 0 = true) (acc a b e f : Byte) :
    crcRegister poly acc [a ^^^ e, b ^^^ f] = crcRegister poly acc [a, b] ↔ (crcShift poly)^[8] e ^^^ f = 0x00 := by
  have hreg : (crcShift poly)^[8] (acc ^^^ (a ^^^ e)) ^^^ (b ^^^ f)
      = ((crcShift poly)^[8] (acc ^^^ a) ^^^ b) ^^^ ((crcShift poly)^[8] e ^^^ f) := by
    rw [← BitVec.xor_assoc acc, crcShifts_xor]
    ac_rfl
  have hself (x y : Byte) : x ^^^ y = x ↔ y = 0x00 := by simp
  simp only [crcRegister_cons, (crcRegister_injective hodd []).eq_iff,
    ((crcShift_injective hodd).iterate 8).eq_iff]
  rw [hreg, hself]

end

/-- Settles O11: `XOR8` by its equations for a list, `CRC8` by the shifts of its odd polynomial. -/
theorem xor8AndCrc8Laws : Obligations.Xor8AndCrc8Laws := by
  unfold Obligations.Xor8AndCrc8Laws
  intro c
  refine ⟨fun l r => checksumOf_xor8_perm c, checksumOf_xor8_append c, fun l e => checksumOf_xor8_zipWith c,
    fun e i _ => checksumOf_xor8_getLsbD c e i, fun hpoly hinit hout => ?_⟩
  have hodd : c.crcPoly.getLsbD 0 = true := by rw [hpoly]; rfl
  have hvalue (l : List Byte) : checksumOf .crc8 c l = crcRegister 0x07 0x00 l := by
    rw [checksumOf_crc8, hpoly, hinit, hout]
    exact BitVec.xor_zero
  refine ⟨?order, ?byte, ?burst, ?check⟩
  case order =>
    have h12 : checksumOf .crc8 c [0x01, 0x02] = 0x1B := (hvalue _).trans (by simp [crcRegister, crcShift])
    have h21 : checksumOf .crc8 c [0x02, 0x01] = 0x2D := (hvalue _).trans (by simp [crcRegister, crcShift])
    rw [h12, h21]
    decide
  case byte =>
    intro l r a b hne
    exact checksumOf_crc8_between c hodd (crcRegister_byte_ne hodd hne) l r
  case burst =>
    intro l r a b p k hp hk
    have hseen (acc : Byte) : crcRegister c.crcPoly acc [a ^^^ p >>> (8 - k), b ^^^ p <<< k]
        ≠ crcRegister c.crcPoly acc [a, b] := by
      rw [Ne, crcRegister_pair_eq_iff hodd, crcShifts_burst p hk, crcShifts_eq_zero_iff hodd]
      exact hp
    rw [burst_first p hk, burst_second]
    exact checksumOf_crc8_between c hodd hseen l r
  case check => exact (hvalue _).trans (by simp [crcRegister, crcShift])

end Sys2Proof.Laws
end

section
/-! The framer unit (R110 to R122): its operations at the FR port, the shape of a stuffed list, and what the decoder
makes of one, of a malformed one, and of delimiters. -/

namespace Sys2Proof.Laws

open Sys2Proof.Machine

/-! ### The operations at the FR port (R111 to R118) -/

section

variable (s : State) (b : Byte)

theorem exec_encBegin_home : exec (.encBegin .fr b) s = .next (giveBack (.bytes (encBegin s.cfg)) s) := rfl

theorem exec_encByte_home : exec (.encByte .fr b) s = .next (giveBack (.bytes (encByte s.cfg b)) s) := rfl

theorem exec_encEnd_home : exec (.encEnd .fr b) s = .next (giveBack (.bytes (encEnd s.cfg)) s) := rfl

theorem exec_decByte_home : exec (.decByte .fr b) s =
    .next (giveBack (.decoder (decStep s.cfg s.fr b).2) (setFr (decStep s.cfg s.fr b).1 s)) := rfl

theorem exec_decRst_home : exec (.decRst .fr b) s = .next (giveBack (.decoder .nothing) (setFr decReset s)) := rfl

end

/-- Settles O4: each operation gives back its bytes. -/
theorem encoderReturnsItsBytes : Obligations.EncoderReturnsItsBytes := by
  unfold Obligations.EncoderReturnsItsBytes
  intro s x b
  exact ⟨by simp [decodeOp], by simp [decodeOp], by simp [decodeOp],
    exec_encBegin_home s x, exec_encByte_home s b, exec_encEnd_home s x⟩

/-- Settles O5: `DEC_BYTE` is one step of the decoder on the stand-alone unit, by `DEC_ST`. -/
theorem decByteAndDecRst : Obligations.DecByteAndDecRst := by
  unfold Obligations.DecByteAndDecRst
  intro s b x
  refine ⟨by simp [decodeOp], by simp [decodeOp], exec_decRst_home s x, (decStep s.cfg s.fr b).1,
    (decStep s.cfg s.fr b).2, exec_decByte_home s b, fun hunt => ?_, fun data => ?_, fun esc => ?_⟩
  · rw [decStep_hunt _ _ hunt]
    rfl
  · have ok : (!s.fr.err) = decide (s.fr.err = false) := by cases s.fr.err <;> rfl
    rw [decStep_data _ _ data, decData, ok, data]
  · rw [decStep_esc _ _ esc]
    rfl

/-! ### The shape of a stuffed list (R112, R114) -/

/-- The other half of `framing_distinct`: neither substitute is the escape (R70, R294). -/
theorem substitute_ne_fbEsc {c : Config} (hn : (framingBytes c).Nodup) {d : Byte}
    (hd : d = c.fbEscEnd ∨ d = c.fbEscEsc) : d ≠ c.fbEsc := by
  simp only [framingBytes, List.nodup_cons, List.mem_cons, not_or] at hn
  obtain ⟨-, ⟨hescEnd, hescEsc, -⟩, -⟩ := hn
  rcases hd with rfl | rfl
  · exact Ne.symm hescEnd
  · exact Ne.symm hescEsc

/-- A byte is encoded as an escape and its substitute, or as itself (R112). -/
theorem encByte_cases (c : Config) (b : Byte) :
    (∃ d, (d = c.fbEscEnd ∨ d = c.fbEscEsc) ∧ encByte c b = [c.fbEsc, d])
      ∨ (b ≠ c.fbEsc ∧ encByte c b = [b]) := by
  unfold encByte
  split
  · exact .inl ⟨_, .inl rfl, rfl⟩
  · split
    · exact .inl ⟨_, .inr rfl, rfl⟩
    · exact .inr ⟨‹_›, rfl⟩

theorem length_encByte (c : Config) (b : Byte) : 1 ≤ (encByte c b).length ∧ (encByte c b).length ≤ 2 := by
  obtain ⟨d, -, h⟩ | ⟨-, h⟩ := encByte_cases c b <;> simp [h]

theorem length_encodeEscape (c : Config) (p : List Byte) :
    p.length ≤ (encodeEscape c p).length ∧ (encodeEscape c p).length ≤ 2 * p.length := by
  induction p with
  | nil => simp
  | cons b p ih =>
    have hb := length_encByte c b
    simp only [encodeEscape_cons, List.length_append, List.length_cons]
    omega

/-- Every escape in a stuffed list is followed by a substitute (R114). -/
theorem encodeEscape_escape_followed {c : Config} (hn : (framingBytes c).Nodup) {p l r : List Byte}
    (h : encodeEscape c p = l ++ c.fbEsc :: r) : r.head? = some c.fbEscEnd ∨ r.head? = some c.fbEscEsc := by
  induction p generalizing l with
  | nil => simp at h
  | cons b p ih =>
    rw [encodeEscape_cons] at h
    obtain ⟨d, hd, henc⟩ | ⟨hb, henc⟩ := encByte_cases c b
    · rw [henc] at h
      match l with
      | [] =>
        obtain rfl : d :: encodeEscape c p = r := by simpa using h
        simpa using hd
      | [x] =>
        obtain ⟨-, hesc, -⟩ : c.fbEsc = x ∧ d = c.fbEsc ∧ encodeEscape c p = r := by simpa using h
        exact absurd hesc (substitute_ne_fbEsc hn hd)
      | x :: y :: l =>
        obtain ⟨-, -, hrest⟩ : c.fbEsc = x ∧ d = y ∧ encodeEscape c p = l ++ c.fbEsc :: r := by simpa using h
        exact ih hrest
    · rw [henc] at h
      match l with
      | [] =>
        obtain ⟨hesc, -⟩ : b = c.fbEsc ∧ encodeEscape c p = r := by simpa using h
        exact absurd hesc hb
      | x :: l =>
        obtain ⟨-, hrest⟩ : b = x ∧ encodeEscape c p = l ++ c.fbEsc :: r := by simpa using h
        exact ih hrest

/-- Outside a frame a delimiter opens one (R115). -/
theorem decStep_hunt_fbEnd {c : Config} {u : FrUnit} (hst : u.st = .hunt) :
    decStep c u c.fbEnd = (decInside, .frameStart) := by
  rw [decStep_hunt _ _ hst, decHunt, if_pos rfl, decInside]

/-- Settles O12: by the two shapes of an encoded byte. -/
theorem encodeEscapeShape : Obligations.EncodeEscapeShape := by
  unfold Obligations.EncodeEscapeShape
  intro c hn
  refine ⟨fun b p => ⟨rfl, encodeEscape_cons c b p, rfl, (length_encodeEscape c p).1, (length_encodeEscape c p).2,
    fbEnd_notMem_encodeEscape hn p, fun l r => encodeEscape_escape_followed hn⟩, rfl, fun u hunt => ?_⟩
  have hagain : decStep c decInside c.fbEnd = (decInside, .nothing) := by simp [decStep, decData, decInside]
  have hframe : frameBytes c [] = [c.fbEnd, c.fbEnd] := rfl
  simp [hframe, decRun_cons, decStep_hunt_fbEnd hunt, hagain]

/-! ### The decoder on a stuffed list (R120) -/

/-- What the decoder returns for the encoding of a byte: `Nothing` first where it is an escape pair (R120). -/
def encByteOuts (c : Config) (b : Byte) : List DecOut :=
  if b = c.fbEnd ∨ b = c.fbEsc then [.nothing, .data b] else [.data b]

section

variable {c : Config} {u : FrUnit} {b : Byte}

theorem decStep_data_fbEsc (hesc : c.fbEsc ≠ c.fbEnd) (hst : u.st = .data) :
    decStep c u c.fbEsc = ({ u with st := .esc }, .nothing) := by
  rw [decStep_data _ _ hst, decData, if_neg hesc, if_pos rfl]

theorem decStep_data_plain (hst : u.st = .data) (hend : b ≠ c.fbEnd) (hesc : b ≠ c.fbEsc) :
    decStep c u b = ({ u with ne := true }, .data b) := by
  rw [decStep_data _ _ hst, decData, if_neg hend, if_neg hesc]

theorem decStep_esc_fbEscEnd (hst : u.st = .esc) :
    decStep c u c.fbEscEnd = ({ u with st := .data, ne := true }, .data c.fbEnd) := by
  rw [decStep_esc _ _ hst, decEsc, if_pos rfl]

theorem decStep_esc_fbEscEsc (hsub : c.fbEscEsc ≠ c.fbEscEnd) (hst : u.st = .esc) :
    decStep c u c.fbEscEsc = ({ u with st := .data, ne := true }, .data c.fbEsc) := by
  rw [decStep_esc _ _ hst, decEsc, if_neg hsub, if_pos rfl]

theorem decStep_esc_malformed (hst : u.st = .esc) (hsub : ¬ (b = c.fbEscEnd ∨ b = c.fbEscEsc)) (hend : b ≠ c.fbEnd) :
    decStep c u b = ({ u with st := .data, err := true }, .nothing) := by
  obtain ⟨h1, h2⟩ := not_or.mp hsub
  rw [decStep_esc _ _ hst, decEsc, if_neg h1, if_neg h2, if_neg hend]

theorem decRun_encByte_eq (hn : (framingBytes c).Nodup) (hst : u.st = .data) (b : Byte) :
    decRun c u (encByte c b) = ({ u with ne := true }, encByteOuts c b) := by
  obtain ⟨hesc, -, -, hsub⟩ := framing_distinct hn
  by_cases h1 : b = c.fbEnd
  · subst h1
    simp [encByte_end, encByteOuts, decRun_cons, decStep_data_fbEsc hesc hst, decStep_esc_fbEscEnd, hst]
  by_cases h2 : b = c.fbEsc
  · subst h2
    simp [encByte_esc hesc, encByteOuts, decRun_cons, decStep_data_fbEsc hesc hst, decStep_esc_fbEscEsc hsub, hst]
  · simp [encByte_other h1 h2, encByteOuts, h1, h2, decRun_cons, decStep_data_plain hst h1 h2]

theorem decRun_encodeEscape_eq (hn : (framingBytes c).Nodup) (hst : u.st = .data) (p : List Byte) :
    decRun c u (encodeEscape c p) = ({ u with ne := u.ne || !p.isEmpty }, p.flatMap (encByteOuts c)) := by
  induction p generalizing u with
  | nil => simp
  | cons b p ih =>
    have hrest := ih (u := { u with ne := true }) hst
    simp [decRun_append, decRun_encByte_eq hn hst, hrest]

end

/-- Settles O13: the decoder inside the frame returns each byte, between the two delimiters. -/
theorem escapeRoundTrip : Obligations.EscapeRoundTrip := by
  unfold Obligations.EscapeRoundTrip
  intro c hn p
  refine ⟨decodeEscape_encodeEscape hn p, fun hp u hunt => ?_⟩
  have hbody : decRun c decInside (encodeEscape c p) = ({ decInside with ne := true }, p.flatMap (encByteOuts c)) := by
    rw [decRun_encodeEscape_eq hn rfl]
    simp [hp]
  have hclose : decStep c { decInside with ne := true } c.fbEnd =
      ({ st := .hunt, err := false, ne := true }, .frameEnd true) := by simp [decStep, decData, decInside]
  have hrun : decRun c u (frameBytes c p) = ({ st := .hunt, err := false, ne := true },
      [.frameStart] ++ p.flatMap (encByteOuts c) ++ [.frameEnd true]) := by
    have hframe : frameBytes c p = c.fbEnd :: (encodeEscape c p ++ [c.fbEnd]) := rfl
    simp [hframe, decRun_cons, decRun_append, decStep_hunt_fbEnd hunt, hbody, hclose]
  rw [hrun]
  exact ⟨rfl, rfl⟩

/-! ### The decoder on a list without a delimiter (R116, R117, R119) -/

section

variable {c : Config} {u : FrUnit}

theorem decRun_cons_fst (c : Config) (u : FrUnit) (b : Byte) (l : List Byte) :
    (decRun c u (b :: l)).1 = (decRun c (decStep c u b).1 l).1 := rfl

/-- Inside a frame only a delimiter ends it; until then `DEC_ERR` and `DEC_NE` stay set, and data sets `DEC_NE`. -/
theorem decStep_noEnd {b : Byte} (hu : u.st ≠ .hunt) (hb : b ≠ c.fbEnd) :
    (decStep c u b).1.st ≠ .hunt ∧ (u.err = true → (decStep c u b).1.err = true)
      ∧ ((u.ne = true ∨ ∃ d, (decStep c u b).2 = .data d) → (decStep c u b).1.ne = true) := by
  rcases hst : u.st with _ | _ | _
  · exact absurd hst hu
  · rw [decStep_data c b hst, decData, if_neg hb]
    split <;> simp [hst]
  · rw [decStep_esc c b hst, decEsc, if_neg hb]
    split
    · simp
    · split <;> simp

theorem decRun_noEnd {l : List Byte} (hu : u.st ≠ .hunt) (hl : c.fbEnd ∉ l) :
    (decRun c u l).1.st ≠ .hunt ∧ (u.err = true → (decRun c u l).1.err = true)
      ∧ ((u.ne = true ∨ ∃ d, .data d ∈ (decRun c u l).2) → (decRun c u l).1.ne = true) := by
  induction l generalizing u with
  | nil => simpa using hu
  | cons b l ih =>
    obtain ⟨hb, hl⟩ := List.ne_and_not_mem_of_not_mem_cons hl
    obtain ⟨hst, herr, hne⟩ := decStep_noEnd hu (Ne.symm hb)
    obtain ⟨hst', herr', hne'⟩ := ih hst hl
    refine ⟨hst', fun h => herr' (herr h), ?_⟩
    rintro (h | ⟨d, hd⟩)
    · exact hne' (.inl (hne (.inl h)))
    · rcases List.mem_cons.mp hd with hd | hd
      · exact hne' (.inl (hne (.inr ⟨d, hd.symm⟩)))
      · exact hne' (.inr ⟨d, hd⟩)

end

/-! ### The well-formed stuffed lists (R121) -/

section

variable {c : Config}

/-- Every well-formed stuffed list is the encoding of some list: each pair, and each other byte, is one encoded byte. -/
theorem exists_encodeEscape_of_wellStuffed (hn : (framingBytes c).Nodup) {l : List Byte} (h : wellStuffed c l = true) :
    ∃ p, encodeEscape c p = l := by
  obtain ⟨hesc, -, -, -⟩ := framing_distinct hn
  fun_induction wellStuffed c l with
  | case1 => exact ⟨[], rfl⟩
  | case2 b =>
    obtain ⟨h1, h2⟩ : b ≠ c.fbEnd ∧ b ≠ c.fbEsc := by simpa using h
    exact ⟨[b], by simp [encByte_other h1 h2]⟩
  | case3 => contradiction
  | case4 d rest _ ih =>
    obtain ⟨hd, hrest⟩ : (d = c.fbEscEnd ∨ d = c.fbEscEsc) ∧ wellStuffed c rest = true := by simpa using h
    obtain ⟨p, rfl⟩ := ih hrest
    rcases hd with rfl | rfl
    · exact ⟨c.fbEnd :: p, by simp [encByte_end]⟩
    · exact ⟨c.fbEsc :: p, by simp [encByte_esc hesc]⟩
  | case5 b d rest h1 h2 ih =>
    obtain ⟨p, hp⟩ := ih h
    exact ⟨b :: p, by simp [encByte_other h1 h2, hp]⟩

/-- A list that the decoder takes inside a frame without an error and without an open escape is well formed: a malformed
escape sets `DEC_ERR`, which stays set. -/
theorem wellStuffed_of_decRun (hn : (framingBytes c).Nodup) {u : FrUnit} {l : List Byte} (hu : u.st = .data)
    (hl : c.fbEnd ∉ l) (hst : (decRun c u l).1.st = .data) (herr : (decRun c u l).1.err = false) :
    wellStuffed c l = true := by
  obtain ⟨hesc, -, -, hsub⟩ := framing_distinct hn
  fun_induction wellStuffed c l generalizing u with
  | case1 => rfl
  | case2 b =>
    have hend : b ≠ c.fbEnd := by simpa [eq_comm] using hl
    have hplain : b ≠ c.fbEsc := by
      rintro rfl
      simp [decRun_cons, decStep_data_fbEsc hesc hu] at hst
    simp [hend, hplain]
  | case3 => simp at hl
  | case4 d rest _ ih =>
    obtain ⟨-, hd, hrest⟩ : c.fbEnd ≠ c.fbEsc ∧ c.fbEnd ≠ d ∧ c.fbEnd ∉ rest := by simpa using hl
    rw [decRun_cons_fst, decStep_data_fbEsc hesc hu, decRun_cons_fst] at hst herr
    by_cases hds : d = c.fbEscEnd ∨ d = c.fbEscEsc
    · have hrestWell : wellStuffed c rest = true := by
        rcases hds with rfl | rfl
        · rw [decStep_esc_fbEscEnd rfl] at hst herr
          exact ih rfl hrest hst herr
        · rw [decStep_esc_fbEscEsc hsub rfl] at hst herr
          exact ih rfl hrest hst herr
      simpa [hrestWell] using hds
    · rw [decStep_esc_malformed rfl hds (Ne.symm hd)] at herr
      obtain ⟨-, hsticky, -⟩ := decRun_noEnd (u := { u with st := .data, err := true }) (by simp) hrest
      exact absurd (hsticky rfl) (by simp [herr])
  | case5 b d rest h1 h2 ih =>
    rw [decRun_cons_fst, decStep_data_plain hu h1 h2] at hst herr
    exact ih (u := { u with ne := true }) hu (List.ne_and_not_mem_of_not_mem_cons hl).2 hst herr

theorem wellStuffed_of_decodeEscape (hn : (framingBytes c).Nodup) {l p : List Byte} (h : decodeEscape c l = .ok p) :
    wellStuffed c l = true := by
  unfold decodeEscape at h
  split at h
  · contradiction
  · rename_i hl
    dsimp only at h
    split at h
    · rename_i hdone
      obtain ⟨hst, herr⟩ := hdone
      exact wellStuffed_of_decRun hn rfl (by simpa using hl) hst herr
    · contradiction

end

/-- Settles O14: the well-formed lists are the encodings, and only they are decoded. -/
theorem escapeBijection : Obligations.EscapeBijection := by
  unfold Obligations.EscapeBijection
  intro c hn
  refine ⟨fun p q h => ?injective, fun l h => ?inverse, fun l h => ?fails⟩
  case injective =>
    have hpq : (.ok p : Except Reject (List Byte)) = .ok q := by
      rw [← decodeEscape_encodeEscape hn p, h, decodeEscape_encodeEscape hn q]
    exact Except.ok.inj hpq
  case inverse =>
    obtain ⟨p, rfl⟩ := exists_encodeEscape_of_wellStuffed hn h
    exact ⟨p, decodeEscape_encodeEscape hn p, rfl⟩
  case fails =>
    cases hdec : decodeEscape c l with
    | error why => exact ⟨why, rfl⟩
    | ok p =>
      rw [wellStuffed_of_decodeEscape hn hdec] at h
      contradiction

/-! ### Delimiters (R122) -/

/-- A delimiter ends a frame, or leaves the decoder at the start of one: it was outside, or at that start already. -/
theorem decStep_fbEnd_cases {c : Config} (hn : (framingBytes c).Nodup) (u : FrUnit) :
    ((decStep c u c.fbEnd).1.st = .hunt ∧ ∃ ok, (decStep c u c.fbEnd).2 = .frameEnd ok)
      ∨ ((decStep c u c.fbEnd).1 = decInside ∧ (u.st = .hunt ∨ u = decInside)) := by
  obtain ⟨-, hescEnd, hescEsc, -⟩ := framing_distinct hn
  rcases hst : u.st with _ | _ | _
  · rw [decStep_hunt_fbEnd hst]
    exact .inr ⟨rfl, .inl rfl⟩
  · rw [decStep_data _ _ hst, decData, if_pos rfl]
    split
    · rename_i hstart
      obtain ⟨hne, herr⟩ := hstart
      have hu : u = decInside := by
        cases u
        simp_all [decInside]
      exact .inr ⟨hu, .inr hu⟩
    · exact .inl ⟨rfl, _, rfl⟩
  · rw [decStep_esc _ _ hst, decEsc, if_neg (Ne.symm hescEnd), if_neg (Ne.symm hescEsc), if_pos rfl]
    exact .inl ⟨rfl, _, rfl⟩

/-- A delimiter inside a frame that has delivered data ends it. -/
theorem decStep_fbEnd_ends {c : Config} (hn : (framingBytes c).Nodup) {u : FrUnit} (hst : u.st ≠ .hunt)
    (hne : u.ne = true) : ∃ ok, (decStep c u c.fbEnd).2 = .frameEnd ok := by
  obtain ⟨-, hok⟩ | ⟨-, hhunt | rfl⟩ := decStep_fbEnd_cases hn u
  · exact hok
  · exact absurd hhunt hst
  · exact absurd hne (by decide)

/-- Settles O15: the first delimiter ends a frame itself, or the second ends the frame that the first has opened. -/
theorem decoderResynchronises : Obligations.DecoderResynchronises := by
  unfold Obligations.DecoderResynchronises
  intro c u hn
  obtain ⟨hst, ok, hok⟩ | ⟨hin, -⟩ := decStep_fbEnd_cases hn u
  · exact ⟨.inl hst, fun l _ _ => ⟨ok, by simp [decRun_cons, hok]⟩⟩
  · refine ⟨.inr (by rw [hin]; exact ⟨rfl, rfl⟩), fun l hl hdata => ?_⟩
    obtain ⟨hst, -, hne⟩ := decRun_noEnd (u := decInside) (by decide) hl
    obtain ⟨ok, hok⟩ := decStep_fbEnd_ends hn hst (hne (.inr hdata))
    exact ⟨ok, by simp [decRun_cons, decRun_append, hin, hok]⟩

end Sys2Proof.Laws
end

section
/-! A failure (R134, R266), the events that cut across the phases (R147 to R155), and the response to the dispatcher's
answer (R149): each as an equation of states. -/

namespace Sys2Proof.Laws

open Sys2Proof.Machine

/-! ### No stop but the expected ones (R130) -/

/-- An input is an instruction, which runs, or it meets an expected stop. -/
theorem takeInput_next_or_stops {s : State} (h : Inv s) (x : Stimulus) :
    (∃ t, takeInput x s = .next t) ∨ expectedStop (takeInput x s) := by
  have runs (i : Instr) : ∃ t, exec i s = .next t := (exec_keeps i h).imp fun _ ht => ht.1
  cases x with
  | op u w => exact .inl (runs _)
  | ev w beside => exact .inl (runs _)
  | tables slots table =>
    simp only [takeInput, replaceTables]
    split
    · exact .inl ⟨_, rfl⟩
    · exact .inr (.inr rfl)
  | wire f bytes =>
    simp only [takeInput]
    split
    · exact .inl (runs _)
    · exact .inr (.inl ⟨_, rfl⟩)

/-- Settles O52: the invariant lets every instruction run, and a step is a wait or an input taken. -/
theorem engineNeverBlocksAndNeverFaults : Obligations.EngineNeverBlocksAndNeverFaults := by
  unfold Obligations.EngineNeverBlocksAndNeverFaults
  intro s h
  refine ⟨fun i => (exec_keeps i h).imp fun _ ht => ht.1, ?_⟩
  cases hscript : s.script with
  | nil => exact .inl ⟨s, step_waits hscript⟩
  | cons x rest =>
    rw [step_takes hscript]
    exact takeInput_next_or_stops (s := { s with script := rest }) (Inv_congr h rfl rfl) x

/-! ### Failures (R134, R266) -/

/-- Outputs that leave the output line where it was only lengthen the trace. -/
theorem emitAll_of_level {os : List Output} {s : State}
    (h : os.foldl (fun v o => lineAfter o v) s.eng.lineOut = s.eng.lineOut) :
    emitAll os s = { s with trace := s.trace ++ os } := by
  rw [emitAll_eq, h]

/-- Settles O18: the action is appended, then `fail` writes its registers. -/
theorem failureReturnsToIdle : Obligations.FailureReturnsToIdle := by
  unfold Obligations.FailureReturnsToIdle
  intro os e s h
  rw [failWith, emitAll_of_level h]
  rfl

section

variable {s : State} (hb : s.cfg.bus ≠ .fujibus)
include hb

/-- Off FujiBus the return to `IDLE` writes no decoder register (R134). -/
theorem toIdle_eq_setPhase : toIdle s = setPhase .idle s := by
  rw [toIdle, idleFr, if_neg hb]
  rfl

theorem fail_eq_setPhase (e : Err) : fail e s = setPhase .idle (setErr e s) := toIdle_eq_setPhase (s := setErr e s) hb

end

/-! ### Events that cut across the phases (R151 to R155) -/

/-- The timer runs outside `IDLE` and `DISPATCH` (R27). -/
theorem timerRuns_eq_false_iff (p : Phase) : timerRuns p = false ↔ p = .idle ∨ p = .dispatch := by
  cases p <;> decide

theorem timeoutEvent_eq (s : State) :
    timeoutEvent s = if s.eng.phase = .idle ∨ s.eng.phase = .dispatch then s else fail .timeout s := by
  simp only [timeoutEvent, ← timerRuns_eq_false_iff]
  cases timerRuns s.eng.phase <;> rfl

/-- Settles O19: the two phases without a timer, and a silent failure in the others. -/
theorem timeoutAbandonsInSilence : Obligations.TimeoutAbandonsInSilence := by
  unfold Obligations.TimeoutAbandonsInSilence
  intro s x
  exact congrArg Host.Outcome.next (timeoutEvent_eq s)

/-- The buses with an input line (R25). -/
theorem inLine_isSome_iff (c : Config) : (inLine c).isSome = true ↔ c.bus = .sio ∨ c.bus = .smartport := by
  unfold inLine
  cases c.bus <;> decide

/-- On a line bus: a rising edge in `IDLE`, a release before the header is complete, and anything else (R152). -/
theorem lineEvent_eq {s : State} (hd : detect s.cfg = .line) (v : Bool) :
    lineEvent v s =
      if s.eng.phase = .idle ∧ s.eng.linePrev = false ∧ v = true then beginFrame (setLinePrev v s)
      else if v = false ∧ (s.eng.phase = .cmdDetect ∨ s.eng.phase = .rxHdr) then fail .trunc (setLinePrev v s)
      else setLinePrev v s :=
  if_pos hd

theorem exec_evLine_of_noLine {s : State} {l : Nibble} (h : l ≠ 0 ∨ s.cfg.bus ≠ .sio ∧ s.cfg.bus ≠ .smartport)
    (v : Bool) (x : Nibble) : exec (.evLine v x l) s = .next s := by
  refine congrArg Host.Outcome.next (if_neg ?_)
  rw [inLine_isSome_iff]
  tauto

theorem exec_evLine_of_line {s : State} (hb : s.cfg.bus = .sio ∨ s.cfg.bus = .smartport) (v : Bool) (x : Nibble) :
    exec (.evLine v x 0) s = .next (lineEvent v s) :=
  congrArg Host.Outcome.next (if_pos ⟨rfl, (inLine_isSome_iff _).mpr hb⟩)

/-- Settles O20: a line the profile lacks, then `lineEvent` edge by edge. -/
theorem lineEventsDetectAndTruncate : Obligations.LineEventsDetectAndTruncate := by
  unfold Obligations.LineEventsDetectAndTruncate
  intro s v x l
  by_cases hnone : l ≠ 0 ∨ s.cfg.bus ≠ .sio ∧ s.cfg.bus ≠ .smartport
  · rw [if_pos hnone, exec_evLine_of_noLine hnone]
  · obtain ⟨rfl, hb⟩ : l = 0 ∧ (s.cfg.bus = .sio ∨ s.cfg.bus = .smartport) := by tauto
    have hf : s.cfg.bus ≠ .fujibus := by rcases hb with hb | hb <;> simp [hb]
    rw [if_neg hnone, exec_evLine_of_line hb, lineEvent_eq (profile_of_line hb).1]
    congr 1
    split
    · rename_i hrise
      obtain ⟨-, -, rfl⟩ := hrise
      rfl
    · split
      · rename_i hfall
        obtain ⟨rfl, -⟩ := hfall
        exact fail_eq_setPhase (s := setLinePrev false s) hf .trunc
      · rfl

/-- Settles O21: the tick leaves the output line where it is. -/
theorem pollOffersIdleTick : Obligations.PollOffersIdleTick := by
  unfold Obligations.PollOffersIdleTick
  intro s x
  rfl

/-- While the dispatcher is at work an edge of the input line only is sampled (R152). -/
theorem lineEvent_dispatch {s : State} (hp : s.eng.phase = .dispatch) (v : Bool) : lineEvent v s = setLinePrev v s := by
  simp [lineEvent, hp]

/-- Settles O22: the events in `DISPATCH` one by one, and the answers outside it. -/
theorem dispatchWaitsForTheAnswer : Obligations.DispatchWaitsForTheAnswer := by
  unfold Obligations.DispatchWaitsForTheAnswer
  intro s x b n status data y v z l
  refine ⟨fun hp => ⟨?byte, ?timeout, ?poll, ?line, ?nodevice⟩, fun hp => ⟨?noneAwaited, ?noneAnswered⟩⟩
  case byte => exact (rxByte_eq_rxBytes b s).trans (rxBytes_dispatch hp [b])
  case timeout => exact congrArg Host.Outcome.next ((timeoutEvent_eq s).trans (if_pos (.inr hp)))
  case poll => exact congrArg Host.Outcome.next (if_neg (by simp [hp]))
  case line =>
    split
    · rename_i hline
      obtain ⟨rfl, hb⟩ := hline
      rw [exec_evLine_of_line hb, lineEvent_dispatch hp]
      rfl
    · exact exec_evLine_of_noLine (by tauto) v z
  case nodevice => exact congrArg Host.Outcome.next (if_pos hp)
  case noneAwaited => exact congrArg Host.Outcome.next (if_neg hp)
  case noneAnswered => exact congrArg Host.Outcome.next (if_neg hp)

/-! ### The answer of the dispatcher (R149) -/

/-- A response is one burst, so it leaves the output line where it was (R26, R43). -/
theorem emitAll_response (status : Byte) (data : List Byte) (nd ok : Bool) (s : State) :
    emitAll (response s.cfg s.eng status data nd ok).1 s =
      { s with trace := s.trace ++ (response s.cfg s.eng status data nd ok).1 } := by
  obtain ⟨bytes, hr, -⟩ := response_burst s.cfg s.eng status data nd ok
  rw [hr]
  exact emitAll_of_level rfl

/-- `ERR` is written, or not. -/
theorem ite_setErr (p : Prop) [Decidable p] (e : Err) (s : State) :
    (if p then setErr e s else s) = setErr (if p then e else s.eng.err) s := by
  split <;> rfl

/-- The outputs are appended, `ERR` is written or not, and the engine waits for the host or is idle (R149). -/
theorem sendResponse_eq (status : Byte) (data : List Byte) (s : State) :
    sendResponse status data s =
      let ok := lenOk s.cfg s.eng data
      let r := response s.cfg s.eng status data (needData s.eng) ok
      let t := setErr (if status ≠ 0x00 ∨ ok = false then .device else s.eng.err) { s with trace := s.trace ++ r.1 }
      if r.2 = true then setPhase .waitHostAck t else toIdle t := by
  unfold sendResponse
  dsimp only
  rw [ite_setErr, emitAll_response]

/-- Settles O23: `need` and `ok` are the model's `needData` and `lenOk`, and `sendResponse` writes the rest. -/
theorem doneSendsTheResponse : Obligations.DoneSendsTheResponse := by
  unfold Obligations.DoneSendsTheResponse
  intro s status data hp need ok r
  refine congrArg Host.Outcome.next ((if_pos hp).trans ((sendResponse_eq status data s).trans ?_))
  change (if r.2 = true then _ else _) = _
  cases hwait : r.2 with
  | true => rfl
  | false =>
    have decoder : (if false = false ∧ s.cfg.bus = .fujibus then { st := .hunt, err := false, ne := false }
        else s.eng.fr) = idleFr s.cfg s.eng.fr := by simp [idleFr, decReset]
    rw [decoder]
    rfl

/-! ### The host's acknowledgement (R150) -/

theorem hostAckByte_ack {s : State} {dev : Nibble} (hdev : dev = frameDev s.eng) :
    hostAckByte (ctlByte s.cfg.mnAck dev) s = toIdle s :=
  if_pos (by rw [hdev])

/-- A NACK is no ACK where the two codes differ. -/
theorem hostAckByte_nack {s : State} {dev : Nibble} (hn : s.cfg.mnAck ≠ s.cfg.mnNack) (hdev : dev = frameDev s.eng) :
    hostAckByte (ctlByte s.cfg.mnNack dev) s = fail .hostnak s := by
  have differ : ctlByte s.cfg.mnNack dev ≠ ctlByte s.cfg.mnAck (frameDev s.eng) := fun h =>
    hn (by simpa using (congrArg hiNibble h).symm)
  exact (if_neg differ).trans (if_pos (by rw [hdev]))

theorem hostAckByte_other {s : State} {b : Byte} (hack : b ≠ ctlByte s.cfg.mnAck (frameDev s.eng))
    (hnack : b ≠ ctlByte s.cfg.mnNack (frameDev s.eng)) : hostAckByte b s = s :=
  (if_neg hack).trans (if_neg hnack)

/-- Settles O41: the byte that ends the wait, any other, and the timeout. -/
theorem hostAcknowledgementEndsTheWait : Obligations.HostAcknowledgementEndsTheWait := by
  unfold Obligations.HostAcknowledgementEndsTheWait
  intro s x b y dev hb hn hp hdev
  have hf : s.cfg.bus ≠ .fujibus := by simp [hb]
  have byte (b : Byte) : rxByte b s = .next (hostAckByte b s) := by simp [rxByte, hp]
  have ack : rxByte (ctlByte s.cfg.mnAck dev) s = .next { s with eng := { s.eng with phase := .idle } } := by
    rw [byte, hostAckByte_ack hdev, toIdle_eq_setPhase hf]
    rfl
  have nack : rxByte (ctlByte s.cfg.mnNack dev) s =
      .next { s with eng := { s.eng with phase := .idle, err := .hostnak } } := by
    rw [byte, hostAckByte_nack hn hdev, fail_eq_setPhase hf]
    rfl
  refine ⟨ack, nack, ack, nack, fun hack hnack => ?other, ?timeout⟩
  case other =>
    subst hdev
    exact (byte b).trans (congrArg Host.Outcome.next (hostAckByte_other hack hnack))
  case timeout =>
    change Host.Outcome.next (timeoutEvent s) = _
    rw [timeoutEvent_eq, if_neg (by simp [hp]), fail_eq_setPhase hf]
    rfl

end Sys2Proof.Laws
end

section
/-! One received byte (R135 to R145): in `IDLE`, in the header, in the length and in the payload; and the verdict on a
complete header (R140). -/

namespace Sys2Proof.Laws

open Sys2Proof.Machine

/-! ### In `IDLE` (R135, R246) -/

/-- A code of `DETECT_OPS` comes from the host (R66). -/
theorem detectOps_subset_hostCodes (c : Config) : detectOps c ⊆ hostCodes c := by
  intro code h
  simp only [detectOps, hostCodes, List.mem_cons, List.not_mem_nil, or_false] at h ⊢
  tauto

/-- The host's other codes are none of `DETECT_OPS`, the codes being distinct (R66, R294). -/
theorem notMem_detectOps {c : Config} (hn : (hostCodes c).Nodup) {code : Nibble}
    (h : code ∈ [c.mnReset, c.mnAck, c.mnCancel, c.mnNack]) : code ∉ detectOps c := by
  simp only [hostCodes, List.nodup_cons, List.mem_cons, List.not_mem_nil, or_false, not_or] at hn h
  simp only [detectOps, List.mem_cons, List.not_mem_nil, or_false, not_or]
  rcases h with rfl | rfl | rfl | rfl <;> grind

theorem rxByte_idle_line {s : State} (hp : s.eng.phase = .idle) (hd : detect s.cfg = .line) (b : Byte) :
    rxByte b s = .next s := by
  simp [rxByte, hp, idleByte, hd]

theorem rxByte_idle_noOp {s : State} (hp : s.eng.phase = .idle) (hd : detect s.cfg = .controlByte) {b : Byte}
    (hb : hiNibble b ∉ detectOps s.cfg) : rxByte b s = .next s := by
  simp [rxByte, hp, idleByte, hd, hb]

/-- Outside a frame the decoder drops what is no delimiter (R115, R246). -/
theorem rxByte_idle_noDelimiter {s : State} (hp : s.eng.phase = .idle) (hf : s.cfg.bus = .fujibus)
    (hst : s.eng.fr.st = .hunt) {b : Byte} (hb : b ≠ s.cfg.fbEnd) : rxByte b s = .next s := by
  have hd : detect s.cfg = .delimiter := detect_shape.2.2.1.mpr hf
  have dropped : decStep s.cfg s.eng.fr b = (s.eng.fr, .nothing) := by rw [decStep_hunt _ _ hst, decHunt, if_neg hb]
  have unchanged : engDecode b s = (s, .nothing) := by simp only [engDecode, dropped]
  simp [rxByte, hp, idleByte, hd, fujiIdleByte, unchanged]

/-- Settles O29: bus by bus, and on a control-byte bus the rows whose code is none of `DETECT_OPS`. -/
theorem idleDiscardsWhatStartsNoFrame : Obligations.IdleDiscardsWhatStartsNoFrame := by
  unfold Obligations.IdleDiscardsWhatStartsNoFrame
  intro s x b dev hp
  refine ⟨fun hb => rxByte_idle_line hp (profile_of_line hb).1 b, fun hb => ?_, fun hf hst hne =>
    rxByte_idle_noDelimiter hp hf hst hne⟩
  have hd := (profile_of_control hb).1
  refine ⟨rxByte_idle_noOp hp hd, fun hv => ?_⟩
  have dropped {code : Nibble} (hc : code ∉ detectOps s.cfg) : rxByte (ctlByte code dev) s = .next s :=
    rxByte_idle_noOp hp hd (by rwa [hiNibble_ctlByte])
  have noOp {code : Nibble} (hc : code ∈ [s.cfg.mnReset, s.cfg.mnAck, s.cfg.mnCancel, s.cfg.mnNack]) :
      rxByte (ctlByte code dev) s = .next s :=
    dropped (notMem_detectOps (configValid_nodup hv).2.2.1 hc)
  have unassigned {code : Nibble} (hc : (!(hostCodes s.cfg).contains code) = true) :
      rxByte (ctlByte code dev) s = .next s :=
    dropped fun hm => by simp [detectOps_subset_hostCodes _ hm] at hc
  exact ⟨noOp (by simp), noOp (by simp), noOp (by simp), noOp (by simp), unassigned, unassigned⟩

/-! ### The header (R137, R139) -/

/-- A byte of a header that is still open, the first one of `CMD_DETECT` among them. -/
theorem rxByte_header_open {s : State} {b : Byte} (hb : s.cfg.bus = .sio ∨ s.cfg.bus = .smartport)
    (h : (s.eng.phase = .cmdDetect ∧ s.eng.hdrCnt = 0) ∨ (s.eng.phase = .rxHdr ∧ s.eng.hdrCnt.toNat < 4)) :
    rxByte b s = .next (engAbsorb b
      (storeHeader (s.eng.hdrBuf.write s.eng.hdrCnt.toNat b) (setPhase .rxHdr s))) := by
  obtain ⟨hd, hs, -⟩ := profile_of_line hb
  obtain ⟨hp, hc⟩ | ⟨hp, hc⟩ := h
  · rw [rxByte_cmdDetect_line hd hp, rxByte_rxHdr rfl]
    exact headerByte_open hs (by simp [hc])
  · have resting : setPhase .rxHdr s = s := by rw [setPhase, ← hp]
    rw [resting, rxByte_rxHdr hp]
    exact headerByte_open hs hc

/-- Settles O30: the SIO command bytes are received as any other byte. -/
theorem headerBytesAreStoredAndSummed : Obligations.HeaderBytesAreStoredAndSummed := by
  unfold Obligations.HeaderBytesAreStoredAndSummed
  intro s x b hb h
  refine ⟨_, fun i => read_write _ _ i b, ?_⟩
  have stored := rxByte_header_open (b := b) hb h
  refine ⟨stored, ?_, ?_, ?_⟩ <;> rintro rfl <;> exact stored

/-! ### The verdict on a header (R140 to R142) -/

/-- Settles O31: the first failing check answers, and a header without one is routed. -/
theorem headerVerdict : Obligations.HeaderVerdict := by
  unfold Obligations.HeaderVerdict
  intro s hasCs ent absent bad t v
  have bad_iff : (hasCs && !s.eng.cs.matched) = true ↔ bad := by simp [bad]
  have good (h : ¬ bad) : (hasCs && !s.eng.cs.matched) = false := by rwa [← bad_iff, Bool.not_eq_true] at h
  have present (h : ¬ absent) : slotPresent s.cfg s.eng.frame.deviceId = true := by simpa [absent] using h
  refine ⟨fun habsent hfirst => headerComplete_absent habsent fun hb => hfirst (bad_iff.mp hb),
    fun hbad hfirst => ?badSum, fun hp hg hunknown => headerComplete_unknown (present hp) (good hg) hunknown,
    fun hp hg hent => ?known⟩
  case badSum =>
    obtain ⟨rfl, hm⟩ := hbad
    exact headerComplete_badSum hm hfirst
  case known =>
    rw [headerComplete_accepted (present hp) (good hg) hent]
    refine ⟨acceptEntry_tooLong, fun hlen => ?_⟩
    rw [acceptEntry_routes hlen]
    have cleared : csClear v.cfg = csClear s.cfg := congrArg csClear (emitAll_cfg _ _)
    rw [← cleared]
    refine ⟨route_prefix t, fun hw hl hpos => route_payload t ⟨hw, hpos⟩ hl, fun hno => route_disp t ?_⟩
    rintro ⟨hw, hpre | hpos⟩
    · exact hno.elim (fun h => h hw) fun h => h.1 hpre
    · exact hno.elim (fun h => h hw) fun h => Nat.ne_of_gt hpos h.2

/-! ### The payload (R143 to R145) -/

/-- A length above the ceiling (R143). -/
theorem lenLoByte_above {b : Byte} {s : State}
    (h : payloadCeiling s.cfg s.eng.frame.expectedLength < (join16 s.cfg.lenPrefixOrder s.eng.lenHi b).toNat) :
    lenLoByte b s = failWith (nak s.cfg s.eng) .len s :=
  if_pos h

/-- Settles O36: the two bytes joined are the length, which is checked. -/
theorem lengthPrefixIsChecked : Obligations.LengthPrefixIsChecked := by
  unfold Obligations.LengthPrefixIsChecked
  intro s x b ho
  refine ⟨fun hp => ?high, fun hp => ?low⟩
  case high =>
    have byte : rxByte b s = .next (lenHiByte b s) := by simp only [rxByte, hp]
    exact byte
  case low =>
    intro n
    have byte : rxByte b s = .next (lenLoByte b s) := by simp only [rxByte, hp]
    have value : (join16 s.cfg.lenPrefixOrder s.eng.lenHi b).toNat = n := by rw [join16_toNat, ho]
    have joined : join16 s.cfg.lenPrefixOrder s.eng.lenHi b = BitVec.ofNat 16 n := by
      rw [← value, BitVec.ofNat_toNat, BitVec.setWidth_eq]
    refine ⟨fun habove => byte.trans (congrArg Host.Outcome.next (lenLoByte_above (by rwa [value]))),
      fun hwithin => byte.trans ?_⟩
    rw [lenLoByte_within (by rwa [value]), value, joined]
    rfl

/-- Settles O37: `payloadByte` where `RXBUF` has the index. -/
theorem payloadByteIsStoredAndSummed : Obligations.PayloadByteIsStoredAndSummed := by
  unfold Obligations.PayloadByteIsStoredAndSummed
  intro s x b hp hroom hmax
  have byte : rxByte b s = payloadByte b s := by simp only [rxByte, hp]
  refine ⟨_, fun i => read_write _ _ i b, byte.trans (payloadByte_eq_next.mpr ⟨hroom.trans_le hmax, ?_⟩)⟩
  dsimp only [engAbsorb_eng, storePayload_eng]
  by_cases hlast : s.eng.rxCnt + 1 = s.eng.pLen
  · rw [if_pos hlast]
    exact (if_pos hlast).symm
  · rw [if_neg hlast, ← hp]
    exact (if_neg hlast).symm

/-- Settles O38: the payload is what stands in `RXBUF` below `RXCNT`. -/
theorem payloadChecksumDecides : Obligations.PayloadChecksumDecides := by
  unfold Obligations.PayloadChecksumDecides
  intro s x b hp hlo hmax hw
  obtain ⟨payload, -, hlen, hget⟩ := readRange_below hmax hw
  have byte := rxByte_pcsum s b payload hp hlo hlen.symm (hlen ▸ hmax) fun i hi => (hget i (hlen ▸ hi)).symm
  exact ⟨fun hk => ⟨payload, hlen, hget, byte.trans (if_pos hk)⟩, fun hk => byte.trans (if_neg hk)⟩

end Sys2Proof.Laws
end

section
/-! What comes before a `Dispatch` (R146, R158). One inductive type says what a received byte can do: it passes no
check, it completes a header, or it is the checksum of a payload. One lemma per operation of the engine finds its
case. -/

namespace Sys2Proof.Laws

open Sys2Proof.Machine

/-! ### Outputs without a `Dispatch` -/

/-- No output of the list is a `Dispatch`. -/
def NoDispatch (os : List Output) : Prop := ∀ o ∈ os, ∀ f fl p, o ≠ .dispatch f fl p

theorem noDispatch_nil : NoDispatch [] := fun _ h => absurd h List.not_mem_nil

theorem noDispatch_append {os os' : List Output} (h : NoDispatch os) (h' : NoDispatch os') : NoDispatch (os ++ os') :=
  fun o ho => (List.mem_append.mp ho).elim (h o) (h' o)

theorem noDispatch_tx (bytes : List Byte) : NoDispatch [.tx bytes] := by simp [NoDispatch]

theorem noDispatch_ackPulse : NoDispatch ackPulse := by simp [NoDispatch, ackPulse]

theorem noDispatch_cmdAck (c : Config) : NoDispatch (cmdAck c) := by
  unfold cmdAck
  split
  · exact noDispatch_tx _
  · exact noDispatch_ackPulse
  · exact noDispatch_ackPulse
  · exact noDispatch_nil
  · exact noDispatch_nil

theorem noDispatch_nak (c : Config) (e : Engine) : NoDispatch (nak c e) := by
  unfold nak
  split
  · exact noDispatch_tx _
  · exact noDispatch_nil
  · exact noDispatch_nil
  · exact noDispatch_tx _
  · exact noDispatch_nil

theorem noDispatch_unsupported (c : Config) (e : Engine) : NoDispatch (unsupported c e) := by
  unfold unsupported
  split
  · exact noDispatch_tx _
  · exact noDispatch_nil
  · exact noDispatch_append noDispatch_ackPulse (noDispatch_tx _)
  · exact noDispatch_tx _
  · exact noDispatch_tx _

theorem noDispatch_resetOutputs (c : Config) : NoDispatch (resetOutputs c) := by
  unfold resetOutputs
  split
  · simp [NoDispatch]
  · exact noDispatch_nil

theorem noDispatch_response (c : Config) (e : Engine) (status : Byte) (data : List Byte) (nd ok : Bool) :
    NoDispatch (response c e status data nd ok).1 := by
  obtain ⟨bytes, hr, -⟩ := response_burst c e status data nd ok
  rw [hr]
  exact noDispatch_tx bytes

/-- From `s` to `t` outputs are appended, none of them a `Dispatch`. -/
def AddsNoDispatch (s t : State) : Prop := ∃ os, t.trace = s.trace ++ os ∧ NoDispatch os

theorem AddsNoDispatch.silent {s t : State} (h : t.trace = s.trace) : AddsNoDispatch s t :=
  ⟨[], by simp [h], noDispatch_nil⟩

theorem AddsNoDispatch.emitAll {os : List Output} (ho : NoDispatch os) (s : State) :
    AddsNoDispatch s (emitAll os s) :=
  ⟨os, emitAll_trace os s, ho⟩

theorem AddsNoDispatch.failWith {os : List Output} (ho : NoDispatch os) (e : Err) (s : State) :
    AddsNoDispatch s (failWith os e s) :=
  ⟨os, failWith_trace os e s, ho⟩

/-! ### A `Dispatch` (R146) -/

/-- From `s` to `t` the frame is dispatched, once and last, with `RXCNT` bytes of payload. -/
structure Dispatches (s t : State) : Prop where
  phase : t.eng.phase = .dispatch
  outputs : ∃ os fields payload, t.trace = s.trace ++ os ++ [.dispatch t.eng.frame fields payload] ∧ NoDispatch os
    ∧ payload.length = t.eng.rxCnt.toNat

/-- A `Dispatch` after an acknowledgement. -/
theorem Dispatches.after_emitAll {os : List Output} (ho : NoDispatch os) {s t : State}
    (h : Dispatches (emitAll os s) t) : Dispatches s t := by
  obtain ⟨hphase, os', fields, payload, htrace, ho', hlen⟩ := h
  refine ⟨hphase, os ++ os', fields, payload, ?_, noDispatch_append ho ho', hlen⟩
  rw [htrace, emitAll_trace, List.append_assoc s.trace]

/-- What a `Dispatch` finds and leaves: the frame and the checksum unit. -/
structure KeepsChecked (s t : State) : Prop where
  frame : t.eng.frame = s.eng.frame
  cs : t.eng.cs = s.eng.cs

theorem doDispatch_dispatches {fields : List Field} {s t : State} (h : doDispatch fields s = .next t) :
    Dispatches s t ∧ KeepsChecked s t ∧ t.eng.rxCnt = s.eng.rxCnt := by
  obtain ⟨payload, hread, rfl⟩ := doDispatch_eq_next.mp h
  exact ⟨⟨rfl, [], fields, payload, by simp, noDispatch_nil, readRange_length hread⟩, ⟨rfl, rfl⟩, rfl⟩

/-- A `Dispatch` after the acknowledgement of a header or a payload (R141, R145). -/
theorem doDispatch_acked {os : List Output} (ho : NoDispatch os) {s t : State}
    (h : doDispatch [] (emitAll os s) = .next t) :
    Dispatches s t ∧ KeepsChecked s t ∧ t.eng.rxCnt = s.eng.rxCnt := by
  obtain ⟨hrun, ⟨hframe, hcs⟩, hcnt⟩ := doDispatch_dispatches h
  exact ⟨hrun.after_emitAll ho, ⟨by simpa using hframe, by simpa using hcs⟩, by simpa using hcnt⟩

theorem splitDispatch_dispatches {fields : List Field} {payload : List Byte} {s t : State}
    (h : splitDispatch fields payload s = .next t) : Dispatches s t ∧ KeepsChecked s t := by
  unfold splitDispatch at h
  split at h
  · cases h
  · obtain ⟨⟨hphase, hout⟩, ⟨hframe, hcs⟩, -⟩ := doDispatch_dispatches h
    exact ⟨⟨hphase, hout⟩, hframe, hcs⟩

/-! ### A complete header (R140, R248) -/

/-- The frame holds the table entry of its command. -/
def Loaded (c : Config) (f : Frame) (ent : CmdEntry) : Prop :=
  cmdEntry c f.command = some ent ∧ f.direction = ent.direction ∧ f.expectedLength = ent.expectedLength
    ∧ f.timeoutMs = ent.timeoutMs

/-- The header checks, passed by the frame `f` with the checksum unit at `cs`; a control byte has no checksum (R65). -/
structure HeaderPassed (c : Config) (cs : CsUnit) (f : Frame) : Prop where
  present : slotPresent c f.deviceId = true
  loaded : ∃ ent, Loaded c f ent
  matched : hdrShape c ≠ .controlByte → cs.matched = true

/-- What becomes of a complete header: it is refused, it is dispatched, or its payload is awaited. -/
inductive HeaderOutcome (cs : CsUnit) (s t : State) : Prop
  | refused (phase : t.eng.phase = .idle) (out : AddsNoDispatch s t)
  | dispatched (passed : HeaderPassed s.cfg cs t.eng.frame) (unit : t.eng.cs = cs) (run : Dispatches s t)
  | awaits (passed : HeaderPassed s.cfg cs t.eng.frame) (write : t.eng.frame.direction = .write)
      (phase : afterHeader t.eng.phase = true) (out : AddsNoDispatch s t)

/-- What becomes of a header after a change of the engine's registers. -/
theorem HeaderOutcome.after {cs : CsUnit} {s t : State} {e : Engine} (h : HeaderOutcome cs { s with eng := e } t) :
    HeaderOutcome cs s t := by
  cases h with
  | refused phase out => exact .refused phase out
  | dispatched passed unit run => exact .dispatched passed unit ⟨run.phase, run.outputs⟩
  | awaits passed write phase out => exact .awaits passed write phase out

theorem HeaderOutcome.failWith {cs : CsUnit} {os : List Output} (ho : NoDispatch os) (e : Err) (s : State) :
    HeaderOutcome cs s (failWith os e s) :=
  .refused (failWith_phase os e s) (.failWith ho e s)

theorem HeaderOutcome.of_dispatches {cs : CsUnit} {s t : State} (passed : HeaderPassed s.cfg cs s.eng.frame)
    (hcs : s.eng.cs = cs) (run : Dispatches s t) (kept : KeepsChecked s t) : HeaderOutcome cs s t :=
  .dispatched (by rwa [kept.frame]) (kept.cs.trans hcs) run

theorem route_outcome {s t : State} (passed : HeaderPassed s.cfg s.eng.cs s.eng.frame) (h : route s = .next t) :
    HeaderOutcome s.eng.cs s t := by
  have acked := AddsNoDispatch.emitAll (noDispatch_cmdAck s.cfg) s
  rcases route_cases s with ⟨hw, -, hr⟩ | ⟨hw, -, -, hr⟩ | ⟨-, hr⟩ <;> rw [hr] at h
  · cases h
    exact .awaits (by simpa using passed) (by simpa using hw) rfl acked
  · cases h
    exact .awaits (by simpa using passed) (by simpa using hw) rfl acked
  · obtain ⟨run, kept, -⟩ := doDispatch_acked (noDispatch_cmdAck s.cfg) h
    exact .of_dispatches passed rfl run kept

theorem HeaderPassed.load {s : State} {ent : CmdEntry} (hp : slotPresent s.cfg s.eng.frame.deviceId = true)
    (he : cmdEntry s.cfg s.eng.frame.command = some ent)
    (hm : hdrShape s.cfg ≠ .controlByte → s.eng.cs.matched = true) :
    HeaderPassed s.cfg s.eng.cs (loadEntry ent s).eng.frame :=
  ⟨hp, ⟨ent, he, rfl, rfl, rfl⟩, hm⟩

theorem acceptEntry_outcome {ent : CmdEntry} {s t : State}
    (passed : HeaderPassed s.cfg s.eng.cs (loadEntry ent s).eng.frame) (h : acceptEntry ent s = .next t) :
    HeaderOutcome s.eng.cs s t := by
  unfold acceptEntry at h
  split at h
  · cases h
    exact (HeaderOutcome.failWith (noDispatch_nak _ _) .len (loadEntry ent s)).after
  · exact (route_outcome (s := loadEntry ent s) passed h).after

/-- Steps (1) and (2) pass exactly where the device is present and the checksum right. -/
theorem firstFailure_eq_none_iff {bad : Bool} {os : List Output} {s : State} :
    firstFailure bad os s = none ↔ slotPresent s.cfg s.eng.frame.deviceId = true ∧ bad = false := by
  rw [firstFailure_eq]
  by_cases hp : slotPresent s.cfg s.eng.frame.deviceId = true
  · cases bad <;> simp [hp]
  · rw [if_neg hp]
    split <;> simp [hp]

/-- The failure of step (1) is silent, that of step (2) has the action given. -/
theorem noDispatch_firstFailure {bad : Bool} {os os' : List Output} {e : Err} {s : State} (ho : NoDispatch os)
    (h : firstFailure bad os s = some (os', e)) : NoDispatch os' := by
  rw [firstFailure_eq] at h
  split at h <;> split at h <;> cases h
  · exact ho
  · exact ho
  · exact noDispatch_nil

theorem headerComplete_outcome {hasCs : Bool} {s t : State} (hk : hdrShape s.cfg ≠ .controlByte → hasCs = true)
    (h : headerComplete hasCs s = .next t) : HeaderOutcome s.eng.cs s t := by
  unfold headerComplete at h
  split at h
  · rename_i hfail
    cases h
    exact .failWith (noDispatch_firstFailure (noDispatch_nak _ _) hfail) _ s
  · rename_i hpass
    obtain ⟨hp, hm⟩ := firstFailure_eq_none_iff.mp hpass
    split at h
    · cases h
      exact .failWith (noDispatch_unsupported _ _) .unsup s
    · rename_i ent he
      exact acceptEntry_outcome (.load hp he fun hs => by simpa [hk hs] using hm) h

/-- A byte of a five-byte header: the header is still open, or this byte is its checksum (R139). -/
theorem headerByte_fiveByte_outcome {b : Byte} {s t : State} (hs : hdrShape s.cfg = .fiveByte)
    (h : headerByte b s = .next t) :
    (t.eng.phase = s.eng.phase ∧ t.trace = s.trace) ∨ HeaderOutcome (csCheck s.cfg s.eng.cs b) s t := by
  unfold headerByte at h
  split at h
  · cases h
  · simp only [hs] at h
    split at h
    · cases h
      exact .inl ⟨rfl, rfl⟩
    · unfold finishFiveByte at h
      dsimp only at h
      split at h
      · have out := headerComplete_outcome (fun _ => rfl) h
        exact .inr (HeaderOutcome.after (s := s) out)
      · cases h
      · cases h

/-- A control byte is a whole header (R139). -/
theorem headerByte_controlByte_outcome {b : Byte} {s t : State} (hs : hdrShape s.cfg = .controlByte)
    (h : headerByte b s = .next t) : HeaderOutcome s.eng.cs s t := by
  unfold headerByte at h
  split at h
  · cases h
  · simp only [hs] at h
    have out := headerComplete_outcome (s := loadHeader _ _ _ _ (storeHeader _ s)) (fun hne => absurd hs hne) h
    exact HeaderOutcome.after (s := s) out

/-! ### A complete envelope (R248, R249) -/

theorem envelopeRoute_outcome {fields : List Field} {payload : List Byte} {s t : State}
    (hp : slotPresent s.cfg s.eng.frame.deviceId = true) (hm : s.eng.cs.matched = true)
    (h : envelopeRoute fields payload s = .next t) : HeaderOutcome s.eng.cs s t := by
  unfold envelopeRoute at h
  split at h
  · cases h
    exact .failWith (noDispatch_unsupported _ _) .unsup s
  · rename_i ent he
    have passed : HeaderPassed s.cfg s.eng.cs (loadEntry ent s).eng.frame := .load hp he fun _ => hm
    dsimp only at h
    split at h
    · cases h
      exact (HeaderOutcome.failWith (noDispatch_tx _) .dir (loadEntry ent s)).after
    · split at h
      · cases h
        exact (HeaderOutcome.failWith noDispatch_nil .len (loadEntry ent s)).after
      · obtain ⟨run, kept⟩ := splitDispatch_dispatches h
        exact (HeaderOutcome.of_dispatches (s := loadEntry ent s) passed rfl run kept).after

theorem envelopeChecks_outcome {pc : Nat} {rest : List Byte} {s t : State} (h : envelopeChecks pc rest s = .next t) :
    HeaderOutcome s.eng.cs s t := by
  unfold envelopeChecks at h
  split at h
  · rename_i hfail
    cases h
    exact .failWith (noDispatch_firstFailure noDispatch_nil hfail) _ s
  · rename_i hpass
    obtain ⟨hp, hm⟩ := firstFailure_eq_none_iff.mp hpass
    split at h
    · cases h
      exact .failWith noDispatch_nil .trunc s
    · exact (envelopeRoute_outcome (s := loadAux _ s) hp (by simpa using hm) h).after

theorem envelopeComplete_outcome {s t : State} (h : envelopeComplete s = .next t) : ∃ cs, HeaderOutcome cs s t := by
  unfold envelopeComplete at h
  split at h
  · cases h
  · unfold parseEnvelope at h
    split at h
    · exact ⟨_, (envelopeChecks_outcome h).after⟩
    · cases h
      exact ⟨s.eng.cs, .failWith noDispatch_nil .trunc s⟩

/-! ### What passes no check -/

/-- From `s` to `t` nothing is dispatched, and a payload awaited in `t` was awaited in `s`, of the same frame. -/
structure PassesNothing (s t : State) : Prop where
  outputs : AddsNoDispatch s t
  dispatch : t.eng.phase = .dispatch → s.eng.phase = .dispatch
  payload : afterHeader t.eng.phase = true → afterHeader s.eng.phase = true ∧ t.eng.frame = s.eng.frame

theorem PassesNothing.of_same {s t : State} (out : AddsNoDispatch s t) (hp : t.eng.phase = s.eng.phase)
    (hf : t.eng.frame = s.eng.frame) : PassesNothing s t :=
  ⟨out, fun h => hp ▸ h, fun h => ⟨hp ▸ h, hf⟩⟩

theorem PassesNothing.refl (s : State) : PassesNothing s s := .of_same (.silent rfl) rfl rfl

/-- A phase outside `DISPATCH` in which no payload is awaited. -/
abbrev IsOutside (p : Phase) : Prop := p ≠ .dispatch ∧ afterHeader p = false

theorem PassesNothing.of_outside {s t : State} (out : AddsNoDispatch s t) (h : IsOutside t.eng.phase) :
    PassesNothing s t :=
  ⟨out, fun hd => absurd hd h.1, fun ha => absurd ha (by simp [h.2])⟩

/-- A byte of a payload, or of its length, that does not complete it. -/
theorem PassesNothing.of_payload {s t : State} (out : AddsNoDispatch s t) (hs : afterHeader s.eng.phase = true)
    (ht : t.eng.phase ≠ .dispatch) (hf : t.eng.frame = s.eng.frame) : PassesNothing s t :=
  ⟨out, fun hd => absurd hd ht, fun _ => ⟨hs, hf⟩⟩

/-! ### A received byte (R156) -/

/-- What a received byte can do: it passes no check; it completes a header, where the checksum unit is at `cs`; or it is
the checksum of a payload, and right. -/
inductive ByteOutcome (b : Byte) (s t : State) : Prop
  | passesNothing (h : PassesNothing s t)
  | header (cs : CsUnit) (before : IsOutside s.eng.phase)
      (five : hdrShape s.cfg = .fiveByte → s.eng.phase = .rxHdr ∧ cs = csCheck s.cfg s.eng.cs b)
      (out : HeaderOutcome cs s t)
  | payload (phase : s.eng.phase = .rxPcsum) (sum : csResult s.cfg s.eng.cs = b) (frame : t.eng.frame = s.eng.frame)
      (matched : t.eng.cs.matched = true) (count : t.eng.rxCnt = s.eng.rxCnt) (run : Dispatches s t)

/-- A byte that neither completes a header nor belongs to a payload: what it leads to is outside `DISPATCH`. -/
theorem ByteOutcome.of_outside {b : Byte} {s t : State} {ps : List Phase} (out : AddsNoDispatch s t)
    (ht : t.eng.phase ∈ ps) (hps : ∀ p ∈ ps, IsOutside p) : ByteOutcome b s t :=
  .passesNothing (.of_outside out (hps _ ht))

theorem isOutside_idle : IsOutside .idle := ⟨by decide, rfl⟩

theorem idleByte_outcome {b : Byte} {s t : State} (hp : s.eng.phase = .idle) (h : idleByte b s = .next t) :
    ByteOutcome b s t := by
  unfold idleByte at h
  split at h
  · cases h
    exact .passesNothing (.refl s)
  · rename_i hd
    have hs : hdrShape s.cfg = .controlByte := detect_shape.2.1.mp hd
    split at h
    · have out := headerByte_controlByte_outcome (s := setPhase .rxHdr (beginFrame s)) hs h
      exact .header _ (hp ▸ isOutside_idle) (by simp [hs]) (HeaderOutcome.after (s := s) out)
    · cases h
      exact .passesNothing (.refl s)
  · refine .of_outside (.silent (fujiIdleByte_trace h)) (fujiIdleByte_reaches h).phase ?_
    rw [hp]
    decide

theorem envStore_trace {d : Byte} {s t : State} (h : envStore d s = .next t) : t.trace = s.trace := by
  rcases envStore_eq_next.mp h with ⟨-, rfl⟩ | ⟨-, rfl⟩ <;> rfl

theorem fujiDetectByte_trace {b : Byte} {s t : State} (h : fujiDetectByte b s = .next t) : t.trace = s.trace := by
  unfold fujiDetectByte at h
  dsimp only at h
  split at h
  · cases h
    rfl
  · have htrace := envStore_trace h
    exact htrace
  · split at h
    · cases h
    · cases h
      rfl
  · cases h

/-- In `CMD_DETECT` no header byte is stored yet, so the first one does not complete the header (R136, R137). -/
theorem detectByte_outcome {b : Byte} {s t : State} (hi : Inv s) (hp : s.eng.phase = .cmdDetect)
    (h : detectByte b s = .next t) : ByteOutcome b s t := by
  unfold detectByte at h
  split at h
  · rename_i hd
    have opened := headerByte_open (b := b) (s := setPhase .rxHdr s) (detect_shape.1.mp hd) (by simp [hi.hdrStart hp])
    cases opened.symm.trans h
    exact .passesNothing (.of_outside (.silent rfl) ⟨nofun, rfl⟩)
  · cases h
  · refine .of_outside (.silent (fujiDetectByte_trace h)) (fujiDetectByte_reaches h).phase ?_
    rw [hp]
    decide

theorem rxHdr_outcome {b : Byte} {s t : State} (hi : Inv s) (hp : s.eng.phase = .rxHdr) (h : headerByte b s = .next t) :
    ByteOutcome b s t := by
  have hs : hdrShape s.cfg = .fiveByte := by simpa [hp, phaseLegal] using hi.phaseOk
  have before : IsOutside s.eng.phase := hp ▸ ⟨nofun, rfl⟩
  rcases headerByte_fiveByte_outcome hs h with ⟨hphase, htrace⟩ | out
  · exact .passesNothing (.of_outside (.silent htrace) (hphase ▸ before))
  · exact .header _ before (fun _ => ⟨hp, rfl⟩) out

theorem lenLoByte_outcome (b : Byte) {s : State} (hp : s.eng.phase = .rxLenLo) : ByteOutcome b s (lenLoByte b s) := by
  rcases Nat.lt_or_ge (payloadCeiling s.cfg s.eng.frame.expectedLength)
    (join16 s.cfg.lenPrefixOrder s.eng.lenHi b).toNat with habove | hwithin
  · rw [lenLoByte_above habove]
    exact .passesNothing (.of_outside (.failWith (noDispatch_nak _ _) _ s) (failWith_phase _ _ s ▸ isOutside_idle))
  · rw [lenLoByte_within hwithin]
    refine .passesNothing (.of_payload (.silent rfl) (by simp [hp, afterHeader]) ?_ rfl)
    rw [setPhase_eng]
    dsimp only
    split <;> decide

theorem payloadByte_outcome {b : Byte} {s t : State} (hp : s.eng.phase = .rxPayload) (h : payloadByte b s = .next t) :
    ByteOutcome b s t := by
  have ends := (payloadByte_reaches h).phase
  rw [hp] at ends
  refine .passesNothing (.of_payload (.silent ?_) (by simp [hp, afterHeader]) (fun hd => ?_) ?_)
  · obtain ⟨-, rfl⟩ := payloadByte_eq_next.mp h
    dsimp only
    split <;> rfl
  · rw [hd] at ends
    exact absurd ends (by decide)
  · obtain ⟨-, rfl⟩ := payloadByte_eq_next.mp h
    dsimp only
    split <;> rfl

theorem payloadChecksum_outcome {b : Byte} {s t : State} (hp : s.eng.phase = .rxPcsum)
    (h : payloadChecksum b s = .next t) : ByteOutcome b s t := by
  unfold payloadChecksum at h
  dsimp only at h
  split at h
  · rename_i hm
    obtain ⟨run, ⟨hframe, hcs⟩, hcnt⟩ :=
      doDispatch_acked (s := engCheck b s) (payloadAck_eq s.cfg ▸ noDispatch_cmdAck s.cfg) h
    exact .payload hp (by simpa using hm) hframe (by rw [hcs, hm]) hcnt ⟨run.phase, run.outputs⟩
  · cases h
    exact .passesNothing (.of_outside (.failWith (noDispatch_nak _ _) .csum (engCheck b s))
      (failWith_phase _ _ _ ▸ isOutside_idle))

theorem envelopeByte_outcome {b : Byte} {s t : State} (hi : Inv s) (hp : s.eng.phase = .rxEnv)
    (h : envelopeByte b s = .next t) : ByteOutcome b s t := by
  have hs : hdrShape s.cfg = .envelope := detect_shape.2.2.2.1.mpr (by simpa [hp, phaseLegal] using hi.phaseOk)
  have before : IsOutside s.eng.phase := hp ▸ ⟨nofun, rfl⟩
  unfold envelopeByte at h
  dsimp only at h
  split at h
  · cases h
    exact .passesNothing (.of_outside (.silent rfl) before)
  · have ends := (envStore_reaches h).phase
    have htrace := envStore_trace h
    refine .of_outside (.silent htrace) ends ?_
    change ∀ p ∈ [s.eng.phase, .idle], IsOutside p
    rw [hp]
    decide
  · split at h
    · obtain ⟨cs, out⟩ := envelopeComplete_outcome h
      exact .header cs before (by simp [hs]) (HeaderOutcome.after (s := s) out)
    · cases h
      exact .passesNothing (.of_outside (.silent rfl) isOutside_idle)
  · cases h

theorem rxByte_outcome {b : Byte} {s t : State} (hi : Inv s) (h : rxByte b s = .next t) : ByteOutcome b s t := by
  unfold rxByte at h
  cases hp : s.eng.phase <;> simp only [hp] at h
  case idle => exact idleByte_outcome hp h
  case cmdDetect => exact detectByte_outcome hi hp h
  case rxHdr => exact rxHdr_outcome hi hp h
  case rxLenHi =>
    cases h
    exact .passesNothing (.of_payload (.silent rfl) (by simp [hp, afterHeader]) nofun rfl)
  case rxLenLo =>
    cases h
    exact lenLoByte_outcome b hp
  case rxPayload => exact payloadByte_outcome hp h
  case rxPcsum => exact payloadChecksum_outcome hp h
  case rxEnv => exact envelopeByte_outcome hi hp h
  case dispatch =>
    cases h
    exact .passesNothing (.refl s)
  case waitHostAck =>
    cases h
    refine .of_outside (.silent (hostAckByte_trace b s)) (hostAckByte_reaches b s).phase ?_
    rw [hp]
    decide

/-! ### What a received byte's outcome says -/

/-- The checks behind a `Dispatch` that the byte `b` brings about: those of the header it completes, or the checksum of
the payload it ends. -/
structure Checked (b : Byte) (s t : State) : Prop where
  run : Dispatches s t
  matched : hdrShape s.cfg ≠ .controlByte ∨ s.eng.phase = .rxPcsum → t.eng.cs.matched = true
  header : s.eng.phase ≠ .rxPcsum →
    slotPresent s.cfg t.eng.frame.deviceId = true ∧ ∃ ent, Loaded s.cfg t.eng.frame ent
  payload : s.eng.phase = .rxPcsum →
    csResult s.cfg s.eng.cs = b ∧ t.eng.frame = s.eng.frame ∧ t.eng.rxCnt = s.eng.rxCnt

section

variable {b : Byte} {s t : State} (o : ByteOutcome b s t)
include o

theorem ByteOutcome.checked (ht : t.eng.phase = .dispatch) (hs : s.eng.phase ≠ .dispatch) : Checked b s t := by
  cases o with
  | passesNothing h => exact absurd (h.dispatch ht) hs
  | payload phase sum frame matched count run =>
    exact ⟨run, fun _ => matched, fun hne => absurd phase hne, fun _ => ⟨sum, frame, count⟩⟩
  | header cs before _ out =>
    have noPayload : s.eng.phase ≠ .rxPcsum := fun hp => absurd before.2 (by simp [hp, afterHeader])
    cases out with
    | refused phase _ => exact absurd (phase.symm.trans ht) nofun
    | awaits _ _ phase _ => exact absurd phase (by simp [ht, afterHeader])
    | dispatched passed unit run =>
      exact ⟨run, fun h => unit ▸ passed.matched (h.resolve_right noPayload), fun _ => ⟨passed.present, passed.loaded⟩,
        fun hp => absurd hp noPayload⟩

/-- A payload comes to be awaited only by a header that passed, for a `Write`. -/
theorem ByteOutcome.enters_payload (ht : afterHeader t.eng.phase = true) (hs : afterHeader s.eng.phase = false) :
    ∃ cs, HeaderPassed s.cfg cs t.eng.frame ∧ t.eng.frame.direction = .write
      ∧ (hdrShape s.cfg = .fiveByte → s.eng.phase = .rxHdr ∧ cs = csCheck s.cfg s.eng.cs b) := by
  cases o with
  | passesNothing h => exact absurd (h.payload ht).1 (by simp [hs])
  | payload phase => exact absurd hs (by simp [phase, afterHeader])
  | header cs _ five out =>
    cases out with
    | refused phase _ => exact absurd ht (by simp [phase, afterHeader])
    | dispatched _ _ run => exact absurd ht (by simp [run.phase, afterHeader])
    | awaits passed write _ _ => exact ⟨cs, passed, write, five⟩

theorem ByteOutcome.keeps_frame (ht : afterHeader t.eng.phase = true) (hs : afterHeader s.eng.phase = true) :
    t.eng.frame = s.eng.frame := by
  cases o with
  | passesNothing h => exact (h.payload ht).2
  | header _ before => exact absurd hs (by simp [before.2])
  | payload _ _ frame => exact frame

theorem ByteOutcome.addsNoDispatch (h : t.eng.phase ≠ .dispatch ∨ s.eng.phase = .dispatch) : AddsNoDispatch s t := by
  cases o with
  | passesNothing k => exact k.outputs
  | payload phase _ _ _ _ run => exact absurd run.phase (h.resolve_right (by simp [phase]))
  | header _ before _ out =>
    have elsewhere : t.eng.phase ≠ .dispatch := h.resolve_right before.1
    cases out with
    | refused _ out => exact out
    | dispatched _ _ run => exact absurd run.phase elsewhere
    | awaits _ _ _ out => exact out

end

/-! ### What is no byte of the host -/

theorem lineEvent_passesNothing (v : Bool) (s : State) : PassesNothing s (lineEvent v s) := by
  have sampled : PassesNothing s (setLinePrev v s) := .of_same (.silent rfl) rfl rfl
  unfold lineEvent
  dsimp only
  split
  · split
    · exact .of_outside (.silent rfl) ⟨nofun, rfl⟩
    · split
      · exact .of_outside (.silent rfl) isOutside_idle
      · exact sampled
  · exact sampled

theorem sendResponse_passesNothing (status : Byte) (data : List Byte) (s : State) :
    PassesNothing s (sendResponse status data s) := by
  have outside : ∀ p ∈ [Phase.waitHostAck, .idle], IsOutside p := by decide
  exact .of_outside ⟨_, sendResponse_trace status data s, noDispatch_response _ _ _ _ _ _⟩
    (outside _ (sendResponse_reaches status data s).phase)

theorem fail_passesNothing (e : Err) (s : State) : PassesNothing s (fail e s) :=
  .of_outside (.silent rfl) isOutside_idle

/-- An event other than a received byte (R75). -/
theorem event_passesNothing {i : Instr} (he : EventRow i) (hh : fromHost i = false) {s t : State}
    (h : exec i s = .next t) : PassesNothing s t := by
  cases he with
  | rx x b => cases hh
  | none x | reserved x =>
    cases h
    exact .refl s
  | reset x =>
    cases h
    exact .of_outside ⟨_, rfl, noDispatch_resetOutputs _⟩ isOutside_idle
  | line v x l =>
    cases h
    split
    · exact lineEvent_passesNothing v s
    · exact .refl s
  | timeout x =>
    cases h
    unfold timeoutEvent
    split
    · exact fail_passesNothing .timeout s
    · exact .refl s
  | done status data =>
    cases h
    split
    · exact sendResponse_passesNothing status data s
    · exact .refl s
  | nodevice x =>
    cases h
    split
    · exact fail_passesNothing .nodev s
    · exact .refl s
  | poll x =>
    cases h
    split
    · exact .of_same ⟨[.idleTick], rfl, by simp [NoDispatch]⟩ rfl rfl
    · exact .refl s

/-- A row that stands for no bytes of the host is a word of a port, or the reading of a form off the transmit stream,
which moves only the place in it (R40, R74, R75; log entry 9). -/
theorem row_of_not_fromHost {i : Instr} (hh : fromHost i = false) (s : State) :
    (∃ u w, i = decodeOp u w) ∨ EventRow i ∨ ∃ n, exec i s = .next { s with taken := n } := by
  have unit {u : UnitPort} {w : PortWord} (hw : encode s.cfg i = .op u w) : ∃ u w, i = decodeOp u w :=
    ⟨u, w, (decodeOp_of_encode hw).symm⟩
  have reading {buses : List Bus} {bytes : List Byte} (h : exec i s = takeOff buses bytes s) :
      ∃ n, exec i s = .next { s with taken := n } :=
    (takeOff_cases buses bytes s).imp fun _ hn => h.trans hn
  cases i
  case nop | csClr | csAbs | csRd | csChk | encBegin | encByte | encEnd | decByte | decRst | reservedOp5 | reservedOp6
    | reservedOp7 | reservedOpB | reservedOpE | reservedOpF => exact .inl (unit rfl)
  case evNone | evReset | evLine | evRx | evTimeout | evDispatchDone | evDispatchNodevice | evPoll | reservedEv7 =>
    exact .inr (.inl (by constructor))
  case sioCmdR | sioCmdW | sioCmdS | mnReset | mnStatus | mnAck | mnClr | mnReceive | mnCancel | mnSend | mnNack
    | mnReady | ctlUnassignedE | ctlUnassignedF | fbEnd | fbEsc | fbEscEnd | fbEscEsc | fHdr5 | fEnv => cases hh
  case sioAck | sioNak | sioComplete | sioError | nmStatus | nmAck | nmSend | nmNack | fIecd | fIecs | fSpr
    | fEnvResp => exact .inr (.inr (reading rfl))
  case nmCancel => exact .inr (.inr ⟨s.taken, rfl⟩)
  case fData way data =>
    cases way with
    | received k => cases hh
    | sent =>
      by_cases hd : data = []
      · exact .inr (.inr ⟨s.taken, if_pos hd⟩)
      · exact .inr (.inr (reading (if_neg hd)))
  case fCtl way op dev =>
    cases way with
    | toDevice => cases hh
    | toHost =>
      by_cases hop : op ∈ sentCodes s.cfg
      · exact .inr (.inr (reading (if_pos hop)))
      · exact .inr (.inr ⟨s.taken, if_neg hop⟩)
  case fLpkt head dev data =>
    cases head with
    | hostSend k => cases hh
    | devStatus => exact .inr (.inr (reading rfl))
    | devSend => exact .inr (.inr (reading rfl))
  case fStuff way body =>
    cases way with
    | toDevice => cases hh
    | toHost => exact .inr (.inr (reading rfl))

theorem exec_passesNothing {i : Instr} (hh : fromHost i = false) {s t : State} (h : exec i s = .next t) :
    PassesNothing s t := by
  rcases row_of_not_fromHost hh s with ⟨u, w, rfl⟩ | he | ⟨n, hn⟩
  · obtain ⟨r, hr, hf⟩ := exec_decodeOp s u w
    cases hr.symm.trans h
    exact .of_same (.silent hf.trace) (by rw [hf.eng]) (by rw [hf.eng])
  · exact event_passesNothing he hh h
  · cases hn.symm.trans h
    exact .of_same (.silent rfl) rfl rfl

/-- Settles O54: the outcome of a received byte says which checks came before, and the invariant holds the payload's
length and direction. -/
theorem dispatchOnlyAfterEveryCheck : Obligations.DispatchOnlyAfterEveryCheck := by
  unfold Obligations.DispatchOnlyAfterEveryCheck
  intro s t hs present loaded
  refine ⟨fun x b h => ?_, fun i hh h => ?other⟩
  case other =>
    have nothing := exec_passesNothing hh h
    exact ⟨nothing.dispatch, nothing.payload, nothing.outputs⟩
  have outcome : ByteOutcome b s t := rxByte_outcome hs h
  refine ⟨fun ht hne => ?dispatched, fun ht hbefore => ?entered, outcome.keeps_frame, outcome.addsNoDispatch⟩
  case dispatched =>
    obtain ⟨⟨-, os, fields, payload, htrace, hos, hlen⟩, matched, header, ended⟩ := outcome.checked ht hne
    have bound : payload.length ≤ s.cfg.maxPayload.toNat := by
      obtain ⟨t', ht', kept⟩ := rxByte_keeps hs b
      cases ht'.symm.trans h
      have hcfg : t.cfg = s.cfg := (rxByte_reaches h).rest.cfg
      rw [hlen, ← hcfg]
      exact kept.rxBound
    refine ⟨os, fields, payload, htrace, hos, hlen, bound, matched, header, fun hp => ?_⟩
    obtain ⟨hsum, hframe, hcount⟩ := ended hp
    have whole : payload.length = s.eng.pLen.toNat := by rw [hlen, hcount, hs.payloadDone hp]
    have write : s.eng.frame.direction = .write := hs.writeHeld (by simp [hp, afterHeader])
    have fits : s.eng.pLen.toNat ≤ payloadCeiling s.cfg s.eng.frame.expectedLength :=
      hs.lengthHeld (by simp [hp, lengthKnown])
    exact ⟨hsum, hframe, hframe ▸ write, whole, by rw [whole, hframe]; exact fits⟩
  case entered =>
    obtain ⟨cs, ⟨hpresent, ⟨ent, hcommand, hdirection, hrest⟩, hmatched⟩, hwrite, hfive⟩ :=
      outcome.enters_payload ht hbefore
    refine ⟨hpresent, ⟨ent, ⟨hcommand, hdirection, hrest⟩, hdirection.symm.trans hwrite⟩, fun hshape => ?_⟩
    obtain ⟨hphase, rfl⟩ := hfive hshape
    exact ⟨hphase, by simpa using hmatched (by simp [hshape])⟩

end Sys2Proof.Laws
end

section
/-! The profile functions of SIO (R171). -/

namespace Sys2Proof.Laws

open Sys2Proof.Machine

theorem unsupported_sio {c : Config} (hb : c.bus = .sio) (e : Engine) : unsupported c e = [.tx [c.sioNak]] := by
  simp only [unsupported, hb]

theorem response_sio {c : Config} (hb : c.bus = .sio) (e : Engine) (status : Byte) (data : List Byte) (need ok : Bool) :
    response c e status data need ok = (sioResponse c status data need ok, false) := by
  simp only [response, hb]

/-- A response on SIO is one burst: the symbol, the symbol with its data block, or `SIO_ERROR` alone (R171). -/
theorem sioResponse_eq_tx (c : Config) (status : Byte) (data : List Byte) (need ok : Bool) :
    sioResponse c status data need ok =
      [.tx (if need = false then [if status = 0x00 then c.sioComplete else c.sioError]
        else if ok = true then
          [if status = 0x00 then c.sioComplete else c.sioError] ++ data ++ [checksum c data]
        else [c.sioError])] := by
  cases need with
  | false => rfl
  | true =>
    cases ok with
    | false => rfl
    | true => rfl

/-- Settles O24: on SIO every profile function sends one burst, and with `ADD8` the byte after the data is that sum. -/
theorem sioProfileFunctions : Obligations.SioProfileFunctions := by
  unfold Obligations.SioProfileFunctions
  intro c e status data need ok hb hk
  have acked : cmdAck c = [.tx [c.sioAck]] := (cmdAck_of_line (.inl hb)).trans (if_pos hb)
  have refused : nak c e = [.tx [c.sioNak]] := (nak_of_line (.inl hb) e).trans (if_pos hb)
  refine ⟨acked, (payloadAck_eq c).trans acked, refused, unsupported_sio hb e, ?_⟩
  rw [response_sio hb, sioResponse_eq_tx, checksumOf_of_kind hk]

end Sys2Proof.Laws
end

section
/-! The profile functions of IEC (R192). -/

namespace Sys2Proof.Laws

open Sys2Proof.Machine

theorem nak_iec {c : Config} (hb : c.bus = .iec) (e : Engine) : nak c e = [] := by
  simp only [nak, hb]

theorem unsupported_iec {c : Config} (hb : c.bus = .iec) (e : Engine) : unsupported c e = [] := by
  simp only [unsupported, hb]

theorem response_iec {c : Config} (hb : c.bus = .iec) (e : Engine) (status : Byte) (data : List Byte) (need ok : Bool) :
    response c e status data need ok = (iecResponse c e status data need ok, false) := by
  simp only [response, hb]

/-- A response on IEC is one burst: the data sequence with its checksum, or the status sequence (R192). -/
theorem iecResponse_eq_tx (c : Config) (e : Engine) (status : Byte) (data : List Byte) (need ok : Bool) :
    iecResponse c e status data need ok =
      [.tx (if need = true ∧ ok = true ∧ status = 0x00 then
          [ctlByte c.nmSend (loNibble e.frame.deviceId)] ++ data ++ [checksum c data]
        else [ctlByte c.nmStatus (loNibble e.frame.deviceId),
          if status ≠ 0x00 then status else if need = true ∧ ok = false then c.stInternal else 0x00])] := by
  by_cases sent : need = true ∧ ok = true ∧ status = 0x00
  case pos =>
    rw [if_pos sent]
    exact if_pos sent
  case neg =>
    rw [if_neg sent]
    exact if_neg sent

/-- Settles O25: on IEC an acknowledgement is the pulse, a refusal is silent, and with `CRC8` the byte after the data is
that checksum. -/
theorem iecProfileFunctions : Obligations.IecProfileFunctions := by
  unfold Obligations.IecProfileFunctions
  intro c e status data need ok hb hk
  have acked : cmdAck c = [.line .ackl true, .line .ackl false] := (cmdAck_of_control (.inl hb)).trans (if_pos hb)
  refine ⟨acked, (payloadAck_eq c).trans acked, nak_iec hb e, unsupported_iec hb e, ?_⟩
  rw [response_iec hb, iecResponse_eq_tx, checksumOf_of_kind hk]

end Sys2Proof.Laws
end

section
/-! The profile functions of SmartPort (R211). -/

namespace Sys2Proof.Laws

open Sys2Proof.Machine

theorem cmdAck_smartport {c : Config} (hb : c.bus = .smartport) : cmdAck c = [.line .ackl true, .line .ackl false] :=
  (cmdAck_of_line (.inr hb)).trans (if_neg (by simp [hb]))

theorem nak_smartport {c : Config} (hb : c.bus = .smartport) (e : Engine) : nak c e = [] :=
  (nak_of_line (.inr hb) e).trans (if_neg (by simp [hb]))

theorem unsupported_smartport {c : Config} (hb : c.bus = .smartport) (e : Engine) :
    unsupported c e = ackPulse ++ [.tx (sprBytes c c.spStBadcmd [])] := by
  simp only [unsupported, hb]

theorem response_smartport {c : Config} (hb : c.bus = .smartport) (e : Engine) (status : Byte) (data : List Byte)
    (need ok : Bool) : response c e status data need ok = (smartportResponse c status data need ok, false) := by
  simp only [response, hb]

/-- Under `XOR8` the sum of a single byte is that byte, so a status without data is sent twice (R69, R93). -/
theorem sprBytes_nil_of_xor8 {c : Config} (hk : c.csKind = .xor8) (status : Byte) :
    sprBytes c status [] = [status, status] := by
  have sum : checksum c [status] = status := by
    rw [← checksumOf_of_kind hk, checksumOf_xor8_cons, checksumOf_xor8_nil]
    exact BitVec.xor_zero
  exact congrArg (fun k => [status, k]) sum

/-- A response on SmartPort is one burst, its body and the body's checksum: `0x00` with the data if any is due, or an
error status alone (R211). -/
theorem smartportResponse_eq_tx (c : Config) (status : Byte) (data : List Byte) (need ok : Bool) :
    let body : List Byte :=
      if status = 0x00 ∧ (need = false ∨ ok = true) then [0x00] ++ (if need = true then data else [])
      else [if status ≠ 0x00 then status else c.stInternal]
    smartportResponse c status data need ok = [.tx (body ++ [checksum c body])] := by
  by_cases sent : status = 0x00 ∧ (need = false ∨ ok = true)
  case pos =>
    rw [if_pos sent]
    exact if_pos sent
  case neg =>
    rw [if_neg sent]
    exact if_neg sent

/-- Settles O26: on SmartPort an acknowledgement is the pulse, a refusal is silent, and with `XOR8` an unsupported command
is answered by its status twice and a response ends in that checksum of its body. -/
theorem smartportProfileFunctions : Obligations.SmartportProfileFunctions := by
  unfold Obligations.SmartportProfileFunctions
  intro c e status data need ok hb hk
  have acked := cmdAck_smartport hb
  refine ⟨acked, (payloadAck_eq c).trans acked, nak_smartport hb e, ?unsupported, ?response⟩
  case unsupported =>
    rw [unsupported_smartport hb, sprBytes_nil_of_xor8 hk]
    rfl
  case response =>
    simp only [response_smartport hb, smartportResponse_eq_tx, checksumOf_of_kind hk]

end Sys2Proof.Laws
end

section
/-! The profile functions of AdamNet (R227). -/

namespace Sys2Proof.Laws

open Sys2Proof.Machine

theorem cmdAck_adamnet {c : Config} (hb : c.bus = .adamnet) : cmdAck c = [] :=
  (cmdAck_of_control (.inr hb)).trans (if_neg (by simp [hb]))

theorem nak_adamnet {c : Config} (hb : c.bus = .adamnet) (e : Engine) :
    nak c e = [.tx [ctlByte c.nmNack (loNibble e.frame.deviceId)]] := by
  simp only [nak, hb, frameDev]

theorem unsupported_adamnet {c : Config} (hb : c.bus = .adamnet) (e : Engine) :
    unsupported c e = [.tx [ctlByte c.nmNack (loNibble e.frame.deviceId)]] := by
  simp only [unsupported, hb, frameDev]

theorem response_adamnet {c : Config} (hb : c.bus = .adamnet) (e : Engine) (status : Byte) (data : List Byte)
    (need ok : Bool) : response c e status data need ok = adamnetResponse c e status data need ok := by
  simp only [response, hb]

/-- The big-endian bytes of a 16-bit count are its quotient and its remainder by 256. -/
theorem split16_bigEndian_ofNat (n : Nat) :
    split16 .bigEndian (BitVec.ofNat 16 n) = [BitVec.ofNat 8 (n / 256), BitVec.ofNat 8 (n % 256)] := by
  have high : (BitVec.ofNat 16 n).extractLsb' 8 8 = BitVec.ofNat 8 (n / 256) := by
    apply BitVec.eq_of_toNat_eq
    simp only [BitVec.extractLsb'_toNat, BitVec.toNat_ofNat, Nat.shiftRight_eq_div_pow]
    omega
  have low : (BitVec.ofNat 16 n).extractLsb' 0 8 = BitVec.ofNat 8 (n % 256) := by
    apply BitVec.eq_of_toNat_eq
    simp only [BitVec.extractLsb'_toNat, BitVec.toNat_ofNat, Nat.shiftRight_zero]
    omega
  rw [split16, high, low]

/-- A packet under a big-endian prefix, byte by byte (R67). -/
theorem lpktSent_of_bigEndian {c : Config} (ho : c.lenPrefixOrder = .bigEndian) (code dev : Nibble) (data : List Byte) :
    lpktSent c code dev data =
      [ctlByte code dev, BitVec.ofNat 8 (data.length / 256), BitVec.ofNat 8 (data.length % 256)]
        ++ data ++ [checksum c data] := by
  rw [lpktSent, lpktBytes, ho, split16_bigEndian_ofNat]
  rfl

/-- The code of an answering packet is `NM_SEND` when the command asked for no status, given that the two codes differ. -/
theorem packetCode_beq_nmSend {c : Config} (hne : c.nmStatus ≠ c.nmSend) (asked : Prop) [Decidable asked] :
    ((if asked then c.nmStatus else c.nmSend) == c.nmSend) = !decide asked := by
  by_cases h : asked
  case pos => simp [h, hne]
  case neg => simp [h]

/-- A response on AdamNet is one burst: an acknowledgement, a packet, or a refusal; the engine waits after a packet that
is not a status (R227). -/
theorem adamnetResponse_eq_tx {c : Config} (hne : c.nmStatus ≠ c.nmSend) (e : Engine) (status : Byte)
    (data : List Byte) (need ok : Bool) :
    let dev := loNibble e.frame.deviceId
    let status4 : Bool := decide (e.frame.command = c.mnStatus.zeroExtend 8)
    adamnetResponse c e status data need ok =
      if need = false then ([.tx [ctlByte (if status = 0x00 then c.nmAck else c.nmNack) dev]], false)
      else if ok = true ∧ status = 0x00 then
        ([.tx (lpktSent c (if status4 = true then c.nmStatus else c.nmSend) dev data)], !status4)
      else ([.tx [ctlByte c.nmNack dev]], false) := by
  simp only [adamnetResponse, frameDev, packetCode_beq_nmSend hne, decide_eq_true_eq]

/-- Settles O27: on AdamNet an acknowledgement is silent, a refusal is `NM_NACK`, and with `XOR8` and a big-endian prefix
the data travels as a packet that ends in that checksum. -/
theorem adamnetProfileFunctions : Obligations.AdamnetProfileFunctions := by
  unfold Obligations.AdamnetProfileFunctions
  intro c e status data need ok hb hk ho hne _ dev status4
  have silent : cmdAck c = [] := cmdAck_adamnet hb
  refine ⟨silent, (payloadAck_eq c).trans silent, nak_adamnet hb e, unsupported_adamnet hb e, ?_⟩
  rw [response_adamnet hb, adamnetResponse_eq_tx hne, lpktSent_of_bigEndian ho, checksumOf_of_kind hk]

end Sys2Proof.Laws
end

section
/-! The profile functions of FujiBus (R245, R250). -/

namespace Sys2Proof.Laws

open Sys2Proof.Machine

theorem cmdAck_fujibus {c : Config} (hb : c.bus = .fujibus) : cmdAck c = [] := by
  simp only [cmdAck, hb]

theorem nak_fujibus {c : Config} (hb : c.bus = .fujibus) (e : Engine) : nak c e = [] := by
  simp only [nak, hb]

theorem response_fujibus {c : Config} (hb : c.bus = .fujibus) (e : Engine) (status : Byte) (data : List Byte)
    (need ok : Bool) : response c e status data need ok = (fujibusResponse c e status data need ok, false) := by
  simp only [response, hb]

/-- A byte that fills a little-endian field is its first wire byte, and the other three are zero (R72, R250). -/
theorem split32_littleEndian_zeroExtend (b : Byte) :
    split32 .littleEndian (b.zeroExtend 32) = [b, 0x00, 0x00, 0x00] := by
  have extended : (b.zeroExtend 32 : Field) = join32 .littleEndian b 0x00 0x00 0x00 := by
    apply BitVec.eq_of_toNat_eq
    have hb := b.isLt
    simp only [join32_toNat, BitVec.truncate_eq_setWidth, BitVec.toNat_setWidth, BitVec.ofNat_eq_ofNat,
      BitVec.toNat_ofNat]
    omega
  rw [extended, split32_join32]

/-- An answer with a status byte, byte by byte, under a little-endian field (R250). -/
theorem fbRespond_byteStatus {c : Config} (ho : c.fbFieldOrder = .littleEndian) (e : Engine) (status : Byte)
    (data : List Byte) :
    let body := [e.fbSeq, e.frame.command, 0x01, e.frame.deviceId, status, 0x00, 0x00, 0x00] ++ data
    fbRespond c e (status.zeroExtend 32) data =
      [.tx ([c.fbEnd] ++ encodeEscape c (body ++ [checksum c body]) ++ [c.fbEnd])] := by
  rw [fbRespond, envRespBytes, envRespBody, ho, split32_littleEndian_zeroExtend]
  rfl

/-- A response on FujiBus is one answer: an error status alone, `ST_INTERNAL` for data of a wrong length, or `0x00` with
the data if any is due (R250). -/
theorem fujibusResponse_eq_fbRespond (c : Config) (e : Engine) (status : Byte) (data : List Byte) (need ok : Bool) :
    fujibusResponse c e status data need ok =
      if status ≠ 0x00 then fbRespond c e (status.zeroExtend 32) []
      else if need = true ∧ ok = false then fbRespond c e (c.stInternal.zeroExtend 32) []
      else if need = true then fbRespond c e ((0x00 : Byte).zeroExtend 32) data
      else fbRespond c e ((0x00 : Byte).zeroExtend 32) [] := rfl

/-- Settles O28: on FujiBus acknowledgements and refusals are silent, and with `ADD8` and a little-endian field every
answer is one stuffed envelope that ends in that sum. -/
theorem fujibusProfileFunctions : Obligations.FujibusProfileFunctions := by
  unfold Obligations.FujibusProfileFunctions
  intro c e status data need ok hb hk ho hst reply
  have silent : cmdAck c = [] := cmdAck_fujibus hb
  have replies (st : Byte) (d : List Byte) : fbRespond c e (st.zeroExtend 32) d = reply st d := by
    rw [fbRespond_byteStatus ho, ← checksumOf_of_kind hk]
  refine ⟨silent, (payloadAck_eq c).trans silent, nak_fujibus hb e, ?unsupported, ?response⟩
  case unsupported =>
    rw [unsupported_fujibus hb, hst]
    exact replies 0x01 []
  case response =>
    simp only [response_fujibus hb, fujibusResponse_eq_fbRespond, replies]

end Sys2Proof.Laws
end

section
/-! The byte that opens a FujiBus envelope (R246): in `IDLE` outside a frame, and in `CMD_DETECT` inside one without
data. -/

namespace Sys2Proof.Laws

open Sys2Proof.Machine

theorem exec_evRx_idle_fujibus {s : State} (hb : s.cfg.bus = .fujibus) (hp : s.eng.phase = .idle) (x : Bool)
    (b : Byte) : exec (.evRx x b) s = fujiIdleByte b s := by
  have hd : detect s.cfg = .delimiter := detect_shape.2.2.1.mpr hb
  change rxByte b s = _
  simp only [rxByte, hp, idleByte, hd]

theorem exec_evRx_cmdDetect_fujibus {s : State} (hb : s.cfg.bus = .fujibus) (hp : s.eng.phase = .cmdDetect) (x : Bool)
    (b : Byte) : exec (.evRx x b) s = fujiDetectByte b s := by
  have hd : detect s.cfg = .delimiter := detect_shape.2.2.1.mpr hb
  change rxByte b s = _
  simp only [rxByte, hp, detectByte, hd]

/-- Outside a frame a byte opens one, or is dropped with the decoder as it was (R115, R246). -/
theorem decStep_hunt_cases (c : Config) {u : FrUnit} (b : Byte) (h : u.st = .hunt) :
    (decStep c u b).2 = .frameStart ∨ decStep c u b = (u, .nothing) :=
  (decStep_hunt_out c b h).imp_left (congrArg Prod.snd)

/-- Before any data a frame cannot end well (R116, R117, R246). -/
theorem decStep_inside_empty (c : Config) {u : FrUnit} (b : Byte) (h : u.st ≠ .hunt) (hne : u.ne = false) :
    (decStep c u b).2 = .nothing ∨ (∃ d, (decStep c u b).2 = .data d) ∨ (decStep c u b).2 = .frameEnd false := by
  rcases decStep_inside c b h with ⟨ho, -, -⟩ | ⟨d, ho, -, -⟩ | ⟨ho, -⟩ | ⟨-, -, hsome⟩
  · exact .inl ho
  · exact .inr (.inl ⟨d, ho⟩)
  · exact .inr (.inr ho)
  · exact absurd (hne.symm.trans hsome) Bool.false_ne_true

/-- The first byte of an envelope is stored at index 0 (R246, R247). -/
theorem envStore_first {s : State} (hc : s.eng.envCnt = 0) (d : Byte) :
    envStore d s = .next { s with eng := { s.eng with envBuf := s.eng.envBuf.write 0 d, envCnt := 1 } } := by
  have count : s.eng.envCnt.toNat = 0 := congrArg BitVec.toNat hc
  have room : s.eng.envCnt.toNat < envMax s.cfg := by
    rw [count]
    exact Nat.succ_pos _
  have stored : envStore d s = .next (storeEnvelope (s.eng.envBuf.write s.eng.envCnt.toNat d) s) :=
    envStore_eq_next.mpr (.inr ⟨room, rfl⟩)
  rw [stored, storeEnvelope_room (by omega), count, hc]
  rfl

/-- Settles O42: `fujiIdleByte` and `fujiDetectByte` output by output. -/
theorem openingByteFollowsTheDecoder : Obligations.OpeningByteFollowsTheDecoder := by
  unfold Obligations.OpeningByteFollowsTheDecoder
  intro s x b hb u out
  have taken : engDecode b s = (u, out) := rfl
  refine ⟨fun hp hst => ?idle, fun hp hst hne hc => ?detect⟩
  case idle =>
    rw [exec_evRx_idle_fujibus hb hp]
    have outputs := decStep_hunt_cases s.cfg b hst
    refine ⟨fun ho => ?starts, fun ho => ?drops, outputs.imp_right (congrArg Prod.snd)⟩
    case starts =>
      simp only [fujiIdleByte, taken, ho]
      rfl
    case drops =>
      have dropped : decStep s.cfg s.eng.fr b = (s.eng.fr, .nothing) :=
        outputs.resolve_left fun hs => nomatch hs.symm.trans ho
      have unchanged : u = s := by simp only [u, dropped]
      simp only [fujiIdleByte, taken, ho, unchanged]
  case detect =>
    rw [exec_evRx_cmdDetect_fujibus hb hp]
    refine ⟨fun ho => ?nothing, fun d ho => ?data, fun ho => ?bad, decStep_inside_empty s.cfg b hst hne⟩
    case nothing => simp only [fujiDetectByte, taken, ho]
    case data =>
      have stores : fujiDetectByte b s = envStore d (setPhase .rxEnv u) := by simp only [fujiDetectByte, taken, ho]
      rw [stores, envStore_first (s := setPhase .rxEnv u) hc]
      exact ⟨s.eng.envBuf.write 0 d, fun i => read_write _ _ i d, rfl⟩
    case bad => simp [fujiDetectByte, taken, ho, failWith_nil]

end Sys2Proof.Laws
end

section
/-! `EvReset` (R153, R290). -/

namespace Sys2Proof.Laws

open Sys2Proof.Machine

/-- The buses with an output line release it at reset; the others emit nothing (R26, R290). -/
theorem resetOutputs_eq (c : Config) :
    resetOutputs c = if c.bus = .iec ∨ c.bus = .smartport then [.line .ackl false] else [] := by
  unfold resetOutputs outLine
  cases c.bus <;> rfl

theorem exec_evReset (x : BitVec 9) (s : State) : exec (.evReset x) s = .next (resetEngine s) := rfl

/-- Settles O17: `resetEngine`, register by register. -/
theorem evResetWritesEveryRegister : Obligations.EvResetWritesEveryRegister := by
  unfold Obligations.EvResetWritesEveryRegister
  intro s x
  have emitted := resetEngine_trace s
  rw [resetOutputs_eq] at emitted
  exact ⟨resetEngine s, exec_evReset x s, rfl, rfl, rfl, rfl, rfl, rfl, rfl, rfl, rfl, rfl, rfl, rfl, rfl, rfl,
    emitted, rfl, rfl, rfl, rfl, rfl, rfl, rfl⟩

end Sys2Proof.Laws
end
